-- ==== Sys2Proof/Word.lean ====
section
/-! DEFINITION. The widths the spec's values come in. -/

namespace Sys2Proof

/-- One byte of an instruction or of memory (`10_state.md` R42). -/
abbrev Byte := BitVec 8

/-- A general register, an address or a control register (`10_state.md` R36, R37). -/
abbrev Word := BitVec 64

/-- A whole vector register: MAXVL = 512 bits (`10_state.md` R30, `00_scope.md` R10). -/
abbrev Vec := BitVec 512

end Sys2Proof
end

