-- ==== Sys2Proof/Config.lean ====
section
/-! DEFINITION. The types of the spec's open parameters (the environment record ENV, `00_scope.md` R10), and the free values:
constants with no body, of which no proof can learn anything. -/

namespace Sys2Proof

/-- `ENV.MODE`. The spec covers `m64` and `m32` (`60_exceptions.md` R210). The other three are the modes it refuses
(`00_scope.md` R7); `real` is the one the processor starts in (`10_state.md` R45). -/
inductive Mode where
  | m64
  | m32
  | real
  | v86
  | code16
deriving DecidableEq, Repr

/-- The two modes whose instructions have a meaning (`60_exceptions.md` R210). -/
def Mode.covered : Mode → Bool
  | .m64 => true
  | .m32 => true
  | .real => false
  | .v86 => false
  | .code16 => false

/-- `ENV.MAXVL`: the width of a vector register (`00_scope.md` R10). -/
inductive MaxVl where
  | vl128
  | vl256
  | vl512
deriving DecidableEq, Repr

/-- MAXVL in bits. -/
def MaxVl.bits : MaxVl → Nat
  | .vl128 => 128
  | .vl256 => 256
  | .vl512 => 512

/-- `ENV.KW`: the width of an opmask register (`10_state.md` R35). -/
inductive MaskWidth where
  | kw16
  | kw64
deriving DecidableEq, Repr

/-- KW in bits. -/
def MaskWidth.bits : MaskWidth → Nat
  | .kw16 => 16
  | .kw64 => 64

/-- `ENV.FEATURES`: which CPUID feature flags read as 1 (`10_state.md` R40). -/
structure Features where
  sse41 : Bool
  avx : Bool
  avx2 : Bool
  avx512f : Bool
  avx512vl : Bool
deriving DecidableEq, Repr

/-- FREE VALUE (`20_memory.md` R70, log 9): what the memory-read oracle answers for the physical byte at an address that
another agent may write, each read on its own (R67). First argument: the model's counter `State.tick`; second: the byte's offset in
the operand; third: the physical address. -/
opaque Config.oracleByte : Nat → Nat → Nat → Byte

/-- FREE VALUE (`60_exceptions.md` R199 step 4, log 10): which of several applicable memory faults is the outcome. Argument:
the model's counter `State.tick`; the answer is taken modulo the number of applicable faults. -/
opaque Config.faultPick : Nat → Nat

/-- DESIGN CHOICE (log 3): the processor identification that EDX holds after reset (`10_state.md` R45 gives no number). -/
def Config.processorId : Word := 0

end Sys2Proof
end

