-- ==== Sys2Proof/Syntax.lean ====
section
/-! DEFINITION. The instructions: one constructor per row of `spec/opcode_table.json`. An instruction holds every bit of its
encoding (the prefixes in their order, and the bits the spec calls ignored as well), so that its length, which pc advance and
pc-relative addressing need (`30_encoding.md` R113, R108), is a function of it, and so that encoding undoes decoding. -/

namespace Sys2Proof

/-- The six segment registers (`10_state.md` R36). -/
inductive Seg where
  | es
  | cs
  | ss
  | ds
  | fs
  | gs
deriving DecidableEq, Repr

/-- A legacy prefix that may stand before a form: a segment override, 67h, or the 66h of form 1 (`30_encoding.md` R92). -/
inductive Prefix where
  | seg (s : Seg)
  | addrSize
  | opSize
deriving DecidableEq, Repr

/-- The displacement of a memory operand that has a base (`30_encoding.md` R105, R107). -/
inductive Disp where
  | none
  | disp8 (v : BitVec 8)
  | disp32 (v : BitVec 32)
deriving DecidableEq, Repr

/-- The addressing forms of a memory operand (`30_encoding.md` R105, R106). Register numbers carry their extension bit as
bit 3; an extension bit that names nothing in a form is kept beside it as a Bool. -/
inductive Addr where
  /-- ModRM alone with a base register; `x` is the extension bit of the absent index. -/
  | base (x : Bool) (base : BitVec 4) (disp : Disp)
  /-- SIB byte with a base register; index 0100b means no index. -/
  | sib (scale : BitVec 2) (index : BitVec 4) (base : BitVec 4) (disp : Disp)
  /-- SIB byte with base field 101b and mod = 00: no base; `b` is the extension bit of the absent base. -/
  | sibNoBase (b : Bool) (scale : BitVec 2) (index : BitVec 4) (disp : BitVec 32)
  /-- mod = 00, rm = 101: pc-relative in M64, absolute in M32; `x` and `b` name nothing. -/
  | disp32 (x b : Bool) (disp : BitVec 32)
deriving DecidableEq, Repr

/-- The ModRM:r/m operand of a legacy or VEX form: a register (4-bit number; `x` is ignored, `30_encoding.md` R98) or memory. -/
inductive Rm4 where
  | reg (x : Bool) (n : BitVec 4)
  | mem (a : Addr)
deriving DecidableEq, Repr

/-- The ModRM:r/m operand of an EVEX form: a register (5-bit number) or memory, with `bcst` = EVEX.b (`30_encoding.md` R102,
R104). EVEX.b = 1 with a register source is no instruction but #UD (R111), so it has no place here. -/
inductive Rm5 where
  | reg (n : BitVec 5)
  | mem (bcst : Bool) (a : Addr)
deriving DecidableEq, Repr

/-- The operands of form 1 (`30_encoding.md` R93): destination and first source `d`, second source `src`. -/
structure LegacyOps where
  prefixes : List Prefix
  d : BitVec 4
  src : Rm4
deriving DecidableEq, Repr

/-- The operands of forms 2 and 3 (`30_encoding.md` R98); `w` is the ignored VEX.W. -/
structure VexOps where
  prefixes : List Prefix
  w : Bool
  d : BitVec 4
  s1 : BitVec 4
  src : Rm4
deriving DecidableEq, Repr

/-- The operands of forms 4 to 9 (`30_encoding.md` R102, R104): `aaa` = 0 is "no writemask", `z` is zeroing-masking. -/
structure EvexOps where
  prefixes : List Prefix
  d : BitVec 5
  s1 : BitVec 5
  src : Rm5
  aaa : BitVec 3
  z : Bool
deriving DecidableEq, Repr

/-- The instructions, in the order of the rows of `spec/opcode_table.json`. -/
inductive Instr where
  /-- Row 1: `66 0F 38 3F /r` without REX. -/
  | pmaxud (o : LegacyOps)
  /-- Row 2: `66 REX 0F 38 3F /r`; `w` is the ignored REX.W. -/
  | pmaxudRex (w : Bool) (o : LegacyOps)
  /-- Row 3: `VEX.NDS.128.66.0F38.WIG 3F /r`. -/
  | vpmaxudVex128 (o : VexOps)
  /-- Row 4: `VEX.NDS.256.66.0F38.WIG 3F /r`. -/
  | vpmaxudVex256 (o : VexOps)
  /-- Row 5: `EVEX.NDS.128.66.0F38.W0 3F /r`. -/
  | vpmaxudEvex128 (o : EvexOps)
  /-- Row 6: `EVEX.NDS.256.66.0F38.W0 3F /r`. -/
  | vpmaxudEvex256 (o : EvexOps)
  /-- Row 7: `EVEX.NDS.512.66.0F38.W0 3F /r`. -/
  | vpmaxudEvex512 (o : EvexOps)
  /-- Row 8: `EVEX.NDS.128.66.0F38.W1 3F /r`. -/
  | vpmaxuqEvex128 (o : EvexOps)
  /-- Row 9: `EVEX.NDS.256.66.0F38.W1 3F /r`. -/
  | vpmaxuqEvex256 (o : EvexOps)
  /-- Row 10: `EVEX.NDS.512.66.0F38.W1 3F /r`. -/
  | vpmaxuqEvex512 (o : EvexOps)
deriving DecidableEq, Repr

end Sys2Proof
end

