-- ==== Sys2Proof/Machine/Length.lean ====
section
/-! DEFINITION. `ilen`, the length of an instruction in bytes (`30_encoding.md` R113). -/

namespace Sys2Proof

/-- The displacement bytes of a form with a base (R107). -/
def Disp.len : Disp → Nat
  | .none => 0
  | .disp8 _ => 1
  | .disp32 _ => 4

/-- SIB and displacement bytes of a memory operand (R105, R106). -/
def Addr.len : Addr → Nat
  | .base _ _ d => d.len
  | .sib _ _ _ d => 1 + d.len
  | .sibNoBase _ _ _ _ => 5
  | .disp32 _ _ _ => 4

/-- SIB and displacement bytes of a legacy or VEX second source. -/
def Rm4.len : Rm4 → Nat
  | .reg _ _ => 0
  | .mem a => a.len

/-- SIB and displacement bytes of an EVEX second source. -/
def Rm5.len : Rm5 → Nat
  | .reg _ => 0
  | .mem _ a => a.len

/-- Length of form 1: prefixes, a REX byte or none, `0F 38 3F`, ModRM and what follows it. -/
def LegacyOps.len (rex : Bool) (o : LegacyOps) : Nat :=
  o.prefixes.length + (if rex then 1 else 0) + 3 + 1 + o.src.len

/-- Length of a VEX form: prefixes, `C4 V1 V2 3F`, ModRM and what follows it. -/
def VexOps.len (o : VexOps) : Nat :=
  o.prefixes.length + 4 + 1 + o.src.len

/-- Length of an EVEX form: prefixes, `62 P0 P1 P2 3F`, ModRM and what follows it. -/
def EvexOps.len (o : EvexOps) : Nat :=
  o.prefixes.length + 5 + 1 + o.src.len

/-- `ilen` (R113). -/
def Instr.ilen : Instr → Nat
  | .pmaxud o => o.len false
  | .pmaxudRex _ o => o.len true
  | .vpmaxudVex128 o => o.len
  | .vpmaxudVex256 o => o.len
  | .vpmaxudEvex128 o => o.len
  | .vpmaxudEvex256 o => o.len
  | .vpmaxudEvex512 o => o.len
  | .vpmaxuqEvex128 o => o.len
  | .vpmaxuqEvex256 o => o.len
  | .vpmaxuqEvex512 o => o.len

end Sys2Proof
end

