-- ==== Sys2Proof/WellFormed.lean ====
section
/-! DEFINITION. Which terms of `Instr` are instructions of a mode: exactly those the encodings of `30_encoding.md` can say and
its rules neither fault nor refuse. -/

namespace Sys2Proof

/-- Bits 2:0 of a register number: the part ModRM, SIB or vvvv's low bits hold. -/
def low3 (n : BitVec 4) : BitVec 3 := n.extractLsb' 0 3

/-- A displacement that is absent, that is mod = 00. -/
def Disp.absent : Disp → Bool
  | .none => true
  | .disp8 _ => false
  | .disp32 _ => false

/-- The addressing forms ModRM and SIB can say (R105, R106): rm = 100 always announces a SIB byte, and base or rm = 101 with
mod = 00 announces no base. -/
def Addr.wf : Addr → Bool
  | .base _ b d => low3 b != 4#3 && (!d.absent || low3 b != 5#3)
  | .sib _ _ b d => !d.absent || low3 b != 5#3
  | .sibNoBase _ _ _ _ => true
  | .disp32 _ _ _ => true

/-- No register-extension bit is used: what an encoding without REX, and every M32 encoding, can say. -/
def Addr.lowRegs : Addr → Bool
  | .base x b _ => !x && b.ult 8#4
  | .sib _ i b _ => i.ult 8#4 && b.ult 8#4
  | .sibNoBase b _ i _ => !b && i.ult 8#4
  | .disp32 x b _ => !x && !b

/-- The second source of a legacy or VEX form is one ModRM can say. -/
def Rm4.wf : Rm4 → Bool
  | .reg _ _ => true
  | .mem a => a.wf

/-- The second source of an EVEX form is one ModRM can say. -/
def Rm5.wf : Rm5 → Bool
  | .reg _ => true
  | .mem _ a => a.wf

/-- The second source of a legacy or VEX form uses no extension bit. -/
def Rm4.lowRegs : Rm4 → Bool
  | .reg x n => !x && n.ult 8#4
  | .mem a => a.lowRegs

/-- The second source of an EVEX form uses no extension bit. -/
def Rm5.lowRegs : Rm5 → Bool
  | .reg n => n.ult 8#5
  | .mem _ a => a.lowRegs

/-- Every register number of form 1 is 0 to 7 and no extension bit is set. -/
def LegacyOps.lowRegs (o : LegacyOps) : Bool := o.d.ult 8#4 && o.src.lowRegs

/-- Every register number of a VEX form is 0 to 7 and no extension bit is set (R99). -/
def VexOps.lowRegs (o : VexOps) : Bool := o.d.ult 8#4 && o.s1.ult 8#4 && o.src.lowRegs

/-- Every register number of an EVEX form is 0 to 7 and no extension bit is set (R103). -/
def EvexOps.lowRegs (o : EvexOps) : Bool := o.d.ult 8#5 && o.s1.ult 8#5 && o.src.lowRegs

/-- Every register number of an instruction is 0 to 7 and no extension bit is set. -/
def Instr.lowRegs : Instr → Bool
  | .pmaxud o => o.lowRegs
  | .pmaxudRex _ o => o.lowRegs
  | .vpmaxudVex128 o => o.lowRegs
  | .vpmaxudVex256 o => o.lowRegs
  | .vpmaxudEvex128 o => o.lowRegs
  | .vpmaxudEvex256 o => o.lowRegs
  | .vpmaxudEvex512 o => o.lowRegs
  | .vpmaxuqEvex128 o => o.lowRegs
  | .vpmaxuqEvex256 o => o.lowRegs
  | .vpmaxuqEvex512 o => o.lowRegs

/-- 67h is admitted in M64 only: in M32 it selects 16-bit addressing, which is refused (R108, D16). -/
def addrSizeOk (m : Mode) (ps : List Prefix) : Bool :=
  decide (m = .m64) || !ps.contains .addrSize

/-- Form 1: 66h stands among the prefixes (R91, R92). -/
def LegacyOps.wf (m : Mode) (o : LegacyOps) : Bool :=
  o.prefixes.contains .opSize && addrSizeOk m o.prefixes && o.src.wf

/-- VEX forms: no 66h before the prefix (R99); M32 uses no extension bit (R99). -/
def VexOps.wf (m : Mode) (o : VexOps) : Bool :=
  !o.prefixes.contains .opSize && addrSizeOk m o.prefixes && o.src.wf && (decide (m = .m64) || o.lowRegs)

/-- EVEX forms: no 66h before the prefix (R103); z = 1 needs a writemask (R111); M32 uses no extension bit (R103). -/
def EvexOps.wf (m : Mode) (o : EvexOps) : Bool :=
  !o.prefixes.contains .opSize && addrSizeOk m o.prefixes && o.src.wf && (!o.z || o.aaa != 0#3)
    && (decide (m = .m64) || o.lowRegs)

/-- The operands of an instruction are ones its encoding can say in mode `m`. -/
def Instr.operandsOk (m : Mode) : Instr → Bool
  | .pmaxud o => o.wf m && o.lowRegs
  | .pmaxudRex _ o => o.wf m && decide (m = .m64)
  | .vpmaxudVex128 o => o.wf m
  | .vpmaxudVex256 o => o.wf m
  | .vpmaxudEvex128 o => o.wf m
  | .vpmaxudEvex256 o => o.wf m
  | .vpmaxudEvex512 o => o.wf m
  | .vpmaxuqEvex128 o => o.wf m
  | .vpmaxuqEvex256 o => o.wf m
  | .vpmaxuqEvex512 o => o.wf m

/-- An instruction of mode `m`: a mode the spec covers (R210), operands the encoding can say, at most 15 bytes (R90). -/
def Instr.wf (m : Mode) (i : Instr) : Bool :=
  m.covered && i.operandsOk m && decide (i.ilen ≤ 15)

end Sys2Proof
end

