-- ==== Sys2Proof/Decode.lean ====
section
/-! DEFINITION. The decoder (`30_encoding.md` R114), total on any bytes, and after it the encoder. -/

namespace Sys2Proof

/-- Why the decoder gives a byte string no meaning. Each is a refusal of the spec, so each is safe. -/
inductive DecodeRefusal where
  /-- Raised by `decode` outside M64 and M32 (`60_exceptions.md` R210). -/
  | mode
  /-- The bytes are not an instruction of this group (`30_encoding.md` R112). -/
  | notInSpec
  /-- F2h or F3h before form 1 (R92). -/
  | repPrefix
  /-- A REX byte followed by another prefix (R92). -/
  | rexPlacement
  /-- M32: a register-extension bit is used (R99, R103). -/
  | m32Extension
  /-- M32 with 67h: 16-bit addressing (R108, D16). -/
  | addrSize16
  /-- More than 15 bytes (R90, D14). -/
  | tooLong
  /-- The byte string ends inside the instruction. -/
  | truncated
deriving DecidableEq, Repr

/-- The decoder's verdict (R114): an instruction, `#UD`, or a refusal with its reason. -/
inductive Decoded where
  | ok (i : Instr)
  | ud
  | refused (r : DecodeRefusal)
deriving DecidableEq, Repr

/-- The bytes of R114 step 1: prefixes a form admits, LOCK (F0h), REPNE (F2h), REP (F3h). -/
inductive RawPrefix where
  | admitted (p : Prefix)
  | lock
  | repne
  | rep
deriving DecidableEq, Repr

/-- What ModRM:r/m names, before the extension bits of a register are placed. -/
inductive RmField where
  | reg (rm : BitVec 3)
  | mem (a : Addr)
deriving DecidableEq, Repr

/-- Bit `i` of a byte. -/
def bitAt (b : Byte) (i : Nat) : Bool := b.getLsbD i

/-- A prefix byte and what it is (R92, R114 step 1). -/
def rawPrefix (b : Byte) : Option RawPrefix :=
  if b = 0x26 then some (.admitted (.seg .es))
  else if b = 0x2E then some (.admitted (.seg .cs))
  else if b = 0x36 then some (.admitted (.seg .ss))
  else if b = 0x3E then some (.admitted (.seg .ds))
  else if b = 0x64 then some (.admitted (.seg .fs))
  else if b = 0x65 then some (.admitted (.seg .gs))
  else if b = 0x67 then some (.admitted .addrSize)
  else if b = 0x66 then some (.admitted .opSize)
  else if b = 0xF0 then some .lock
  else if b = 0xF2 then some .repne
  else if b = 0xF3 then some .rep
  else none

/-- R114 step 1: the prefixes in their order, and the bytes after them. -/
def scanPrefixes : List Byte → List RawPrefix × List Byte
  | [] => ([], [])
  | b :: bs =>
    match rawPrefix b with
    | some p => (p :: (scanPrefixes bs).1, (scanPrefixes bs).2)
    | none => ([], b :: bs)

/-- The prefixes of a scan that a form admits. -/
def admitted : List RawPrefix → List Prefix
  | [] => []
  | .admitted p :: ps => p :: admitted ps
  | .lock :: ps => admitted ps
  | .repne :: ps => admitted ps
  | .rep :: ps => admitted ps

/-- A REX byte, 40h to 4Fh (R91). -/
def isRex (b : Byte) : Bool := b.extractLsb' 4 4 == 4#4

/-- A register number of 4 bits from its extension bit and its field of 3 bits (R93, R98). -/
def extend (e : Bool) (n : BitVec 3) : BitVec 4 := BitVec.ofBool e ++ n

/-- A little-endian field of four bytes (`20_memory.md` R64). -/
def le32 (b0 b1 b2 b3 : Byte) : BitVec 32 := b3 ++ b2 ++ b1 ++ b0

/-- The displacement that `mod` announces for a form with a base (R105, R107), and the bytes after it. -/
def takeDisp (mod : BitVec 2) (bs : List Byte) : Option (Disp × List Byte) :=
  if mod = 0#2 then some (.none, bs)
  else if mod = 1#2 then
    match bs with
    | b :: rest => some (.disp8 b, rest)
    | [] => none
  else
    match bs with
    | b0 :: b1 :: b2 :: b3 :: rest => some (.disp32 (le32 b0 b1 b2 b3), rest)
    | _ => none

/-- A displacement of four bytes (R107), and the bytes after it. -/
def takeDisp32 : List Byte → Option (BitVec 32 × List Byte)
  | b0 :: b1 :: b2 :: b3 :: rest => some (le32 b0 b1 b2 b3, rest)
  | _ => none

/-- The memory operand of a SIB byte (R106), with extension bits `x` and `b`. -/
def decodeSib (x b : Bool) (mod : BitVec 2) (sib : Byte) (bs : List Byte) : Option (Addr × List Byte) :=
  let scale := sib.extractLsb' 6 2
  let index := extend x (sib.extractLsb' 3 3)
  let base := sib.extractLsb' 0 3
  if mod = 0#2 ∧ base = 5#3 then
    (takeDisp32 bs).map fun r => (.sibNoBase b scale index r.1, r.2)
  else
    (takeDisp mod bs).map fun r => (.sib scale index (extend b base) r.1, r.2)

/-- ModRM and what follows it (R105): the reg field, the r/m operand and the bytes after it. -/
def decodeModRM (x b : Bool) : List Byte → Option (BitVec 3 × RmField × List Byte)
  | [] => none
  | m :: bs =>
    let mod := m.extractLsb' 6 2
    let reg := m.extractLsb' 3 3
    let rm := m.extractLsb' 0 3
    if mod = 3#2 then some (reg, .reg rm, bs)
    else if rm = 4#3 then
      match bs with
      | sib :: rest => (decodeSib x b mod sib rest).map fun r => (reg, .mem r.1, r.2)
      | [] => none
    else if mod = 0#2 ∧ rm = 5#3 then
      (takeDisp32 bs).map fun r => (reg, .mem (.disp32 x b r.1), r.2)
    else
      (takeDisp mod bs).map fun r => (reg, .mem (.base x (extend b rm) r.1), r.2)

/-- The second source of a legacy or VEX form: B extends a register number, X is ignored then (R93, R98). -/
def RmField.toRm4 (x b : Bool) : RmField → Rm4
  | .reg rm => .reg x (extend b rm)
  | .mem a => .mem a

/-- The second source of an EVEX form: X and B extend a register number, EVEX.b is the broadcast bit (R102, R104). -/
def RmField.toRm5 (x b bcst : Bool) : RmField → Rm5
  | .reg rm => .reg (BitVec.ofBool x ++ extend b rm)
  | .mem a => .mem bcst a

/-- The r/m operand is a register (ModRM.mod = 11b). -/
def RmField.isReg : RmField → Bool
  | .reg _ => true
  | .mem _ => false

/-- The verdict on a parsed instruction of `len` bytes, of which `ud` says whether a rule of R111 makes it `#UD`; the order of
the checks is log 15's. The refusal of a vector length above MAXVL is not the decoder's: it comes after this `#UD` (DEDUCED,
log 27). -/
def verdict (m : Mode) (len : Nat) (ud : Bool) (i : Instr) : Decoded :=
  if 15 < len then .refused .tooLong
  else if ud then .ud
  else if m ≠ .m64 && !i.lowRegs then .refused .m32Extension
  else .ok i

/-- LOCK is among the prefixes (R72, R111). -/
def hasLock (ps : List RawPrefix) : Bool := ps.contains .lock

/-- F2h or F3h is among the prefixes (R92, R99, R103). -/
def hasRep (ps : List RawPrefix) : Bool := ps.contains .repne || ps.contains .rep

/-- 66h is among the prefixes. -/
def hasOpSize (ps : List RawPrefix) : Bool := ps.contains (.admitted .opSize)

/-- 67h outside M64, which selects 16-bit addressing (R108, D16). -/
def addr16 (m : Mode) (ps : List RawPrefix) : Bool :=
  m ≠ .m64 && ps.contains (.admitted .addrSize)

/-- A prefix before VEX or EVEX that makes it `#UD` (R99, R103): LOCK, F2h, F3h, 66h or a REX byte. -/
def badBeforeVex (ps : List RawPrefix) (rex : Option Byte) : Bool :=
  hasLock ps || hasRep ps || hasOpSize ps || rex.isSome

/-- Form 1, from ModRM on (R91 to R93). -/
def decodeLegacy (m : Mode) (ps : List RawPrefix) (rex : Option Byte) (bs : List Byte) : Decoded :=
  if !hasOpSize ps then .refused .notInSpec
  else if hasRep ps then .refused .repPrefix
  else if addr16 m ps then .refused .addrSize16
  else
    let r := rex.getD 0
    match decodeModRM (bitAt r 1) (bitAt r 0) bs with
    | none => .refused .truncated
    | some (reg, rm, _) =>
      let o : LegacyOps := ⟨admitted ps, extend (bitAt r 2) reg, rm.toRm4 (bitAt r 1) (bitAt r 0)⟩
      verdict m (ps.length + (if rex.isSome then 1 else 0) + 3 + 1 + o.src.len) (hasLock ps)
        (if rex.isSome then .pmaxudRex (bitAt r 3) o else .pmaxud o)

/-- Forms 2 and 3, from ModRM on, with the bytes V1 and V2 and the opcode (R96 to R99). -/
def decodeVex (m : Mode) (ps : List RawPrefix) (rex : Option Byte) (v1 v2 op : Byte) (bs : List Byte) : Decoded :=
  if op ≠ 0x3F ∨ v1.extractLsb' 0 5 ≠ 2#5 ∨ v2.extractLsb' 0 2 ≠ 1#2 then .refused .notInSpec
  else if addr16 m ps then .refused .addrSize16
  else
    let x := !bitAt v1 6
    let b := !bitAt v1 5
    match decodeModRM x b bs with
    | none => .refused .truncated
    | some (reg, rm, _) =>
      let o : VexOps := ⟨admitted ps, bitAt v2 7, extend (!bitAt v1 7) reg, ~~~(v2.extractLsb' 3 4), rm.toRm4 x b⟩
      verdict m (ps.length + (if rex.isSome then 1 else 0) + 4 + 1 + o.src.len) (badBeforeVex ps rex)
        (if bitAt v2 2 then .vpmaxudVex256 o else .vpmaxudVex128 o)

/-- The EVEX row that W and L'L select (R101); L'L = 11b selects none (R111). -/
def evexRow (w : Bool) (ll : BitVec 2) (o : EvexOps) : Option Instr :=
  if ll = 0#2 then some (if w then .vpmaxuqEvex128 o else .vpmaxudEvex128 o)
  else if ll = 1#2 then some (if w then .vpmaxuqEvex256 o else .vpmaxudEvex256 o)
  else if ll = 2#2 then some (if w then .vpmaxuqEvex512 o else .vpmaxudEvex512 o)
  else none

/-- A reserved setting of an EVEX encoding (R111): P0 bits 3:2 not 00, P1 bit 2 not 1, z = 1 without a writemask, or
EVEX.b = 1 with a register source. L'L = 11b is the fifth one, `evexRow`'s `none`. -/
def evexReserved (p0 p1 p2 : Byte) (rm : RmField) : Bool :=
  p0.extractLsb' 2 2 != 0#2 || !bitAt p1 2 || (bitAt p2 7 && p2.extractLsb' 0 3 == 0#3) || (bitAt p2 4 && rm.isReg)

/-- Forms 4 to 9, from ModRM on, with the bytes P0, P1, P2 and the opcode (R100 to R104). -/
def decodeEvex (m : Mode) (ps : List RawPrefix) (rex : Option Byte) (p0 p1 p2 op : Byte) (bs : List Byte) : Decoded :=
  if op ≠ 0x3F ∨ p0.extractLsb' 0 2 ≠ 2#2 ∨ p1.extractLsb' 0 2 ≠ 1#2 then .refused .notInSpec
  else if addr16 m ps then .refused .addrSize16
  else
    let x := !bitAt p0 6
    let b := !bitAt p0 5
    match decodeModRM x b bs with
    | none => .refused .truncated
    | some (reg, rm, _) =>
      let o : EvexOps :=
        ⟨admitted ps, BitVec.ofBool (!bitAt p0 4) ++ extend (!bitAt p0 7) reg,
          BitVec.ofBool (!bitAt p2 3) ++ ~~~(p1.extractLsb' 3 4), rm.toRm5 x b (bitAt p2 4), p2.extractLsb' 0 3, bitAt p2 7⟩
      let ud := badBeforeVex ps rex || evexReserved p0 p1 p2 rm
      let len := ps.length + (if rex.isSome then 1 else 0) + 5 + 1 + o.src.len
      match evexRow (bitAt p1 7) (p2.extractLsb' 5 2) o with
      | some i => verdict m len ud i
      | none => if 15 < len then .refused .tooLong else .ud

/-- R114 step 3: the format, from the first byte after the prefixes and a REX byte. In M32, C4h and 62h announce VEX and EVEX
only when the next byte's bits 7:6 are 11b (R99, R103). -/
def decodeFormat (m : Mode) (ps : List RawPrefix) (rex : Option Byte) : List Byte → Decoded
  | [] => .refused .truncated
  | b :: bs =>
    if b = 0x0F then
      match bs with
      | b1 :: b2 :: rest => if b1 = 0x38 ∧ b2 = 0x3F then decodeLegacy m ps rex rest else .refused .notInSpec
      | [b1] => if b1 = 0x38 then .refused .truncated else .refused .notInSpec
      | [] => .refused .truncated
    else if b = 0xC4 then
      match bs with
      | [] => .refused .truncated
      | v1 :: rest =>
        if m ≠ .m64 ∧ v1.extractLsb' 6 2 ≠ 3#2 then .refused .notInSpec
        else
          match rest with
          | v2 :: op :: rest' => decodeVex m ps rex v1 v2 op rest'
          | _ => .refused .truncated
    else if b = 0x62 then
      match bs with
      | [] => .refused .truncated
      | p0 :: rest =>
        if m ≠ .m64 ∧ p0.extractLsb' 6 2 ≠ 3#2 then .refused .notInSpec
        else
          match rest with
          | p1 :: p2 :: op :: rest' => decodeEvex m ps rex p0 p1 p2 op rest'
          | _ => .refused .truncated
    else .refused .notInSpec

/-- R114: the verdict on the bytes at `pc`. -/
def decode (m : Mode) (bytes : List Byte) : Decoded :=
  if !m.covered then .refused .mode
  else
    let ps := (scanPrefixes bytes).1
    match (scanPrefixes bytes).2 with
    | [] => .refused .truncated
    | b :: bs =>
      if m = .m64 ∧ isRex b then
        match bs with
        | [] => .refused .truncated
        | b' :: _ =>
          if (rawPrefix b').isSome || isRex b' then .refused .rexPlacement else decodeFormat m ps (some b) bs
      else decodeFormat m ps none (b :: bs)

/-- The longest instruction (R90). -/
def maxLen : Nat := 15

/-- The bytes of a word of `nbits` bits, first byte least significant, with bytes of zeros after it up to the longest
instruction. -/
def tableBytes (nbits w : Nat) : List Byte :=
  (List.range maxLen).map fun i => BitVec.ofNat 8 ((w % 2 ^ nbits) / 2 ^ (8 * i))

/-- The instruction the decoder reads, in M64, from a row's word, numbered as `spec/opcode_table.json` numbers it. -/
def decodeTableWord (nbits w : Nat) : Option Instr :=
  match decode .m64 (tableBytes nbits w) with
  | .ok i => some i
  | .ud => none
  | .refused _ => none

/-! ## The encoder, from the same tables -/

/-- A prefix's byte (R92). -/
def Prefix.byte : Prefix → Byte
  | .seg .es => 0x26
  | .seg .cs => 0x2E
  | .seg .ss => 0x36
  | .seg .ds => 0x3E
  | .seg .fs => 0x64
  | .seg .gs => 0x65
  | .addrSize => 0x67
  | .opSize => 0x66

/-- Bit 3 of a register number: its extension bit. -/
def ext3 (n : BitVec 4) : Bool := n.getLsbD 3

/-- ModRM, or a SIB byte: a field of 2 bits and two of 3 (R105, R106). -/
def pack233 (a : BitVec 2) (b c : BitVec 3) : Byte := a ++ b ++ c

/-- The bytes of a displacement of 32 bits (R107, R64). -/
def le32Bytes (v : BitVec 32) : List Byte :=
  [v.extractLsb' 0 8, v.extractLsb' 8 8, v.extractLsb' 16 8, v.extractLsb' 24 8]

/-- `mod` of a form with a base (R105). -/
def Disp.mod : Disp → BitVec 2
  | .none => 0
  | .disp8 _ => 1
  | .disp32 _ => 2

/-- The bytes of a displacement. -/
def Disp.bytes : Disp → List Byte
  | .none => []
  | .disp8 v => [v]
  | .disp32 v => le32Bytes v

/-- The index-extension bit X of a memory operand. -/
def Addr.xBit : Addr → Bool
  | .base x _ _ => x
  | .sib _ i _ _ => ext3 i
  | .sibNoBase _ _ i _ => ext3 i
  | .disp32 x _ _ => x

/-- The base-extension bit B of a memory operand. -/
def Addr.bBit : Addr → Bool
  | .base _ b _ => ext3 b
  | .sib _ _ b _ => ext3 b
  | .sibNoBase b _ _ _ => b
  | .disp32 _ b _ => b

/-- ModRM, SIB and displacement of a memory operand, with the reg field (R105 to R107). -/
def Addr.bytes (reg : BitVec 3) : Addr → List Byte
  | .base _ b d => pack233 d.mod reg (low3 b) :: d.bytes
  | .sib s i b d => pack233 d.mod reg 4 :: pack233 s (low3 i) (low3 b) :: d.bytes
  | .sibNoBase _ s i d => pack233 0 reg 4 :: pack233 s (low3 i) 5 :: le32Bytes d
  | .disp32 _ _ d => pack233 0 reg 5 :: le32Bytes d

/-- X of a legacy or VEX second source. -/
def Rm4.xBit : Rm4 → Bool
  | .reg x _ => x
  | .mem a => a.xBit

/-- B of a legacy or VEX second source. -/
def Rm4.bBit : Rm4 → Bool
  | .reg _ n => ext3 n
  | .mem a => a.bBit

/-- ModRM and what follows it, legacy and VEX. -/
def Rm4.bytes (reg : BitVec 3) : Rm4 → List Byte
  | .reg _ n => [pack233 3 reg (low3 n)]
  | .mem a => a.bytes reg

/-- X of an EVEX second source: bit 4 of a register number (R102). -/
def Rm5.xBit : Rm5 → Bool
  | .reg n => n.getLsbD 4
  | .mem _ a => a.xBit

/-- B of an EVEX second source: bit 3 of a register number (R102). -/
def Rm5.bBit : Rm5 → Bool
  | .reg n => n.getLsbD 3
  | .mem _ a => a.bBit

/-- EVEX.b (R104). -/
def Rm5.bcst : Rm5 → Bool
  | .reg _ => false
  | .mem bc _ => bc

/-- ModRM and what follows it, EVEX. -/
def Rm5.bytes (reg : BitVec 3) : Rm5 → List Byte
  | .reg n => [pack233 3 reg (n.extractLsb' 0 3)]
  | .mem _ a => a.bytes reg

/-- The REX byte of form 1 (R91). -/
def rexByte (w r x b : Bool) : Byte :=
  4#4 ++ BitVec.ofBool w ++ BitVec.ofBool r ++ BitVec.ofBool x ++ BitVec.ofBool b

/-- Form 1, with the REX byte that stands before 0Fh, if any (R91). -/
def LegacyOps.encode (rex : List Byte) (o : LegacyOps) : List Byte :=
  o.prefixes.map Prefix.byte ++ rex ++ [0x0F, 0x38, 0x3F] ++ o.src.bytes (low3 o.d)

/-- V1 of a VEX form (R96, R97). -/
def VexOps.v1 (o : VexOps) : Byte :=
  BitVec.ofBool (!ext3 o.d) ++ BitVec.ofBool (!o.src.xBit) ++ BitVec.ofBool (!o.src.bBit) ++ 2#5

/-- V2 of a VEX form of length bit `l` (R96, R97). -/
def VexOps.v2 (l : Bool) (o : VexOps) : Byte :=
  BitVec.ofBool o.w ++ ~~~o.s1 ++ BitVec.ofBool l ++ 1#2

/-- Forms 2 and 3 (R90). -/
def VexOps.encode (l : Bool) (o : VexOps) : List Byte :=
  o.prefixes.map Prefix.byte ++ [0xC4, o.v1, o.v2 l, 0x3F] ++ o.src.bytes (low3 o.d)

/-- P0 of an EVEX form (R100, R101). -/
def EvexOps.p0 (o : EvexOps) : Byte :=
  BitVec.ofBool (!o.d.getLsbD 3) ++ BitVec.ofBool (!o.src.xBit) ++ BitVec.ofBool (!o.src.bBit)
    ++ BitVec.ofBool (!o.d.getLsbD 4) ++ 0#2 ++ 2#2

/-- P1 of an EVEX form (R100, R101). -/
def EvexOps.p1 (w : Bool) (o : EvexOps) : Byte :=
  BitVec.ofBool w ++ ~~~(o.s1.extractLsb' 0 4) ++ 1#1 ++ 1#2

/-- P2 of an EVEX form (R100, R104). -/
def EvexOps.p2 (ll : BitVec 2) (o : EvexOps) : Byte :=
  BitVec.ofBool o.z ++ ll ++ BitVec.ofBool o.src.bcst ++ BitVec.ofBool (!o.s1.getLsbD 4) ++ o.aaa

/-- Forms 4 to 9 (R90). -/
def EvexOps.encode (w : Bool) (ll : BitVec 2) (o : EvexOps) : List Byte :=
  o.prefixes.map Prefix.byte ++ [0x62, o.p0, o.p1 w, o.p2 ll, 0x3F] ++ o.src.bytes (o.d.extractLsb' 0 3)

/-- The bytes of a well-formed instruction, first byte first (R90). -/
def encode : Instr → List Byte
  | .pmaxud o => o.encode []
  | .pmaxudRex w o => o.encode [rexByte w (ext3 o.d) o.src.xBit o.src.bBit]
  | .vpmaxudVex128 o => o.encode false
  | .vpmaxudVex256 o => o.encode true
  | .vpmaxudEvex128 o => o.encode false 0
  | .vpmaxudEvex256 o => o.encode false 1
  | .vpmaxudEvex512 o => o.encode false 2
  | .vpmaxuqEvex128 o => o.encode true 0
  | .vpmaxuqEvex256 o => o.encode true 1
  | .vpmaxuqEvex512 o => o.encode true 2

end Sys2Proof
end

