-- ==== Sys2Proof/Machine/State.lean ====
section
/-! DEFINITION. The machine's state, plain data, its faults and refusals, and the state after reset. -/

namespace Sys2Proof.Machine

/-- The outcomes by which an instruction reports an exception (`60_exceptions.md` R191, R205): the step ends, no state is
changed, and the pc is still the faulting instruction's. The chip would go on in a handler, which the spec does not describe,
so stopping is safe. -/
inductive Fault where
  /-- Invalid Opcode, vector 6. Raised by the decoder (R111) and by every form's enable checks (R192 to R194). Safe. -/
  | ud
  /-- Device Not Available, vector 7. Raised by every form when CR0.TS = 1 (R195). Safe. -/
  | nm
  /-- Stack-Segment Fault, vector 12, error code 0. Raised by a memory operand at an illegal address through SS (R196). Safe. -/
  | ss
  /-- General Protection, vector 13, error code 0. Raised by a memory operand at an illegal address through another segment
  (R196), and by form 1 for an operand not aligned to 16 bytes (R65). Safe. -/
  | gp
  /-- Page Fault, vector 14, with its error code and the faulting linear address that CR2 records. Raised by a memory operand
  with a byte that Translate does not let be read (R196, R198). The spec gives the code no width: 32 bits is PRESUMED (log 21).
  Safe. -/
  | pf (code : BitVec 32) (cr2 : Word)
deriving DecidableEq, Repr

/-- Why a step has no meaning. Every one but `notModelled` is a refusal of the spec, and each is safe. -/
inductive Refusal where
  /-- Raised by `exec` for an instruction with no meaning yet; no arm does. Safe. -/
  | notModelled (mnemonic : String)
  /-- Raised by every form and by `step` outside M64 and M32 (`60_exceptions.md` R210). Safe. -/
  | mode
  /-- Raised by `step` when the decoder gives the bytes no meaning (`30_encoding.md` R92, R99, R103, R108, R112). Safe. -/
  | undecoded (r : DecodeRefusal)
  /-- Raised by `step` when the text ends inside an instruction: a byte of it is not plain memory, or another agent may write
  it (`20_memory.md` R74, `60_exceptions.md` R199). Safe. -/
  | text
  /-- Raised by `step` when the instruction's bytes or the next pc leave the address range (`10_state.md` R38). Safe. -/
  | pcWrap
  /-- Raised by every form whose vector length exceeds MAXVL (`00_scope.md` R11). Safe. -/
  | vlOverMaxvl
  /-- Raised by a memory operand with a byte of a device (`20_memory.md` R67). Safe. -/
  | device
deriving DecidableEq, Repr

/-- A segment register as Translate sees it (`20_memory.md` R68): its base, and for M32 the lowest and highest legal effective
address and whether its type lets it be read. Descriptor formats are out of the spec's scope. -/
structure Segment where
  base : Word
  low : BitVec 32
  high : BitVec 32
  readable : Bool
deriving DecidableEq, Repr

/-- What Translate does with a byte of a region of linear addresses (R68): gives the physical byte at the same distance from
`phys`, gives a device's, or faults with a page-fault error code (of 32 bits, log 21). -/
inductive Target where
  | ram (phys : Nat)
  | device
  | fault (code : BitVec 32)
deriving DecidableEq, Repr

/-- A region of linear addresses, `first` to `last`, and what Translate does there below privilege level 3 and at level 3. -/
structure Region where
  first : Nat
  last : Nat
  sup : Target
  usr : Target
deriving DecidableEq, Repr

/-- `ENV.Translate` as plain data (R68, log 8): the six segment registers, the current privilege level (`10_state.md` R41) and
the map of linear addresses; an address in no region is `restSup`'s or `restUsr`'s. -/
structure Translate where
  es : Segment
  cs : Segment
  ss : Segment
  ds : Segment
  fs : Segment
  gs : Segment
  cpl : BitVec 2
  regions : List Region
  restSup : Target
  restUsr : Target
deriving DecidableEq, Repr

/-- The environment record ENV (`00_scope.md` R10). No instruction writes it (R9). `shared` lists the physical ranges another
agent may write, whose bytes the read oracle answers (`20_memory.md` R70). -/
structure Env where
  mode : Mode
  maxvl : MaxVl
  kw : MaskWidth
  features : Features
  cr0 : Word
  cr4 : Word
  xcr0 : Word
  faultSuppression : Bool
  xlate : Translate
  shared : List (Nat × Nat)
deriving DecidableEq, Repr

/-- The machine's state (`10_state.md`). `tick` is the model's own counter, which the free values read (log 5). -/
structure State where
  v : Vector Vec 32
  k : Vector Word 8
  x : Vector Word 16
  pc : Word
  eflags : BitVec 32
  mxcsr : BitVec 32
  cr2 : Word
  mem : List Host.Cell
  env : Env
  tick : Nat
deriving DecidableEq, Repr

/-- PRESUMED (log 2): a segment register after reset with the base `base`. -/
def Segment.afterReset (base : Word) : Segment := ⟨base, 0, 0xFFFF, true⟩

/-- Translate after reset: paging is off (CR0 of `10_state.md` R45), so every linear byte is the physical byte of its address. -/
def Translate.afterReset : Translate where
  es := .afterReset 0
  cs := .afterReset 0xFFFF0000
  ss := .afterReset 0
  ds := .afterReset 0
  fs := .afterReset 0
  gs := .afterReset 0
  cpl := 0
  regions := []
  restSup := .ram 0
  restUsr := .ram 0

/-- ENV after reset (`10_state.md` R45, `00_scope.md` R10; log 2, log 4). -/
def Env.afterReset : Env where
  mode := .real
  maxvl := .vl512
  kw := .kw64
  features := ⟨true, true, true, true, true⟩
  cr0 := 0x60000010
  cr4 := 0
  xcr0 := 1
  faultSuppression := true
  xlate := .afterReset
  shared := []

/-- The machine after power-up or hardware reset (`10_state.md` R45; log 1 to log 6). -/
def State.reset : State where
  v := Vector.replicate 32 0
  k := Vector.replicate 8 0
  x := (Vector.replicate 16 0).set 2 Config.processorId
  pc := 0xFFF0
  eflags := 2
  mxcsr := 0x1F80
  cr2 := 0
  mem := []
  env := .afterReset
  tick := 0

end Sys2Proof.Machine
end

