-- ==== Sys2Proof/Machine/Ops.lean ====
section
/-! DEFINITION. The named operations: memory, registers, the program counter, Translate and the operand read, and raising an
exception. -/

namespace Sys2Proof.Machine

/-! ## Memory: bytes by physical address -/

/-- DESIGN CHOICE (log 6): what a byte that nothing has written reads as. -/
def Memory.unlisted : Byte := 0

/-- The canonical form: addresses rise strictly, and no entry holds what an unlisted byte reads as. -/
def Memory.wf (m : List Host.Cell) : Bool :=
  decide (m.Pairwise fun p q => p.1 < q.1) && m.all fun p => p.2 != Memory.unlisted

/-- The byte at an address. -/
def Memory.read : List Host.Cell → Nat → Byte
  | [], _ => Memory.unlisted
  | (a', b) :: m, a => if a = a' then b else Memory.read m a

/-- The memory with a byte put at an address; keeps the canonical form. -/
def Memory.write (a : Nat) (b : Byte) : List Host.Cell → List Host.Cell
  | [] => if b = Memory.unlisted then [] else [(a, b)]
  | (a', b') :: m =>
    if a < a' then (if b = Memory.unlisted then (a', b') :: m else (a, b) :: (a', b') :: m)
    else if a = a' then (if b = Memory.unlisted then m else (a, b) :: m)
    else (a', b') :: Memory.write a b m

/-- Whether another agent may write the physical byte at `a` (`20_memory.md` R70). -/
def Env.sharedAt (e : Env) (a : Nat) : Bool := e.shared.any fun r => decide (r.1 ≤ a ∧ a ≤ r.2)

/-- `oracle_read(a)` (`20_memory.md` R70) for the byte at offset `i` of an operand: the launch memory's byte, which is exact where
no other agent writes; a free value where one may (log 9). -/
def State.oracleRead (s : State) (i a : Nat) : Byte :=
  if s.env.sharedAt a then Config.oracleByte s.tick i a else Memory.read s.mem a

/-! ## Registers -/

/-- `V[n]` (`10_state.md` R30). -/
def State.readV (s : State) (n : BitVec 5) : Vec := s.v[n.toNat]'(by have := n.isLt; omega)

/-- `V[n] <- val`. -/
def State.setV (s : State) (n : BitVec 5) (val : Vec) : State :=
  { s with v := s.v.set n.toNat val (by have := n.isLt; omega) }

/-- `K[n]` (`10_state.md` R35). -/
def State.readK (s : State) (n : BitVec 3) : Word := s.k[n.toNat]'(by have := n.isLt; omega)

/-- `x[n]`, read only for an address (`10_state.md` R36). -/
def State.readX (s : State) (n : BitVec 4) : Word := s.x[n.toNat]'(by have := n.isLt; omega)

/-- The 5-bit register number of a legacy or VEX operand: registers 0 to 15 (`10_state.md` R33). -/
def vreg (n : BitVec 4) : BitVec 5 := n.setWidth 5

/-! ## The program counter -/

/-- A value kept to an address size of 32 bits or, in full, 64. -/
def keep (wide : Bool) (a : Word) : Word := if wide then a else (a.setWidth 32).setWidth 64

/-- The address of the byte `len` after the pc (`10_state.md` R37; 32 bits wide in M32). -/
def State.nextPc (s : State) (len : Nat) : Word := keep (s.env.mode == .m64) (s.pc + BitVec.ofNat 64 len)

/-- Completion of an instruction of `len` bytes: `pc <- pc + ilen` (R37). The model's counter moves on (log 5). -/
def State.retire (s : State) (len : Nat) : State := { s with pc := s.nextPc len, tick := s.tick + 1 }

/-- A canonical 64-bit address: in the lower or the upper half (R38). -/
def canonical (a : Nat) : Bool := decide (a < 2 ^ 47) || (decide (2 ^ 64 - 2 ^ 47 ≤ a) && decide (a < 2 ^ 64))

/-- R38: the `len` bytes at the pc and the next pc lie in one contiguous run: below 2^32 in M32, inside the lower or inside
the upper canonical half in M64. -/
def State.runOk (s : State) (len : Nat) : Bool :=
  match s.env.mode with
  | .m64 =>
    decide (s.pc.toNat + len < 2 ^ 47) || (decide (2 ^ 64 - 2 ^ 47 ≤ s.pc.toNat) && decide (s.pc.toNat + len < 2 ^ 64))
  | .m32 => decide (s.pc.toNat + len < 2 ^ 32)
  | .real => false
  | .v86 => false
  | .code16 => false

/-! ## Exceptions -/

/-- Taking an exception, the one way every form raises one (`60_exceptions.md` R205): the step ends with the fault, and no
state is changed. Delivery to a handler and the return from it are not described by the spec (R205, R207; log 11). -/
def takeException {α : Type} (f : Fault) : Host.Outcome α Fault Refusal := .fault f

/-- The exception's vector number (R191). -/
def Fault.vector : Fault → Nat
  | .ud => 6
  | .nm => 7
  | .ss => 12
  | .gp => 13
  | .pf _ _ => 14

/-- The exception's error code, if it has one (R191). -/
def Fault.errorCode : Fault → Option (BitVec 32)
  | .ud => none
  | .nm => none
  | .ss => some 0
  | .gp => some 0
  | .pf c _ => some c

/-- The value the exception records in CR2, if it records one (R191). -/
def Fault.recorded : Fault → Option Word
  | .ud => none
  | .nm => none
  | .ss => none
  | .gp => none
  | .pf _ a => some a

/-- Go on with the value of an outcome; a fault or a refusal ends the step. -/
def andThen {α β : Type} (r : Host.Outcome α Fault Refusal) (f : α → Host.Outcome β Fault Refusal) :
    Host.Outcome β Fault Refusal :=
  match r with
  | .next a => f a
  | .fault e => .fault e
  | .refused e => .refused e

/-! ## Translate -/

/-- A segment register by name. -/
def Translate.segment (t : Translate) : Seg → Segment
  | .es => t.es
  | .cs => t.cs
  | .ss => t.ss
  | .ds => t.ds
  | .fs => t.fs
  | .gs => t.gs

/-- The base that is added to an effective address: in M64 the bases of ES, CS, SS and DS are taken as 0 (`20_memory.md` R68). -/
def Env.segBase (e : Env) (sg : Seg) : Word :=
  match e.mode, sg with
  | .m64, .es => 0
  | .m64, .cs => 0
  | .m64, .ss => 0
  | .m64, .ds => 0
  | _, _ => (e.xlate.segment sg).base

/-- Linear addresses have 64 bits in M64, 32 otherwise (`10_state.md` R42). -/
def Env.linearSize (e : Env) : Nat := if e.mode = .m64 then 2 ^ 64 else 2 ^ 32

/-- The linear address of the byte at `ea + i` (R68). -/
def Env.linear (e : Env) (sg : Seg) (ea : Word) (i : Nat) : Nat :=
  ((e.segBase sg).toNat + ea.toNat + i) % e.linearSize

/-- R68 (b): the byte at `ea + i` passes the segment's checks: canonical in M64; in M32 within the segment's limits, in a
segment of a type that can be read. -/
def Env.segOk (e : Env) (sg : Seg) (ea : Word) (i : Nat) : Bool :=
  if e.mode = .m64 then canonical (e.linear sg ea i)
  else
    let g := e.xlate.segment sg
    g.readable && decide (g.low.toNat ≤ ea.toNat + i) && decide (ea.toNat + i ≤ g.high.toNat)

/-- The fault of an illegal address in a segment (R68): `#SS(0)` for SS, `#GP(0)` otherwise. -/
def segFault : Seg → Fault
  | .ss => .ss
  | .es => .gp
  | .cs => .gp
  | .ds => .gp
  | .fs => .gp
  | .gs => .gp

/-- What the map of linear addresses says of the byte at `a`: the first region that holds it, else the rest's. -/
def Translate.lookup (t : Translate) (a : Nat) : Target :=
  match t.regions.find? fun r => decide (r.first ≤ a ∧ a ≤ r.last) with
  | some r =>
    match (if t.cpl = 3 then r.usr else r.sup) with
    | .ram p => .ram (p + (a - r.first))
    | .device => .device
    | .fault c => .fault c
  | none =>
    match (if t.cpl = 3 then t.restUsr else t.restSup) with
    | .ram p => .ram (p + a)
    | .device => .device
    | .fault c => .fault c

/-- The page faults of the bytes at offsets `is`, each page of 4 KBytes once, with its first faulting byte (R68 (c), log 10);
`pages` are the pages already counted. -/
def Env.pageFaults (e : Env) (sg : Seg) (ea : Word) (pages : List Nat) : List Nat → List Fault
  | [] => []
  | i :: is =>
    let a := e.linear sg ea i
    match e.xlate.lookup a with
    | .fault c =>
      if pages.contains (a / 4096) then e.pageFaults sg ea pages is
      else .pf c (BitVec.ofNat 64 a) :: e.pageFaults sg ea ((a / 4096) :: pages) is
    | .ram _ => e.pageFaults sg ea pages is
    | .device => e.pageFaults sg ea pages is

/-- The memory faults that apply to the accessed bytes, at offsets `is` of the operand at `ea` (`60_exceptions.md` R196,
R199): the segment's, form 1's misalignment (`aligned`, R65), and the page faults of the bytes that pass the segment's
checks. -/
def Env.memFaults (e : Env) (sg : Seg) (ea : Word) (is : List Nat) (aligned : Bool) : List Fault :=
  (if is.all (e.segOk sg ea) then [] else [segFault sg])
    ++ (if aligned && e.linear sg ea 0 % 16 != 0 then [.gp] else [])
    ++ e.pageFaults sg ea [] (is.filter (e.segOk sg ea))

/-- One of the applicable faults, whichever (`60_exceptions.md` R199 step 4): with several, a free choice (log 10). -/
def pickFault (tick : Nat) : List Fault → Option Fault
  | [] => none
  | [f] => some f
  | f :: g :: fs => (f :: g :: fs)[Config.faultPick tick % (fs.length + 2)]?

/-- The accessed bytes can be read, or one of the faults that apply is raised, or a device refuses (R196, R67). -/
def State.checkAccess (s : State) (sg : Seg) (ea : Word) (is : List Nat) (aligned : Bool) :
    Host.Outcome Unit Fault Refusal :=
  match pickFault s.tick (s.env.memFaults sg ea is aligned) with
  | some f => takeException f
  | none => if is.any (fun i => s.env.xlate.lookup (s.env.linear sg ea i) == .device) then .refused .device else .next ()

/-- The byte at `ea + i`, once `checkAccess` has let it be read (R62); elsewhere its value reaches nothing. -/
def State.operandByte (s : State) (sg : Seg) (ea : Word) (i : Nat) : Byte :=
  match s.env.xlate.lookup (s.env.linear sg ea i) with
  | .ram a => s.oracleRead i a
  | .device => 0
  | .fault _ => 0

/-! ## The text -/

/-- Where the text byte `i` after the pc is in physical memory: within the pc's run (R38), mapped to memory that no other
agent writes (R74); else it cannot be fetched. -/
def State.textAddr (s : State) (i : Nat) : Option Nat :=
  if s.runOk i then
    match s.env.xlate.lookup (s.env.linear .cs s.pc i) with
    | .ram a => if s.env.sharedAt a then none else some a
    | .device => none
    | .fault _ => none
  else none

/-- The bytes at the pc, from byte `i` on, at most `n`, up to the first that cannot be fetched (R64, R74). -/
def State.fetchFrom (s : State) : Nat → Nat → List Byte
  | 0, _ => []
  | n + 1, i =>
    match s.textAddr i with
    | some a => Memory.read s.mem a :: s.fetchFrom n (i + 1)
    | none => []

/-- The bytes the decoder sees: at most the longest instruction's (`30_encoding.md` R90). -/
def State.fetch (s : State) : List Byte := s.fetchFrom maxLen 0

/-- The state with bytes put where the fetch reads them, from byte `i` after the pc on. -/
def State.storeText (s : State) (i : Nat) : List Byte → State
  | [] => s
  | b :: bs =>
    match s.textAddr i with
    | some a => { s.storeText (i + 1) bs with mem := Memory.write a b (s.storeText (i + 1) bs).mem }
    | none => s.storeText (i + 1) bs

/-- ENV as privileged software leaves it before a form runs (`70_reset_and_hazards.md` R232): M64, CR0.EM = CR0.TS = 0,
CR4.OSFXSR = CR4.OSXSAVE = 1, XCR0 bits 1, 2, 5, 6, 7 set. -/
def Env.launched (e : Env) : Env :=
  { e with
    mode := .m64
    cr0 := e.cr0 &&& ~~~0xC
    cr4 := e.cr4 ||| 0x40200
    xcr0 := e.xcr0 ||| 0xE6 }

/-- The launch (log 1): a machine in a mode the spec refuses, as after reset, is brought to M64 with everything enabled; a
machine already in M64 or M32 is left as it is. -/
def State.launch (s : State) : State :=
  if s.env.mode.covered then s else { s with env := s.env.launched }

/-- CR0's cache bits NW and CD (PRESUMED, log 29: the spec names them and gives no place). -/
def cacheBits : Word := 0x60000000

/-- After INIT, the last column of `10_state.md` R45 (log 29): the vector registers, opmask registers, XCR0, MXCSR and CR0's cache
bits are kept; CR4 is 0; the general registers, the pc, the CS base and the mode are as after reset. INIT is an event from outside
the machine, so no step takes it. -/
def State.afterInit (s : State) : State :=
  { State.reset with
    v := s.v
    k := s.k
    mxcsr := s.mxcsr
    mem := s.mem
    tick := s.tick
    env := { s.env with
      mode := .real
      cr0 := (0x60000010 &&& ~~~cacheBits) ||| (s.env.cr0 &&& cacheBits)
      cr4 := 0
      xlate := .afterReset } }

end Sys2Proof.Machine
end

