-- ==== Sys2Proof/Machine/Flags.lean ====
section
/-! DEFINITION. The control bits the forms test, and the checks made from them. No form reads or writes a status flag or a bit
of MXCSR (`10_state.md` R39), so there is no flag to compute. -/

namespace Sys2Proof.Machine

/-- CR0.EM, bit 2 (`10_state.md` R40). -/
def Env.em (e : Env) : Bool := e.cr0.getLsbD 2

/-- CR0.TS, bit 3 (R40). -/
def Env.ts (e : Env) : Bool := e.cr0.getLsbD 3

/-- CR4.OSFXSR, bit 9 (R40). -/
def Env.osfxsr (e : Env) : Bool := e.cr4.getLsbD 9

/-- CR4.OSXSAVE, bit 18 (R40). -/
def Env.osxsave (e : Env) : Bool := e.cr4.getLsbD 18

/-- XCR0 bits 2:1 are 11b: SSE and AVX state enabled (R40). -/
def Env.avxState (e : Env) : Bool := e.xcr0.getLsbD 1 && e.xcr0.getLsbD 2

/-- XCR0 bits 7:5 are 111b: opmask, ZMM_Hi256 and Hi16_ZMM state enabled (R40). -/
def Env.avx512State (e : Env) : Bool := e.xcr0.getLsbD 5 && e.xcr0.getLsbD 6 && e.xcr0.getLsbD 7

/-- The `#UD` conditions of form 1 that its decoded instruction leaves to test (`60_exceptions.md` R192). -/
def Env.legacyUd (e : Env) : Bool := e.em || !e.osfxsr || !e.features.sse41

/-- The `#UD` conditions of a VEX form, whose feature flag is `feature` (R193). -/
def Env.vexUd (e : Env) (feature : Bool) : Bool := !e.osxsave || !e.avxState || !feature

/-- The `#UD` conditions of an EVEX form of vector length `vl` (R194). -/
def Env.evexUd (e : Env) (vl : Nat) : Bool :=
  !e.osxsave || !e.avx512State || !e.avxState || !e.features.avx512f || (decide (vl < 512) && !e.features.avx512vl)

/-- What every form checks before its operands, in the order of `60_exceptions.md` R199: a covered mode (R210), VL at most
MAXVL (`00_scope.md` R11), no `#UD` condition `ud`, and CR0.TS = 0 (R195). That the two refusals come before `ud` is log 27's
(DEDUCED). -/
def State.guarded (s : State) (vl : Nat) (ud : Bool) (body : Host.Outcome State Fault Refusal) :
    Host.Outcome State Fault Refusal :=
  if !s.env.mode.covered then .refused .mode
  else if s.env.maxvl.bits < vl then .refused .vlOverMaxvl
  else if ud then takeException .ud
  else if s.env.ts then takeException .nm
  else body

end Sys2Proof.Machine
end

