-- ==== Sys2Proof/Machine/Operands.lean ====
section
/-! DEFINITION. Elements of vectors, the maximum, the effective address and segment of a memory operand, and reading the second
source in each of its forms. -/

namespace Sys2Proof.Machine

/-! ## Elements -/

/-- Element `j` of width `w`: bits `j*w + w - 1 : j*w` (`00_scope.md` R18). -/
def elem (w : Nat) (v : Vec) (j : Nat) : BitVec w := v.extractLsb' (j * w) w

/-- The vector whose first `kl` elements of width `w` are `f 0`, `f 1`, ..., and whose other bits are 0. -/
def pack (w : Nat) : Nat → (Nat → BitVec w) → Vec
  | 0, _ => 0
  | n + 1, f => pack w n f ||| ((f n).setWidth 512 <<< (n * w))

/-- The maximum of unsigned values (`00_scope.md` R13, R14): `if a > b then a else b`. -/
def umax {w : Nat} (a b : BitVec w) : BitVec w := if a > b then a else b

/-- The value of `old` above bit `vl - 1` and of `r` below it (`10_state.md` R32, legacy form). -/
def mergeLow (vl : Nat) (old r : Vec) : Vec := (old >>> vl <<< vl) ||| (r &&& BitVec.ofNat 512 (2 ^ vl - 1))

/-! ## The effective address -/

/-- The address size A is 64 (`30_encoding.md` R108): M64 without 67h. -/
def wideAddr (m : Mode) (ps : List Prefix) : Bool := m == .m64 && !ps.contains .addrSize

/-- The displacement D (R108, R109), a disp8 multiplied by `n`. -/
def dispValue (n : Nat) : Disp → Word
  | .none => 0
  | .disp8 v => v.signExtend 64 * BitVec.ofNat 64 n
  | .disp32 v => v.signExtend 64

/-- `idx` (R106, R108): the index register, kept to the address size and scaled; number 0100b is no index. -/
def State.indexValue (s : State) (wide : Bool) (scale : BitVec 2) (index : BitVec 4) : Word :=
  if index = 4#4 then 0 else keep wide (s.readX index) <<< scale.toNat

/-- The effective address (R108) in an instruction of `len` bytes whose disp8 factor is `n`. -/
def State.effAddr (s : State) (wide : Bool) (n len : Nat) : Addr → Word
  | .base _ b d => keep wide (keep wide (s.readX b) + dispValue n d)
  | .sib sc i b d => keep wide (keep wide (s.readX b) + s.indexValue wide sc i + dispValue n d)
  | .sibNoBase _ sc i d => keep wide (s.indexValue wide sc i + d.signExtend 64)
  | .disp32 _ _ d =>
    if s.env.mode = .m64 then keep wide (s.pc + BitVec.ofNat 64 len + d.signExtend 64) else keep wide (d.signExtend 64)

/-- The segment without an override (R110): SS for base number 4 or 5, else DS. -/
def defaultSeg : Addr → Seg
  | .base _ b _ => if b = 4#4 ∨ b = 5#4 then .ss else .ds
  | .sib _ _ b _ => if b = 4#4 ∨ b = 5#4 then .ss else .ds
  | .sibNoBase _ _ _ _ => .ds
  | .disp32 _ _ _ => .ds

/-- Whether a segment override takes effect: in M64 only those of FS and GS (R110). -/
def overrides (m : Mode) : Seg → Bool
  | .fs => true
  | .gs => true
  | .es => m != .m64
  | .cs => m != .m64
  | .ss => m != .m64
  | .ds => m != .m64

/-- The segment of a memory operand: the last override that takes effect, else `sg` (R92, R110, log 16). -/
def segOf (m : Mode) (sg : Seg) : List Prefix → Seg
  | [] => sg
  | .seg o :: ps => segOf m (if overrides m o then o else sg) ps
  | .addrSize :: ps => segOf m sg ps
  | .opSize :: ps => segOf m sg ps

/-- Segment and effective address of a memory operand of an instruction with the prefixes `ps`. -/
def State.memRef (s : State) (ps : List Prefix) (n len : Nat) (a : Addr) : Seg × Word :=
  (segOf s.env.mode (defaultSeg a) ps, s.effAddr (wideAddr s.env.mode ps) n len a)

/-! ## The second source -/

/-- The `w`-bit value in the bytes from offset `off` of the operand on, least significant byte first (`20_memory.md` R63). -/
def State.memElem (s : State) (w : Nat) (r : Seg × Word) (off : Nat) : BitVec w :=
  (pack 8 (w / 8) fun i => s.operandByte r.1 r.2 (off + i)).setWidth w

/-- The dwords of the second source of a legacy or VEX form of vector length `vl`: a register's, or those of a memory operand of
`vl / 8` bytes, which form 1 needs `aligned` (R61, R65, `30_encoding.md` R109: disp8 is not scaled). -/
def State.plainSource (s : State) (ps : List Prefix) (vl len : Nat) (aligned : Bool) :
    Rm4 → Host.Outcome (Nat → BitVec 32) Fault Refusal
  | .reg _ n => .next (elem 32 (s.readV (vreg n)))
  | .mem a =>
    let r := s.memRef ps 1 len a
    andThen (s.checkAccess r.1 r.2 (List.range (vl / 8)) aligned) fun _ => .next fun j => s.memElem 32 r (j * 4)

/-- Element `j` is updated (`42_vpmaxud_evex.md` R160): no writemask, or its bit is 1. -/
def State.active (s : State) (aaa : BitVec 3) (j : Nat) : Bool := aaa == 0#3 || (s.readK aaa).getLsbD j

/-- The offsets of the operand bytes an EVEX form accesses (`20_memory.md` R69): the bytes of the accessed elements, and of a
broadcast operand its one element if any element is accessed. Without fault suppression every element is. -/
def State.accessed (s : State) (w kl : Nat) (aaa : BitVec 3) (bcst : Bool) : List Nat :=
  let js := (List.range kl).filter fun j => s.active aaa j || !s.env.faultSuppression
  if bcst then (if js.isEmpty then [] else List.range (w / 8))
  else js.flatMap fun j => (List.range (w / 8)).map fun i => j * (w / 8) + i

/-- disp8*N for the tuple type Full (`30_encoding.md` R109): the bytes of the memory operand. -/
def dispScale (w vl : Nat) (bcst : Bool) : Nat := if bcst then w / 8 else vl / 8

/-- The elements of the second source of an EVEX form (R160, R61): a register's, a full memory operand's, or one element of
memory for every `j`. -/
def State.maskedSource (s : State) (ps : List Prefix) (w vl len : Nat) (aaa : BitVec 3) :
    Rm5 → Host.Outcome (Nat → BitVec w) Fault Refusal
  | .reg n => .next (elem w (s.readV n))
  | .mem bcst a =>
    let r := s.memRef ps (dispScale w vl bcst) len a
    andThen (s.checkAccess r.1 r.2 (s.accessed w (vl / w) aaa bcst) false) fun _ =>
      .next fun j => s.memElem w r (if bcst then 0 else j * (w / 8))

end Sys2Proof.Machine
end

