-- ==== Sys2Proof/Machine/EvexUmax.lean ====
section
/-! DEFINITION. The operation every EVEX form shares (`42_vpmaxud_evex.md` R160). -/

namespace Sys2Proof.Machine

/-- The elements of the result (R160): the maximum where an element is active; elsewhere the old element under
merging-masking, 0 under zeroing-masking. -/
def State.maskedMax (s : State) (w : Nat) (o : EvexOps) (b : Nat → BitVec w) (j : Nat) : BitVec w :=
  if s.active o.aaa j then umax (elem w (s.readV o.s1) j) (b j)
  else if o.z then 0 else elem w (s.readV o.d) j

/-- `EVEX_UMAX` (R160) for the element width `w` and the vector length `vl`. The setting z = 1 without a writemask, which the
decoder never yields, is `#UD` here too (`30_encoding.md` R111). -/
def evexUmax (w vl : Nat) (o : EvexOps) (s : State) : Host.Outcome State Fault Refusal :=
  s.guarded vl (s.env.evexUd vl || (o.z && o.aaa == 0#3)) <|
    andThen (s.maskedSource o.prefixes w vl o.len o.aaa o.src) fun b =>
      .next ((s.setV o.d (pack w (vl / w) (s.maskedMax w o b))).retire o.len)

end Sys2Proof.Machine
end

