-- ==== Sys2Proof/Machine/EvexDword.lean ====
section
/-! DEFINITION. VPMAXUD, the EVEX-encoded forms 4 to 6 (`42_vpmaxud_evex.md` R161 to R163). -/

namespace Sys2Proof.Machine

/-- VPMAXUD xmm1 {k1}{z}, xmm2, xmm3/m128/m32bcst (R161). -/
def execVpmaxudEvex128 (o : EvexOps) (s : State) : Host.Outcome State Fault Refusal := evexUmax 32 128 o s

/-- VPMAXUD ymm1 {k1}{z}, ymm2, ymm3/m256/m32bcst (R162). -/
def execVpmaxudEvex256 (o : EvexOps) (s : State) : Host.Outcome State Fault Refusal := evexUmax 32 256 o s

/-- VPMAXUD zmm1 {k1}{z}, zmm2, zmm3/m512/m32bcst (R163). -/
def execVpmaxudEvex512 (o : EvexOps) (s : State) : Host.Outcome State Fault Refusal := evexUmax 32 512 o s

end Sys2Proof.Machine
end

