-- ==== Sys2Proof/Machine/EvexQword.lean ====
section
/-! DEFINITION. VPMAXUQ, the EVEX-encoded forms 7 to 9 (`43_vpmaxuq_evex.md` R175 to R178). -/

namespace Sys2Proof.Machine

/-- VPMAXUQ xmm1 {k1}{z}, xmm2, xmm3/m128/m64bcst (R176). -/
def execVpmaxuqEvex128 (o : EvexOps) (s : State) : Host.Outcome State Fault Refusal := evexUmax 64 128 o s

/-- VPMAXUQ ymm1 {k1}{z}, ymm2, ymm3/m256/m64bcst (R177). -/
def execVpmaxuqEvex256 (o : EvexOps) (s : State) : Host.Outcome State Fault Refusal := evexUmax 64 256 o s

/-- VPMAXUQ zmm1 {k1}{z}, zmm2, zmm3/m512/m64bcst (R178). -/
def execVpmaxuqEvex512 (o : EvexOps) (s : State) : Host.Outcome State Fault Refusal := evexUmax 64 512 o s

end Sys2Proof.Machine
end

