-- ==== Sys2Proof/Machine/Legacy.lean ====
section
/-! DEFINITION. PMAXUD, the 128-bit legacy SSE form: form 1, in its two rows without and with a REX byte
(`40_pmaxud_legacy_sse.md` R140). -/

namespace Sys2Proof.Machine

/-- R140, in an instruction of `len` bytes: bits 127:0 of `V[d]` become the element-wise maximum, the bits above are kept. -/
def legacyUmax (len : Nat) (o : LegacyOps) (s : State) : Host.Outcome State Fault Refusal :=
  s.guarded 128 s.env.legacyUd <|
    andThen (s.plainSource o.prefixes 128 len true o.src) fun b =>
      let old := s.readV (vreg o.d)
      .next ((s.setV (vreg o.d) (mergeLow 128 old (pack 32 4 fun j => umax (elem 32 old j) (b j)))).retire len)

/-- PMAXUD xmm1, xmm2/m128 (R140), encoded without REX. -/
def execPmaxud (o : LegacyOps) (s : State) : Host.Outcome State Fault Refusal :=
  legacyUmax (o.len false) o s

/-- PMAXUD xmm1, xmm2/m128 (R140), encoded with REX, whose bit W is ignored (`30_encoding.md` R91). -/
def execPmaxudRex (_w : Bool) (o : LegacyOps) (s : State) : Host.Outcome State Fault Refusal :=
  legacyUmax (o.len true) o s

end Sys2Proof.Machine
end

