-- ==== Sys2Proof/Machine/Vex.lean ====
section
/-! DEFINITION. VPMAXUD, the VEX-encoded forms 2 and 3 (`41_vpmaxud_vex.md` R150, R151). -/

namespace Sys2Proof.Machine

/-- R150 and R151 for the vector length `vl`, with the feature flag the form needs: `V[d]` becomes the element-wise maximum,
zero above bit `vl - 1`. -/
def vexUmax (vl : Nat) (feature : Bool) (o : VexOps) (s : State) : Host.Outcome State Fault Refusal :=
  s.guarded vl (s.env.vexUd feature) <|
    andThen (s.plainSource o.prefixes vl o.len false o.src) fun b =>
      let a := s.readV (vreg o.s1)
      .next ((s.setV (vreg o.d) (pack 32 (vl / 32) fun j => umax (elem 32 a j) (b j))).retire o.len)

/-- VPMAXUD xmm1, xmm2, xmm3/m128, VEX.128 (R150): needs AVX. -/
def execVpmaxudVex128 (o : VexOps) (s : State) : Host.Outcome State Fault Refusal :=
  vexUmax 128 s.env.features.avx o s

/-- VPMAXUD ymm1, ymm2, ymm3/m256, VEX.256 (R151): needs AVX2, and no AVX beside it: `60_exceptions.md` R193 names AVX2 alone,
while `70_reset_and_hazards.md` R232 has software check AVX too (DEDUCED, log 28). -/
def execVpmaxudVex256 (o : VexOps) (s : State) : Host.Outcome State Fault Refusal :=
  vexUmax 256 s.env.features.avx2 o s

end Sys2Proof.Machine
end

