-- ==== Sys2Proof/Machine/Dispatch.lean ====
section
/-! DEFINITION. One arm per constructor of `Instr`: a direct call of its meaning. -/

namespace Sys2Proof.Machine

def exec (i : Instr) (s : State) : Host.Outcome State Fault Refusal :=
  match i with
  | .pmaxud o => Sys2Proof.Machine.execPmaxud o s
  | .pmaxudRex w o => Sys2Proof.Machine.execPmaxudRex w o s
  | .vpmaxudVex128 o => Sys2Proof.Machine.execVpmaxudVex128 o s
  | .vpmaxudVex256 o => Sys2Proof.Machine.execVpmaxudVex256 o s
  | .vpmaxudEvex128 o => Sys2Proof.Machine.execVpmaxudEvex128 o s
  | .vpmaxudEvex256 o => Sys2Proof.Machine.execVpmaxudEvex256 o s
  | .vpmaxudEvex512 o => Sys2Proof.Machine.execVpmaxudEvex512 o s
  | .vpmaxuqEvex128 o => Sys2Proof.Machine.execVpmaxuqEvex128 o s
  | .vpmaxuqEvex256 o => Sys2Proof.Machine.execVpmaxuqEvex256 o s
  | .vpmaxuqEvex512 o => Sys2Proof.Machine.execVpmaxuqEvex512 o s

end Sys2Proof.Machine
end

