-- ==== Sys2Proof/Machine/Step.lean ====
section
/-! DEFINITION. One step: fetch at the pc, decode, execute (`00_scope.md` R8, `60_exceptions.md` R199). -/

namespace Sys2Proof.Machine

/-- One step. An instruction whose bytes or next pc leave the address range is refused (`10_state.md` R38),
before its own checks, and an encoding that is `#UD` is `#UD` without this refusal (DEDUCED, log 25); a text that ends
inside an instruction is refused as too long if it is as long as the longest instruction (`30_encoding.md` R90), and
otherwise because it cannot be fetched further. The decoder's `#UD` comes before the refusal of a vector length above MAXVL,
which `exec` makes (DEDUCED, log 27: the spec orders neither). -/
def step (s : State) : Host.Outcome State Fault Refusal :=
  if !s.env.mode.covered then .refused .mode
  else
    match decode s.env.mode s.fetch with
    | .ok i => if s.runOk i.ilen then exec i s else .refused .pcWrap
    | .ud => takeException .ud
    | .refused .truncated =>
      if s.fetch.length < maxLen then .refused .text else .refused (.undecoded .tooLong)
    | .refused r => .refused (.undecoded r)

/-- The machine with the program's first instruction loaded at the pc (log 1): launched, if it was in a mode the spec refuses,
and the bytes of the word, with zeros up to the longest instruction, put where the fetch reads them. -/
def State.withFetchWord (s : State) (nbits w : Nat) : State := s.launch.storeText 0 (tableBytes nbits w)

end Sys2Proof.Machine
end

