-- ==== Sys2Proof/Machine/Invariant.lean ====
section
/-! DEFINITION. What every state of a run keeps: `State.wf`. -/

namespace Sys2Proof.Machine

/-- The pc is an address of its mode: canonical in M64, 32 bits wide in M32 (`10_state.md` R37, R38). -/
def State.pcOk (s : State) : Bool :=
  match s.env.mode with
  | .m64 => canonical s.pc.toNat
  | .m32 => decide (s.pc.toNat < 2 ^ 32)
  | .real => true
  | .v86 => true
  | .code16 => true

/-- Every bit of a register from bit `n` on is 0: the bits beyond MAXVL or KW do not exist (log 13). -/
def zeroAbove {w : Nat} (n : Nat) (v : BitVec w) : Bool := v >>> n == 0#w

/-- A page-fault error code of a data read: its write bit (1) and its instruction-fetch bit (4) are clear
(`60_exceptions.md` R198). -/
def Target.codeOk : Target → Bool
  | .ram _ => true
  | .device => true
  | .fault c => !c.getLsbD 1 && !c.getLsbD 4

/-- Every error code of Translate is one of a data read. -/
def Translate.codesOk (t : Translate) : Bool :=
  t.regions.all (fun r => r.sup.codeOk && r.usr.codeOk) && t.restSup.codeOk && t.restUsr.codeOk

/-- The invariant: memory in canonical form, no register bit set beyond MAXVL or KW, the pc an address of its mode, and every
error code of Translate one of a data read. -/
def State.wf (s : State) : Bool :=
  Memory.wf s.mem
    && s.v.toList.all (zeroAbove s.env.maxvl.bits)
    && s.k.toList.all (zeroAbove s.env.kw.bits)
    && s.pcOk
    && s.env.xlate.codesOk

end Sys2Proof.Machine
end

