-- ==== Sys2Proof/Machine/Describe.lean ====
section
/-! DEFINITION. What statements name of an instruction: its destination, its vector length, its second source, and the `#UD`
conditions its enable checks test. No meaning calls these. -/

namespace Sys2Proof

/-- The destination register `d` (`30_encoding.md` R93, R98, R102). -/
def Instr.dest : Instr → BitVec 5
  | .pmaxud o => o.d.setWidth 5
  | .pmaxudRex _ o => o.d.setWidth 5
  | .vpmaxudVex128 o => o.d.setWidth 5
  | .vpmaxudVex256 o => o.d.setWidth 5
  | .vpmaxudEvex128 o => o.d
  | .vpmaxudEvex256 o => o.d
  | .vpmaxudEvex512 o => o.d
  | .vpmaxuqEvex128 o => o.d
  | .vpmaxuqEvex256 o => o.d
  | .vpmaxuqEvex512 o => o.d

/-- The vector length VL (`00_scope.md` R16). -/
def Instr.vl : Instr → Nat
  | .pmaxud _ => 128
  | .pmaxudRex _ _ => 128
  | .vpmaxudVex128 _ => 128
  | .vpmaxudVex256 _ => 256
  | .vpmaxudEvex128 _ => 128
  | .vpmaxudEvex256 _ => 256
  | .vpmaxudEvex512 _ => 512
  | .vpmaxuqEvex128 _ => 128
  | .vpmaxuqEvex256 _ => 256
  | .vpmaxuqEvex512 _ => 512

/-- The instruction is form 1, the legacy SSE form. -/
def Instr.legacy : Instr → Bool
  | .pmaxud _ => true
  | .pmaxudRex _ _ => true
  | .vpmaxudVex128 _ => false
  | .vpmaxudVex256 _ => false
  | .vpmaxudEvex128 _ => false
  | .vpmaxudEvex256 _ => false
  | .vpmaxudEvex512 _ => false
  | .vpmaxuqEvex128 _ => false
  | .vpmaxuqEvex256 _ => false
  | .vpmaxuqEvex512 _ => false

/-- The second source is a register (legacy, VEX). -/
def Rm4.isReg : Rm4 → Bool
  | .reg _ _ => true
  | .mem _ => false

/-- The second source is a register (EVEX). -/
def Rm5.isReg : Rm5 → Bool
  | .reg _ => true
  | .mem _ _ => false

/-- The second source is a register: ModRM.mod = 11b (`30_encoding.md` R105). -/
def Instr.regSource : Instr → Bool
  | .pmaxud o => o.src.isReg
  | .pmaxudRex _ o => o.src.isReg
  | .vpmaxudVex128 o => o.src.isReg
  | .vpmaxudVex256 o => o.src.isReg
  | .vpmaxudEvex128 o => o.src.isReg
  | .vpmaxudEvex256 o => o.src.isReg
  | .vpmaxudEvex512 o => o.src.isReg
  | .vpmaxuqEvex128 o => o.src.isReg
  | .vpmaxuqEvex256 o => o.src.isReg
  | .vpmaxuqEvex512 o => o.src.isReg

end Sys2Proof

namespace Sys2Proof.Machine

/-- A `#UD` condition of a decoded instruction holds (`60_exceptions.md` R192 to R194). -/
def State.udFor (s : State) : Instr → Bool
  | .pmaxud _ => s.env.legacyUd
  | .pmaxudRex _ _ => s.env.legacyUd
  | .vpmaxudVex128 _ => s.env.vexUd s.env.features.avx
  | .vpmaxudVex256 _ => s.env.vexUd s.env.features.avx2
  | .vpmaxudEvex128 o => s.env.evexUd 128 || (o.z && o.aaa == 0#3)
  | .vpmaxudEvex256 o => s.env.evexUd 256 || (o.z && o.aaa == 0#3)
  | .vpmaxudEvex512 o => s.env.evexUd 512 || (o.z && o.aaa == 0#3)
  | .vpmaxuqEvex128 o => s.env.evexUd 128 || (o.z && o.aaa == 0#3)
  | .vpmaxuqEvex256 o => s.env.evexUd 256 || (o.z && o.aaa == 0#3)
  | .vpmaxuqEvex512 o => s.env.evexUd 512 || (o.z && o.aaa == 0#3)

/-- A memory operand as an instruction of a state accesses it: its segment and effective address, the offsets of the bytes
accessed, and whether it must be aligned to 16 bytes. -/
structure MemAccess where
  seg : Seg
  ea : Word
  offs : List Nat
  aligned : Bool
deriving DecidableEq, Repr

/-- The access of a legacy or VEX form of vector length `vl` (`20_memory.md` R61, R65). -/
def State.plainAccess (s : State) (ps : List Prefix) (vl len : Nat) (aligned : Bool) : Rm4 → Option MemAccess
  | .reg _ _ => none
  | .mem a => some ⟨(s.memRef ps 1 len a).1, (s.memRef ps 1 len a).2, List.range (vl / 8), aligned⟩

/-- The access of an EVEX form of element width `w` and vector length `vl` (R61, R69). -/
def State.maskedAccess (s : State) (w vl : Nat) (o : EvexOps) : Option MemAccess :=
  match o.src with
  | .reg _ => none
  | .mem bcst a =>
    some ⟨(s.memRef o.prefixes (dispScale w vl bcst) o.len a).1, (s.memRef o.prefixes (dispScale w vl bcst) o.len a).2,
      s.accessed w (vl / w) o.aaa bcst, false⟩

/-- The memory access of an instruction, if its second source is memory. -/
def State.access (s : State) : Instr → Option MemAccess
  | .pmaxud o => s.plainAccess o.prefixes 128 (o.len false) true o.src
  | .pmaxudRex _ o => s.plainAccess o.prefixes 128 (o.len true) true o.src
  | .vpmaxudVex128 o => s.plainAccess o.prefixes 128 o.len false o.src
  | .vpmaxudVex256 o => s.plainAccess o.prefixes 256 o.len false o.src
  | .vpmaxudEvex128 o => s.maskedAccess 32 128 o
  | .vpmaxudEvex256 o => s.maskedAccess 32 256 o
  | .vpmaxudEvex512 o => s.maskedAccess 32 512 o
  | .vpmaxuqEvex128 o => s.maskedAccess 64 128 o
  | .vpmaxuqEvex256 o => s.maskedAccess 64 256 o
  | .vpmaxuqEvex512 o => s.maskedAccess 64 512 o

/-- The access meets no fault and no device: every byte passes the segment's checks and is memory, and the operand is aligned
if it must be. -/
def State.readable (s : State) (m : MemAccess) : Prop :=
  (∀ i ∈ m.offs, s.env.segOk m.seg m.ea i = true ∧ ∃ a, s.env.xlate.lookup (s.env.linear m.seg m.ea i) = .ram a)
    ∧ (m.aligned = true → s.env.linear m.seg m.ea 0 % 16 = 0)

end Sys2Proof.Machine
end

