-- ==== Sys2Proof/Safety.lean ====
section
/-! DEFINITION. Runs and their ends (`00_scope.md` R20). -/

namespace Sys2Proof.Machine

/-- How a run of at most `n` steps stands: final (the pc is the address just past the text), ended by a fault or a refusal in
the state given, or not ended yet. A faulted run is never final (`60_exceptions.md` R205). -/
inductive RunEnd where
  | final (s : State)
  | faulted (f : Fault) (s : State)
  | refused (r : Refusal) (s : State)
  | unfinished (s : State)
deriving DecidableEq, Repr

/-- The run from `s` of a text that ends just before the address `stop`. -/
def run (stop : Word) : Nat → State → RunEnd
  | 0, s => if s.pc = stop then .final s else .unfinished s
  | n + 1, s =>
    if s.pc = stop then .final s
    else
      match step s with
      | .next t => run stop n t
      | .fault f => .faulted f s
      | .refused r => .refused r s

/-- A safe run: it neither faults nor is refused. -/
def SafeRun (stop : Word) (n : Nat) (s : State) : Prop :=
  (∃ t, run stop n s = .final t) ∨ (∃ t, run stop n s = .unfinished t)

end Sys2Proof.Machine
end

