-- ==== Sys2Proof/Certificates/Slice0/Obligations.lean ====
section
/-! DEFINITION. The statements about the model, for the provers, after the vocabulary they share. `OBLIGATIONS.json` lists them. -/

namespace Sys2Proof.Claims

open Sys2Proof.Machine

/-! ## Vocabulary -/

/-- The machine is in one of the two modes the spec covers (`60_exceptions.md` R210). -/
def Covered (s : State) : Prop := s.env.mode = .m64 ∨ s.env.mode = .m32

/-- `umax` as the spec writes it, on the numbers (`00_scope.md` R13, R14): `if a > b then a else b`. -/
def maxOf {w : Nat} (a b : BitVec w) : BitVec w := if b.toNat < a.toNat then a else b

/-- `e` is the `w`-bit value in the bytes `f off`, `f (off + 1)`, ...: byte `i` holds bits `8i+7 : 8i` (`20_memory.md` R63). -/
def LittleEndian (w : Nat) (f : Nat → Byte) (off : Nat) (e : BitVec w) : Prop :=
  ∀ k, k < w → e.getLsbD k = (f (off + k / 8)).getLsbD (k % 8)

/-- The byte at `ea + i` can be read: it passes the segment's checks and Translate maps it to memory. -/
def ByteReadable (s : State) (sg : Seg) (ea : Word) (i : Nat) : Prop :=
  s.env.segOk sg ea i = true ∧ ∃ a, s.env.xlate.lookup (s.env.linear sg ea i) = .ram a

/-- Element `j` is active: there is no writemask, or its bit is 1 (`42_vpmaxud_evex.md` R160). -/
def Active (s : State) (aaa : BitVec 3) (j : Nat) : Prop := aaa = 0#3 ∨ (s.readK aaa).getLsbD j = true

/-- Form 1 executes (`70_reset_and_hazards.md` R232): mode, CR0.EM = 0, CR0.TS = 0, CR4.OSFXSR = 1, SSE4_1. -/
def LegacyReady (s : State) : Prop :=
  Covered s ∧ s.env.cr0.getLsbD 2 = false ∧ s.env.cr0.getLsbD 3 = false ∧ s.env.cr4.getLsbD 9 = true
    ∧ s.env.features.sse41 = true

/-- A VEX form of vector length `vl` with the feature flag `feature` executes (`60_exceptions.md` R193, R195, R210, `00_scope.md`
R11). For VEX.256 the flag is AVX2 alone, as R193 says, with no AVX beside it (DEDUCED, log 28). -/
def VexReady (s : State) (vl : Nat) (feature : Bool) : Prop :=
  Covered s ∧ vl ≤ s.env.maxvl.bits ∧ s.env.cr0.getLsbD 3 = false ∧ s.env.cr4.getLsbD 18 = true
    ∧ s.env.xcr0.getLsbD 1 = true ∧ s.env.xcr0.getLsbD 2 = true ∧ feature = true

/-- An EVEX form of vector length `vl` executes (R232, `00_scope.md` R11), its z and writemask being no reserved setting
(`30_encoding.md` R111). -/
def EvexReady (s : State) (vl : Nat) (o : EvexOps) : Prop :=
  Covered s ∧ vl ≤ s.env.maxvl.bits ∧ s.env.cr0.getLsbD 3 = false ∧ s.env.cr4.getLsbD 18 = true
    ∧ s.env.xcr0.getLsbD 1 = true ∧ s.env.xcr0.getLsbD 2 = true ∧ s.env.xcr0.getLsbD 5 = true
    ∧ s.env.xcr0.getLsbD 6 = true ∧ s.env.xcr0.getLsbD 7 = true ∧ s.env.features.avx512f = true
    ∧ (vl < 512 → s.env.features.avx512vl = true) ∧ (o.z = true → o.aaa ≠ 0#3)

/-- An outcome with its next state, if it has one, changed by `g`. -/
def mapNext (g : State → State) : Host.Outcome State Fault Refusal → Host.Outcome State Fault Refusal
  | .next t => .next (g t)
  | .fault f => .fault f
  | .refused r => .refused r

/-- The frame: from `s` to `t` only the register `d` may change; the pc goes on by `len` (`10_state.md` R37); every other
vector register, opmask and general register, EFLAGS, MXCSR, CR2, every byte of memory and ENV stay. -/
def OnlyWrites (s t : State) (d : BitVec 5) (len : Nat) : Prop :=
  (s.env.mode = .m64 → t.pc.toNat = (s.pc.toNat + len) % 2 ^ 64)
    ∧ (s.env.mode = .m32 → t.pc.toNat = (s.pc.toNat + len) % 2 ^ 32)
    ∧ (∀ n, n ≠ d → t.readV n = s.readV n) ∧ t.k = s.k ∧ t.x = s.x ∧ t.eflags = s.eflags ∧ t.mxcsr = s.mxcsr
    ∧ t.cr2 = s.cr2 ∧ (∀ a, Memory.read t.mem a = Memory.read s.mem a) ∧ t.env = s.env

/-- Form 1 has been executed on the second source whose dword `j` satisfies `b j`: R140. -/
def LegacyResult (s t : State) (d : BitVec 5) (b : Nat → BitVec 32 → Prop) : Prop :=
  (∀ j, j < 4 → ∃ e, b j e ∧ elem 32 (t.readV d) j = maxOf (elem 32 (s.readV d) j) e)
    ∧ ∀ k, 128 ≤ k → (t.readV d).getLsbD k = (s.readV d).getLsbD k

/-- A VEX form of vector length `vl` has been executed: R150, R151. -/
def VexResult (vl : Nat) (s t : State) (d s1 : BitVec 5) (b : Nat → BitVec 32 → Prop) : Prop :=
  (∀ j, j < vl / 32 → ∃ e, b j e ∧ elem 32 (t.readV d) j = maxOf (elem 32 (s.readV s1) j) e)
    ∧ ∀ k, vl ≤ k → (t.readV d).getLsbD k = false

/-- An EVEX form of element width `w` and vector length `vl` has been executed: R160. Active elements hold the maximum,
masked-off ones the old element or 0, and the bits above `vl` are 0. -/
def EvexResult (w vl : Nat) (s t : State) (o : EvexOps) (b : Nat → BitVec w → Prop) : Prop :=
  (∀ j, j < vl / w →
      (Active s o.aaa j → ∃ e, b j e ∧ elem w (t.readV o.d) j = maxOf (elem w (s.readV o.s1) j) e)
      ∧ (¬ Active s o.aaa j → o.z = false → elem w (t.readV o.d) j = elem w (s.readV o.d) j)
      ∧ (¬ Active s o.aaa j → o.z = true → elem w (t.readV o.d) j = 0))
    ∧ ∀ k, vl ≤ k → (t.readV o.d).getLsbD k = false

/-- The second source's elements are those of the register `n`. -/
def FromRegister (w : Nat) (s : State) (n : BitVec 5) (j : Nat) (e : BitVec w) : Prop := e = elem w (s.readV n) j

/-- The second source's elements are those of the memory operand at `ea`, element `j` at `ea + j*w/8`. -/
def FromMemory (w : Nat) (s : State) (sg : Seg) (ea : Word) (j : Nat) (e : BitVec w) : Prop :=
  LittleEndian w (s.operandByte sg ea) (j * (w / 8)) e

/-- Every element of the second source is the one value at `ea`. -/
def FromBroadcast (w : Nat) (s : State) (sg : Seg) (ea : Word) (_j : Nat) (e : BitVec w) : Prop :=
  LittleEndian w (s.operandByte sg ea) 0 e

/-- A row of form 1 with a register source completes with its result. -/
def LegacyRegisterForm (mk : LegacyOps → Instr) : Prop :=
  ∀ o s x n, o.src = .reg x n → LegacyReady s →
    ∃ t, exec (mk o) s = .next t
      ∧ LegacyResult s t (o.d.setWidth 5) (FromRegister 32 s (n.setWidth 5)) ∧ OnlyWrites s t (o.d.setWidth 5) (mk o).ilen

/-- A row of form 1 with a readable memory source on a 16-byte boundary completes with its result. -/
def LegacyMemoryForm (mk : LegacyOps → Instr) : Prop :=
  ∀ o s a sg ea, o.src = .mem a → LegacyReady s → s.memRef o.prefixes 1 (mk o).ilen a = (sg, ea) →
    (∀ i, i < 16 → ByteReadable s sg ea i) → s.env.linear sg ea 0 % 16 = 0 →
    ∃ t, exec (mk o) s = .next t
      ∧ LegacyResult s t (o.d.setWidth 5) (FromMemory 32 s sg ea) ∧ OnlyWrites s t (o.d.setWidth 5) (mk o).ilen

/-- A VEX form with a register source completes with its result. -/
def VexRegisterForm (vl : Nat) (feature : Features → Bool) (mk : VexOps → Instr) : Prop :=
  ∀ o s x n, o.src = .reg x n → VexReady s vl (feature s.env.features) →
    ∃ t, exec (mk o) s = .next t
      ∧ VexResult vl s t (o.d.setWidth 5) (o.s1.setWidth 5) (FromRegister 32 s (n.setWidth 5))
      ∧ OnlyWrites s t (o.d.setWidth 5) (mk o).ilen

/-- A VEX form with a readable memory source, at any alignment, completes with its result. -/
def VexMemoryForm (vl : Nat) (feature : Features → Bool) (mk : VexOps → Instr) : Prop :=
  ∀ o s a sg ea, o.src = .mem a → VexReady s vl (feature s.env.features) →
    s.memRef o.prefixes 1 (mk o).ilen a = (sg, ea) → (∀ i, i < vl / 8 → ByteReadable s sg ea i) →
    ∃ t, exec (mk o) s = .next t
      ∧ VexResult vl s t (o.d.setWidth 5) (o.s1.setWidth 5) (FromMemory 32 s sg ea)
      ∧ OnlyWrites s t (o.d.setWidth 5) (mk o).ilen

/-- An EVEX form with a register source completes with its result. -/
def EvexRegisterForm (w vl : Nat) (mk : EvexOps → Instr) : Prop :=
  ∀ o s n, o.src = .reg n → EvexReady s vl o →
    ∃ t, exec (mk o) s = .next t ∧ EvexResult w vl s t o (FromRegister w s n) ∧ OnlyWrites s t o.d (mk o).ilen

/-- An EVEX form with a full memory operand, whose accessed elements are readable, completes with its result at any alignment.
disp8 is scaled by the operand's size (`30_encoding.md` R109). -/
def EvexMemoryForm (w vl : Nat) (mk : EvexOps → Instr) : Prop :=
  ∀ o s a sg ea, o.src = .mem false a → EvexReady s vl o → s.memRef o.prefixes (vl / 8) (mk o).ilen a = (sg, ea) →
    (∀ j, j < vl / w → Active s o.aaa j ∨ s.env.faultSuppression = false →
      ∀ i, i < w / 8 → ByteReadable s sg ea (j * (w / 8) + i)) →
    ∃ t, exec (mk o) s = .next t ∧ EvexResult w vl s t o (FromMemory w s sg ea) ∧ OnlyWrites s t o.d (mk o).ilen

/-- An EVEX form with a broadcast operand, readable if any element is accessed, completes with its result at any alignment.
disp8 is scaled by the element's size (R109). -/
def EvexBroadcastForm (w vl : Nat) (mk : EvexOps → Instr) : Prop :=
  ∀ o s a sg ea, o.src = .mem true a → EvexReady s vl o → s.memRef o.prefixes (w / 8) (mk o).ilen a = (sg, ea) →
    ((∃ j, j < vl / w ∧ Active s o.aaa j) ∨ s.env.faultSuppression = false → ∀ i, i < w / 8 → ByteReadable s sg ea i) →
    ∃ t, exec (mk o) s = .next t ∧ EvexResult w vl s t o (FromBroadcast w s sg ea) ∧ OnlyWrites s t o.d (mk o).ilen

/-- An EVEX form on a memory operand under a writemask with no active element, with fault suppression, completes whatever the
operand's address is: the low bits stay under merging-masking and become 0 under zeroing-masking, and the bits above `vl`
become 0. -/
def EmptyMaskForm (w vl : Nat) (mk : EvexOps → Instr) : Prop :=
  ∀ o s bcst a, o.src = .mem bcst a → EvexReady s vl o → s.env.faultSuppression = true →
    (∀ j, j < vl / w → ¬ Active s o.aaa j) →
    ∃ t, exec (mk o) s = .next t ∧ OnlyWrites s t o.d (mk o).ilen
      ∧ ∀ k, (t.readV o.d).getLsbD k = (decide (k < vl) && !o.z && (s.readV o.d).getLsbD k)

/-- An EVEX form without fault suppression reads the whole operand: it does not complete if any byte of a full operand cannot be
read. -/
def UnsuppressedForm (vl : Nat) (mk : EvexOps → Instr) : Prop :=
  ∀ o s a sg ea, o.src = .mem false a → EvexReady s vl o → s.env.faultSuppression = false →
    s.memRef o.prefixes (vl / 8) (mk o).ilen a = (sg, ea) → (∃ i, i < vl / 8 ∧ ¬ ByteReadable s sg ea i) →
    (∃ f, exec (mk o) s = .fault f) ∨ exec (mk o) s = .refused .device

/-- An EVEX form without fault suppression reads its broadcast operand whatever the writemask: it does not complete if any byte of
it cannot be read. -/
def UnsuppressedBroadcastForm (w vl : Nat) (mk : EvexOps → Instr) : Prop :=
  ∀ o s a sg ea, o.src = .mem true a → EvexReady s vl o → s.env.faultSuppression = false →
    s.memRef o.prefixes (w / 8) (mk o).ilen a = (sg, ea) → (∃ i, i < w / 8 ∧ ¬ ByteReadable s sg ea i) →
    (∃ f, exec (mk o) s = .fault f) ∨ exec (mk o) s = .refused .device

/-- An EVEX form of `kl` elements reads only bits `kl - 1 : 0` of its writemask: with opmask registers that agree on them the
outcome, a next state, a fault or a refusal, is the same but for those registers. -/
def HighMaskBitsForm (kl : Nat) (mk : EvexOps → Instr) : Prop :=
  ∀ o (s : State) (k' : Vector Word 8),
    (∀ j, j < kl → ({ s with k := k' } : State).active o.aaa j = s.active o.aaa j) →
    exec (mk o) { s with k := k' } = mapNext (fun t => { t with k := k' }) (exec (mk o) s)

/-- The `#UD` conditions of an EVEX form, exactly (`60_exceptions.md` R194). -/
def EvexUdForm (vl : Nat) (mk : EvexOps → Instr) : Prop :=
  ∀ o s, Covered s → vl ≤ s.env.maxvl.bits →
    (exec (mk o) s = .fault .ud ↔
      s.env.cr4.getLsbD 18 = false
        ∨ ¬ (s.env.xcr0.getLsbD 5 = true ∧ s.env.xcr0.getLsbD 6 = true ∧ s.env.xcr0.getLsbD 7 = true)
        ∨ ¬ (s.env.xcr0.getLsbD 1 = true ∧ s.env.xcr0.getLsbD 2 = true)
        ∨ s.env.features.avx512f = false ∨ (vl < 512 ∧ s.env.features.avx512vl = false)
        ∨ (o.z = true ∧ o.aaa = 0#3))

/-- The `#UD` conditions of a VEX form, exactly (`60_exceptions.md` R193). -/
def VexUdForm (vl : Nat) (feature : Features → Bool) (mk : VexOps → Instr) : Prop :=
  ∀ o s, Covered s → vl ≤ s.env.maxvl.bits →
    (exec (mk o) s = .fault .ud ↔
      s.env.cr4.getLsbD 18 = false ∨ ¬ (s.env.xcr0.getLsbD 1 = true ∧ s.env.xcr0.getLsbD 2 = true)
        ∨ feature s.env.features = false)

/-- The `#UD` conditions of a row of form 1, exactly (`60_exceptions.md` R192). -/
def LegacyUdForm (mk : LegacyOps → Instr) : Prop :=
  ∀ o s, Covered s →
    (exec (mk o) s = .fault .ud ↔
      s.env.cr0.getLsbD 2 = true ∨ s.env.cr4.getLsbD 9 = false ∨ s.env.features.sse41 = false)

/-- A row of form 1 on a readable memory operand that is not on a 16-byte boundary raises `#GP(0)`. -/
def MisalignedForm (mk : LegacyOps → Instr) : Prop :=
  ∀ o s a sg ea, o.src = .mem a → LegacyReady s → s.memRef o.prefixes 1 (mk o).ilen a = (sg, ea) →
    (∀ i, i < 16 → ByteReadable s sg ea i) → s.env.linear sg ea 0 % 16 ≠ 0 → exec (mk o) s = .fault .gp

/-- An unmasked EVEX form of VL `vl` on registers gives every register the value the VEX form of the same text gives it. -/
def VexAgreesForm (vl : Nat) (feature : Features → Bool) (mkV : VexOps → Instr) (mkE : EvexOps → Instr) : Prop :=
  ∀ (o : VexOps) (o' : EvexOps) x n s, o.src = .reg x n → o'.src = .reg (n.setWidth 5) → o'.d = o.d.setWidth 5 →
    o'.s1 = o.s1.setWidth 5 → o'.aaa = 0#3 → VexReady s vl (feature s.env.features) → EvexReady s vl o' →
    ∃ t t', exec (mkV o) s = .next t ∧ exec (mkE o') s = .next t' ∧ ∀ r, t.readV r = t'.readV r

/-- The displacement D of `30_encoding.md` R108 as an integer, a disp8 multiplied by `n`. -/
def dispInt (n : Nat) : Disp → Int
  | .none => 0
  | .disp8 v => v.toInt * n
  | .disp32 v => v.toInt

/-- `idx` of R108 as a number: the index register modulo 2^A, scaled; 0 when there is none. -/
def idxNat (s : State) (A : Nat) (scale : BitVec 2) (index : BitVec 4) : Nat :=
  if index = 4#4 then 0 else (s.readX index).toNat % 2 ^ A * 2 ^ scale.toNat

/-- The sum of R108, before the reduction modulo 2^A. -/
def eaSum (s : State) (A n len : Nat) : Addr → Int
  | .base _ b d => (s.readX b).toNat % 2 ^ A + dispInt n d
  | .sib sc i b d => (s.readX b).toNat % 2 ^ A + idxNat s A sc i + dispInt n d
  | .sibNoBase _ sc i d => idxNat s A sc i + d.toInt
  | .disp32 _ _ d => if s.env.mode = .m64 then s.pc.toNat + len + d.toInt else d.toInt

/-- The segment the last override that takes effect names (`30_encoding.md` R92, R110): in M64 only FS and GS do. -/
def lastOverride (m : Mode) (ps : List Prefix) : Option Seg :=
  ps.foldl (fun r p => match p with
    | .seg .fs => some .fs
    | .seg .gs => some .gs
    | .seg sg => if m = .m64 then r else some sg
    | .addrSize => r
    | .opSize => r) none

/-- The address size of `30_encoding.md` R108: 64 in M64 without 67h, else 32. -/
def addrBits (m : Mode) (ps : List Prefix) : Nat := if m = .m64 ∧ Prefix.addrSize ∉ ps then 64 else 32

/-- The number of the base register, if the operand has one (R105, R106). -/
def baseNumber : Addr → Option (BitVec 4)
  | .base _ b _ => some b
  | .sib _ _ b _ => some b
  | .sibNoBase _ _ _ _ => none
  | .disp32 _ _ _ => none

/-- The segment without an override (R110): SS for base number 4 or 5, else DS. -/
def plainSegment (a : Addr) : Seg := if baseNumber a = some 4#4 ∨ baseNumber a = some 5#4 then .ss else .ds

/-- `s` with another Translate (segments, privilege level, map of linear addresses). -/
def withXlate (s : State) (x : Translate) : State := { s with env := { s.env with xlate := x } }

/-- `s` with other flags, MXCSR and CR2. -/
def withFlags (s : State) (f m : BitVec 32) (c : Word) : State := { s with eflags := f, mxcsr := m, cr2 := c }

/-- A machine in M64 with the flat Translate of the test vectors (`00_scope.md` R10) and no other agent. -/
def Flat64 (s : State) : Prop :=
  s.env.mode = .m64 ∧ s.env.xlate.regions = [] ∧ s.env.xlate.restSup = .ram 0 ∧ s.env.xlate.restUsr = .ram 0
    ∧ s.env.shared = []

/-- Legacy prefix bytes, in any order and repeated: those of `30_encoding.md` R114 step 1. -/
def PrefixBytes (ps : List Byte) : Prop :=
  ∀ b ∈ ps, b ∈ ([0x26, 0x2E, 0x36, 0x3E, 0x64, 0x65, 0x67, 0x66, 0xF0, 0xF2, 0xF3] : List Byte)

/-- A REX byte, 40h to 4Fh (R91). -/
def RexByte (b : Byte) : Prop := b.extractLsb' 4 4 = 4#4

/-- No REX byte, or in M64 one (R114 step 2). -/
def RexOrNone (m : Mode) (rex : List Byte) : Prop := rex = [] ∨ (m = .m64 ∧ ∃ b, RexByte b ∧ rex = [b])

/-- The prefixes that may precede VEX and EVEX in mode `m` (`30_encoding.md` R99, R103, D16). -/
def PlainPrefixes (m : Mode) (ps : List Prefix) : Prop :=
  ps.length ≤ 4 ∧ Prefix.opSize ∉ ps ∧ (m = .m32 → Prefix.addrSize ∉ ps)

end Sys2Proof.Claims

open Sys2Proof Sys2Proof.Machine Sys2Proof.Claims

/-! ## Encoding -/

/-- Words written out from the encodings of `30_encoding.md` (R91, R96, R100) decode to the instructions they stand for
(`95_test_vectors.md` sections 2.2 to 2.6). -/
def Obligations.SampleWordsDecode : Prop :=
  decode .m64 [0x66, 0x0F, 0x38, 0x3F, 0xCA] = .ok (.pmaxud ⟨[.opSize], 1, .reg false 2⟩)
    ∧ decode .m64 [0x66, 0x45, 0x0F, 0x38, 0x3F, 0xC1] = .ok (.pmaxudRex false ⟨[.opSize], 8, .reg false 9⟩)
    ∧ decode .m64 [0xC4, 0xE2, 0x69, 0x3F, 0xCB] = .ok (.vpmaxudVex128 ⟨[], false, 1, 2, .reg false 3⟩)
    ∧ decode .m64 [0xC4, 0x62, 0x39, 0x3F, 0x3C, 0x88] =
        .ok (.vpmaxudVex128 ⟨[], false, 15, 8, .mem (.sib 2 1 0 .none)⟩)
    ∧ decode .m64 [0x62, 0xF2, 0x6D, 0x58, 0x3F, 0x48, 0x01] =
        .ok (.vpmaxudEvex512 ⟨[], 1, 2, .mem true (.base false 0 (.disp8 1)), 0, false⟩)
    ∧ decode .m64 [0x62, 0xA2, 0xED, 0x02, 0x3F, 0xCB] = .ok (.vpmaxuqEvex128 ⟨[], 17, 18, .reg 19, 2, false⟩)

/-- Decoding undoes encoding: for every well-formed instruction of a mode, whatever bytes follow it. -/
def Obligations.DecodeUndoesEncode : Prop :=
  ∀ (m : Mode) (i : Instr) (rest : List Byte), i.wf m = true → decode m (encode i ++ rest) = .ok i

/-- Encoding undoes decoding: a decoded instruction is well formed and its encoding is the bytes it was decoded from, so no bit
of them is dropped. -/
def Obligations.EncodeUndoesDecode : Prop :=
  ∀ (m : Mode) (bytes : List Byte) (i : Instr), decode m bytes = .ok i →
    i.wf m = true ∧ i.ilen ≤ bytes.length ∧ encode i = bytes.take i.ilen

/-- R90: a decoded instruction has at most 15 bytes, and at least 5; an EVEX form has at least 6. -/
def Obligations.DecodedLengthBounds : Prop :=
  ∀ (m : Mode) (bytes : List Byte) (i : Instr), decode m bytes = .ok i →
    5 ≤ i.ilen ∧ i.ilen ≤ 15
      ∧ ((∃ o, i = .vpmaxudEvex128 o ∨ i = .vpmaxudEvex256 o ∨ i = .vpmaxudEvex512 o ∨ i = .vpmaxuqEvex128 o
            ∨ i = .vpmaxuqEvex256 o ∨ i = .vpmaxuqEvex512 o) → 6 ≤ i.ilen)

/-- R33, R99, R103, R108, R111, M32: a decoded instruction names registers 0 to 7 only; a VEX or EVEX form that is not otherwise
`#UD` and uses a register-extension bit (the stored B, R', V' or bit 3 of vvvv is 0) is refused, and so is every form with 67h; bytes
that are VEX, EVEX or REX in M64 only are no instructions of this spec. That the refusal of 67h comes before `#UD` is log 15 (DEDUCED),
and that it holds for a register source too is log 17 (DEDUCED). -/
def Obligations.M32NamesEightRegisters : Prop :=
  (∀ (bytes : List Byte) (i : Instr), decode .m32 bytes = .ok i → i.dest.toNat < 8 ∧ i.lowRegs = true)
    ∧ (∀ (ps : List Prefix) (v1 v2 : Byte) (rest : List Byte), PlainPrefixes .m32 ps → 6 ≤ rest.length →
        v1.extractLsb' 6 2 = 3#2 → v1.extractLsb' 0 5 = 2#5 → v2.extractLsb' 0 2 = 1#2 →
        v1.getLsbD 5 = false ∨ v2.getLsbD 6 = false →
        decode .m32 (ps.map Prefix.byte ++ 0xC4 :: v1 :: v2 :: 0x3F :: rest) = .refused .m32Extension)
    ∧ (∀ (ps : List Prefix) (p0 p1 p2 modrm : Byte) (rest : List Byte), PlainPrefixes .m32 ps → 5 ≤ rest.length →
        p0.extractLsb' 6 2 = 3#2 → p0.extractLsb' 0 4 = 2#4 → p1.extractLsb' 0 3 = 5#3 → p2.extractLsb' 5 2 ≠ 3#2 →
        ¬ (p2.getLsbD 7 = true ∧ p2.extractLsb' 0 3 = 0#3) → ¬ (p2.getLsbD 4 = true ∧ modrm.extractLsb' 6 2 = 3#2) →
        p0.getLsbD 5 = false ∨ p0.getLsbD 4 = false ∨ p2.getLsbD 3 = false ∨ p1.getLsbD 6 = false →
        decode .m32 (ps.map Prefix.byte ++ 0x62 :: p0 :: p1 :: p2 :: 0x3F :: modrm :: rest) = .refused .m32Extension)
    ∧ (∀ ps rest : List Byte, PrefixBytes ps → 0x67 ∈ ps →
        (0x66 ∈ ps → 0xF2 ∉ ps → 0xF3 ∉ ps → decode .m32 (ps ++ 0x0F :: 0x38 :: 0x3F :: rest) = .refused .addrSize16)
          ∧ (∀ v1 v2 : Byte, v1.extractLsb' 6 2 = 3#2 → v1.extractLsb' 0 5 = 2#5 → v2.extractLsb' 0 2 = 1#2 →
              decode .m32 (ps ++ 0xC4 :: v1 :: v2 :: 0x3F :: rest) = .refused .addrSize16)
          ∧ (∀ p0 p1 p2 : Byte, p0.extractLsb' 6 2 = 3#2 → p0.extractLsb' 0 2 = 2#2 → p1.extractLsb' 0 2 = 1#2 →
              decode .m32 (ps ++ 0x62 :: p0 :: p1 :: p2 :: 0x3F :: rest) = .refused .addrSize16))
    ∧ (∀ (ps rest : List Byte) (b : Byte), PrefixBytes ps →
        (b.extractLsb' 6 2 ≠ 3#2 → decode .m32 (ps ++ 0xC4 :: b :: rest) = .refused .notInSpec
            ∧ decode .m32 (ps ++ 0x62 :: b :: rest) = .refused .notInSpec)
          ∧ (RexByte b → decode .m32 (ps ++ b :: rest) = .refused .notInSpec))

/-- R112: `0F 38 3F` without 66h, the two-byte VEX prefix, and VEX and EVEX with another opcode byte, map or pp are no
instructions of this spec, whatever prefixes and REX byte precede them (of a string of over 15 bytes this is log 15's order). -/
def Obligations.NeighboursAreRefused : Prop :=
  ∀ (m : Mode) (ps rex rest : List Byte), m = .m64 ∨ m = .m32 → PrefixBytes ps → RexOrNone m rex →
    (0x66 ∉ ps → decode m (ps ++ rex ++ 0x0F :: 0x38 :: 0x3F :: rest) = .refused .notInSpec)
      ∧ decode m (ps ++ rex ++ 0xC5 :: rest) = .refused .notInSpec
      ∧ (∀ v1 v2 op : Byte, op ≠ 0x3F ∨ v1.extractLsb' 0 5 ≠ 2#5 ∨ v2.extractLsb' 0 2 ≠ 1#2 →
          decode m (ps ++ rex ++ 0xC4 :: v1 :: v2 :: op :: rest) = .refused .notInSpec)
      ∧ (∀ p0 p1 p2 op : Byte, op ≠ 0x3F ∨ p0.extractLsb' 0 2 ≠ 2#2 ∨ p1.extractLsb' 0 2 ≠ 1#2 →
          decode m (ps ++ rex ++ 0x62 :: p0 :: p1 :: p2 :: op :: rest) = .refused .notInSpec)

/-- R111, the EVEX rows: P0 bits 3:2 not 00, P1 bit 2 not 1, L'L = 11b, z = 1 with aaa = 000b, and b = 1 with a register source
(ModRM.mod = 11b) are `#UD`. That in M32 this comes before the refusal of an extension bit (R103) is log 15 (DEDUCED). -/
def Obligations.ReservedEvexIsUndefined : Prop :=
  ∀ (m : Mode) (ps : List Prefix) (p0 p1 p2 modrm : Byte) (rest : List Byte), m = .m64 ∨ m = .m32 → PlainPrefixes m ps →
    (m = .m32 → p0.extractLsb' 6 2 = 3#2) → p0.extractLsb' 0 2 = 2#2 → p1.extractLsb' 0 2 = 1#2 → 5 ≤ rest.length →
    (p0.extractLsb' 2 2 ≠ 0#2 ∨ p1.getLsbD 2 = false ∨ p2.extractLsb' 5 2 = 3#2
      ∨ (p2.getLsbD 7 = true ∧ p2.extractLsb' 0 3 = 0#3) ∨ (p2.getLsbD 4 = true ∧ modrm.extractLsb' 6 2 = 3#2)) →
    decode m (ps.map Prefix.byte ++ 0x62 :: p0 :: p1 :: p2 :: 0x3F :: modrm :: rest) = .ud

/-- R99 and R103: a VEX or EVEX form of this group after prefixes among which is LOCK, 66h, F2h or F3h, or after a REX byte (M64),
is `#UD`, whatever other prefixes stand beside it. That in M32 this comes before the refusal of an extension bit (R99, R103) is
log 15 (DEDUCED). -/
def Obligations.PrefixBeforeVexIsUndefined : Prop :=
  ∀ (m : Mode) (ps rex rest : List Byte), m = .m64 ∨ m = .m32 → PrefixBytes ps → RexOrNone m rex →
    ps.length + rex.length ≤ 4 → (m = .m32 → 0x67 ∉ ps) → 6 ≤ rest.length →
    (0xF0 ∈ ps ∨ 0x66 ∈ ps ∨ 0xF2 ∈ ps ∨ 0xF3 ∈ ps ∨ rex ≠ []) →
    (∀ v1 v2 : Byte, (m = .m32 → v1.extractLsb' 6 2 = 3#2) → v1.extractLsb' 0 5 = 2#5 → v2.extractLsb' 0 2 = 1#2 →
        decode m (ps ++ rex ++ 0xC4 :: v1 :: v2 :: 0x3F :: rest) = .ud)
      ∧ (∀ p0 p1 p2 : Byte, (m = .m32 → p0.extractLsb' 6 2 = 3#2) → p0.extractLsb' 0 2 = 2#2 → p1.extractLsb' 0 2 = 1#2 →
        decode m (ps ++ rex ++ 0x62 :: p0 :: p1 :: p2 :: 0x3F :: rest) = .ud)

/-- R92, R72: LOCK anywhere in form 1's prefixes gives `#UD`, F2h or F3h anywhere a refusal, and a REX byte followed by another
prefix a refusal. That with both LOCK and F2h or F3h the refusal stands, and that a REX byte before a prefix or another REX byte is
refused as such whatever bytes follow, is log 15 (DEDUCED). -/
def Obligations.PrefixesOfFormOne : Prop :=
  (∀ (m : Mode) (ps rex rest : List Byte), m = .m64 ∨ m = .m32 → PrefixBytes ps → RexOrNone m rex → 0x66 ∈ ps →
    (ps.length + rex.length ≤ 6 → (m = .m32 → 0x67 ∉ ps) → 6 ≤ rest.length → 0xF0 ∈ ps → 0xF2 ∉ ps → 0xF3 ∉ ps →
        decode m (ps ++ rex ++ 0x0F :: 0x38 :: 0x3F :: rest) = .ud)
      ∧ (0xF2 ∈ ps ∨ 0xF3 ∈ ps → decode m (ps ++ rex ++ 0x0F :: 0x38 :: 0x3F :: rest) = .refused .repPrefix))
    ∧ ∀ (ps rest : List Byte) (rex b : Byte), PrefixBytes ps → RexByte rex → PrefixBytes [b] ∨ RexByte b →
        decode .m64 (ps ++ rex :: b :: rest) = .refused .rexPlacement

/-! ## What each form computes, and that it completes -/

/-- R140, register source: both rows of form 1 complete with the element-wise unsigned maximum in bits 127:0 of `V[d]`, its
bits 511:128 and everything else unchanged, and the pc after the instruction. -/
def Obligations.PmaxudRegisterSource : Prop :=
  LegacyRegisterForm .pmaxud ∧ ∀ w, LegacyRegisterForm (.pmaxudRex w)

/-- R140, memory source: the same with the 16 bytes of a readable operand on a 16-byte boundary. -/
def Obligations.PmaxudMemorySource : Prop :=
  LegacyMemoryForm .pmaxud ∧ ∀ w, LegacyMemoryForm (.pmaxudRex w)

/-- R150 and R151, register source: both VEX forms complete with the maximum, zero above VL; VEX.256 with AVX2 alone (R193, log 28,
DEDUCED). -/
def Obligations.VexRegisterSource : Prop :=
  VexRegisterForm 128 Features.avx .vpmaxudVex128 ∧ VexRegisterForm 256 Features.avx2 .vpmaxudVex256

/-- R150, R151 and R65, memory source: both VEX forms complete on a readable operand at any alignment; VEX.256 with AVX2 alone (R193,
log 28, DEDUCED). -/
def Obligations.VexMemorySource : Prop :=
  VexMemoryForm 128 Features.avx .vpmaxudVex128 ∧ VexMemoryForm 256 Features.avx2 .vpmaxudVex256

/-- R160 to R163, register source: the three EVEX VPMAXUD forms. -/
def Obligations.EvexDwordRegisterSource : Prop :=
  EvexRegisterForm 32 128 .vpmaxudEvex128 ∧ EvexRegisterForm 32 256 .vpmaxudEvex256
    ∧ EvexRegisterForm 32 512 .vpmaxudEvex512

/-- R160 to R163, full memory operand: the three EVEX VPMAXUD forms. -/
def Obligations.EvexDwordMemorySource : Prop :=
  EvexMemoryForm 32 128 .vpmaxudEvex128 ∧ EvexMemoryForm 32 256 .vpmaxudEvex256 ∧ EvexMemoryForm 32 512 .vpmaxudEvex512

/-- R160 to R163, m32bcst: the three EVEX VPMAXUD forms. -/
def Obligations.EvexDwordBroadcastSource : Prop :=
  EvexBroadcastForm 32 128 .vpmaxudEvex128 ∧ EvexBroadcastForm 32 256 .vpmaxudEvex256
    ∧ EvexBroadcastForm 32 512 .vpmaxudEvex512

/-- R160, R176 to R178, R180, register source: the three VPMAXUQ forms compare all 64 bits. -/
def Obligations.EvexQwordRegisterSource : Prop :=
  EvexRegisterForm 64 128 .vpmaxuqEvex128 ∧ EvexRegisterForm 64 256 .vpmaxuqEvex256
    ∧ EvexRegisterForm 64 512 .vpmaxuqEvex512

/-- R160, R176 to R178, full memory operand: the three VPMAXUQ forms. -/
def Obligations.EvexQwordMemorySource : Prop :=
  EvexMemoryForm 64 128 .vpmaxuqEvex128 ∧ EvexMemoryForm 64 256 .vpmaxuqEvex256 ∧ EvexMemoryForm 64 512 .vpmaxuqEvex512

/-- R160, R176 to R178, m64bcst: the three VPMAXUQ forms. -/
def Obligations.EvexQwordBroadcastSource : Prop :=
  EvexBroadcastForm 64 128 .vpmaxuqEvex128 ∧ EvexBroadcastForm 64 256 .vpmaxuqEvex256
    ∧ EvexBroadcastForm 64 512 .vpmaxuqEvex512

/-- R62, R63, R68, R108 end to end: in M64 with the flat Translate, `VPMAXUD xmm, xmm, [base]` takes the maximum with the
little-endian dwords of memory at the address in the base register. -/
def Obligations.FlatMemoryOperand : Prop :=
  ∀ (d s1 : BitVec 4) (x w : Bool) (b : BitVec 4) (s : State), VexReady s 128 s.env.features.avx → Flat64 s →
    (s.readX b).toNat + 16 ≤ 2 ^ 47 →
    ∃ t, exec (.vpmaxudVex128 ⟨[], w, d, s1, .mem (.base x b .none)⟩) s = .next t
      ∧ VexResult 128 s t (d.setWidth 5) (s1.setWidth 5) fun j e =>
          LittleEndian 32 (fun i => Memory.read s.mem ((s.readX b).toNat + i)) (j * 4) e

/-- R108: the effective address is the sum of base, scaled index and displacement (or next pc and displacement), modulo 2^A; and
of a memory operand as an instruction reaches it, A is 64 exactly in M64 without 67h. -/
def Obligations.EffectiveAddressModulo : Prop :=
  (∀ (s : State) (wide : Bool) (n len : Nat) (a : Addr), n ≤ 64 → len ≤ 15 →
    ((s.effAddr wide n len a).toNat : Int) =
      eaSum s (if wide then 64 else 32) n len a % 2 ^ (if wide then 64 else 32))
    ∧ ∀ (s : State) (ps : List Prefix) (n len : Nat) (a : Addr), n ≤ 64 → len ≤ 15 →
      ((s.memRef ps n len a).2.toNat : Int) = eaSum s (addrBits s.env.mode ps) n len a % 2 ^ addrBits s.env.mode ps

/-- R92 and R110: the segment of a memory operand is the last override's that takes effect, else SS for base number 4 or 5 and DS
otherwise. That in M64 an override without effect leaves an earlier FS or GS in force is the model's reading (log 16). -/
def Obligations.SegmentOverrideSelection : Prop :=
  (∀ (m : Mode) (sg : Seg) (ps : List Prefix), segOf m sg ps = (lastOverride m ps).getD sg)
    ∧ ∀ (s : State) (ps : List Prefix) (n len : Nat) (a : Addr),
      (s.memRef ps n len a).1 = (lastOverride s.env.mode ps).getD (plainSegment a)

/-! ## Frames and whole-machine rules -/

/-- What every instruction leaves unchanged when it answers a next state: all but its destination register, the pc and the
model's counter; and a legacy or VEX form leaves registers 16 to 31 (R33). -/
def Obligations.ExecFrame : Prop :=
  ∀ (i : Instr) (s t : State), exec i s = .next t →
    OnlyWrites s t i.dest i.ilen
      ∧ ((∃ o, i = .pmaxud o ∨ (∃ w, i = .pmaxudRex w o)) ∨ (∃ o, i = .vpmaxudVex128 o ∨ i = .vpmaxudVex256 o) →
          ∀ n : BitVec 5, 16 ≤ n.toNat → t.readV n = s.readV n)

/-- R32: bits above VL of the destination are unchanged by form 1 and zeroed by every other form. -/
def Obligations.UpperBitsOfDestination : Prop :=
  ∀ (i : Instr) (s t : State), exec i s = .next t → ∀ k, i.vl ≤ k →
    (t.readV i.dest).getLsbD k = (i.legacy && (s.readV i.dest).getLsbD k)

/-- R39: no form reads or writes EFLAGS or MXCSR: they are unchanged, and with other values of them the outcome is the same. CR2
is treated alike. -/
def Obligations.FlagsNeitherReadNorWritten : Prop :=
  ∀ (i : Instr) (s : State) (f m : BitVec 32) (c : Word),
    exec i (withFlags s f m c) = mapNext (fun t => withFlags t f m c) (exec i s)
      ∧ ∀ t, exec i s = .next t → t.eflags = s.eflags ∧ t.mxcsr = s.mxcsr

/-- R41, R211: with a register source, the privilege level, the segments and the map of linear addresses do not matter. -/
def Obligations.RegisterSourceIgnoresTranslate : Prop :=
  ∀ (i : Instr) (s : State) (x : Translate), i.regSource = true →
    exec i (withXlate s x) = mapNext (fun t => withXlate t x) (exec i s)

/-- Bytes the instruction does not access do not matter (R69: among them those of masked-off elements): with memory changed
elsewhere, the outcome is the same but for that memory. -/
def Obligations.OnlyAccessedBytesMatter : Prop :=
  ∀ (i : Instr) (s : State) (m' : List Host.Cell),
    (∀ m, s.access i = some m → ∀ j ∈ m.offs,
      ({ s with mem := m' } : State).operandByte m.seg m.ea j = s.operandByte m.seg m.ea j) →
    exec i { s with mem := m' } = mapNext (fun t => { t with mem := m' }) (exec i s)

/-- R154 and R30: bits of the registers from VL on do not reach the result's bits below VL. -/
def Obligations.BitsAboveVlAreNotRead : Prop :=
  ∀ (i : Instr) (s t : State) (v' : Vector Vec 32),
    (∀ n k, k < i.vl → (({ s with v := v' } : State).readV n).getLsbD k = (s.readV n).getLsbD k) → exec i s = .next t →
    ∃ t', exec i { s with v := v' } = .next t'
      ∧ ∀ k, k < i.vl → (t'.readV i.dest).getLsbD k = (t.readV i.dest).getLsbD k

/-- R160, R167: writemask bits at positions KL and above are not read. -/
def Obligations.HighMaskBitsIgnored : Prop :=
  HighMaskBitsForm 4 .vpmaxudEvex128 ∧ HighMaskBitsForm 8 .vpmaxudEvex256 ∧ HighMaskBitsForm 16 .vpmaxudEvex512
    ∧ HighMaskBitsForm 2 .vpmaxuqEvex128 ∧ HighMaskBitsForm 4 .vpmaxuqEvex256 ∧ HighMaskBitsForm 8 .vpmaxuqEvex512

/-- R142, commutativity: form 1 on registers `a`, `b` gives bits 127:0 of its destination the value it gives them on `b`, `a`. -/
def Obligations.PmaxudCommutes : Prop :=
  ∀ (ps ps' : List Prefix) (x x' : Bool) (a b : BitVec 4) (s : State), LegacyReady s →
    ∃ t t', exec (.pmaxud ⟨ps, a, .reg x b⟩) s = .next t ∧ exec (.pmaxud ⟨ps', b, .reg x' a⟩) s = .next t'
      ∧ ∀ k, k < 128 → (t.readV (a.setWidth 5)).getLsbD k = (t'.readV (b.setWidth 5)).getLsbD k

/-- R142, idempotence: form 1 executed again on the same register source changes no vector register. -/
def Obligations.PmaxudIdempotent : Prop :=
  ∀ (ps : List Prefix) (x : Bool) (d n : BitVec 4) (s : State), LegacyReady s →
    ∃ t u, exec (.pmaxud ⟨ps, d, .reg x n⟩) s = .next t ∧ exec (.pmaxud ⟨ps, d, .reg x n⟩) t = .next u
      ∧ ∀ r, u.readV r = t.readV r

/-- R167, "same text as VEX": on registers 0 to 15 the VEX form and the unmasked EVEX form give identical results. That AVX2 alone
enables VEX.256 is log 28 (DEDUCED). -/
def Obligations.UnmaskedEvexAgreesWithVex : Prop :=
  VexAgreesForm 128 Features.avx .vpmaxudVex128 .vpmaxudEvex128
    ∧ VexAgreesForm 256 Features.avx2 .vpmaxudVex256 .vpmaxudEvex256

/-! ## Exceptions and refusals -/

/-- R192: form 1 raises `#UD` exactly when CR0.EM = 1, CR4.OSFXSR = 0, or SSE4_1 is missing; and a LOCK prefix makes the bytes
`#UD` (`PrefixesOfFormOne`). -/
def Obligations.PmaxudUndefinedExactly : Prop :=
  LegacyUdForm .pmaxud ∧ ∀ w, LegacyUdForm (.pmaxudRex w)

/-- R193: a VEX form raises `#UD` exactly when CR4.OSXSAVE = 0, XCR0 bits 2:1 are not 11b, or its feature flag is missing; the
prefixes of the rule are `PrefixBeforeVexIsUndefined`. That VEX.256 needs AVX2 alone, against a reading of R232, is log 28
(DEDUCED). -/
def Obligations.VexUndefinedExactly : Prop :=
  VexUdForm 128 Features.avx .vpmaxudVex128 ∧ VexUdForm 256 Features.avx2 .vpmaxudVex256

/-- R194: an EVEX form raises `#UD` exactly on the conditions of the rule; the encodings of the rule are
`ReservedEvexIsUndefined` and `PrefixBeforeVexIsUndefined`. -/
def Obligations.EvexUndefinedExactly : Prop :=
  EvexUdForm 128 .vpmaxudEvex128 ∧ EvexUdForm 256 .vpmaxudEvex256 ∧ EvexUdForm 512 .vpmaxudEvex512
    ∧ EvexUdForm 128 .vpmaxuqEvex128 ∧ EvexUdForm 256 .vpmaxuqEvex256 ∧ EvexUdForm 512 .vpmaxuqEvex512

/-- R195: with CR0.TS = 1 every form raises `#NM`, after all `#UD` conditions and before any memory access; and no form raises it
otherwise. -/
def Obligations.DeviceNotAvailable : Prop :=
  ∀ (i : Instr) (s : State), Covered s → i.vl ≤ s.env.maxvl.bits →
    (s.udFor i = true → exec i s = .fault .ud)
      ∧ (s.udFor i = false → (exec i s = .fault .nm ↔ s.env.cr0.getLsbD 3 = true))

/-- R65, R196: form 1 on a readable operand that is not on a 16-byte boundary raises `#GP(0)`. -/
def Obligations.MisalignedOperandOfFormOne : Prop :=
  MisalignedForm .pmaxud ∧ ∀ w, MisalignedForm (.pmaxudRex w)

/-- R68, R196: an accessed byte at an illegal address, and no other fault, raises `#SS(0)` through SS and `#GP(0)` through
another segment. That the illegal byte itself gives no `#PF`, mapped or not, is log 10 (DEDUCED); that the fault comes before the
refusal of a device's byte in the same operand is log 22 (DEDUCED). -/
def Obligations.IllegalAddressFault : Prop :=
  ∀ (i : Instr) (s : State) (m : MemAccess), Covered s → i.vl ≤ s.env.maxvl.bits → s.udFor i = false →
    s.env.cr0.getLsbD 3 = false → s.access i = some m → (m.aligned = true → s.env.linear m.seg m.ea 0 % 16 = 0) →
    (∃ j ∈ m.offs, s.env.segOk m.seg m.ea j = false) →
    (∀ j ∈ m.offs, s.env.segOk m.seg m.ea j = true → ∀ c, s.env.xlate.lookup (s.env.linear m.seg m.ea j) ≠ .fault c) →
    exec i s = .fault (if m.seg = .ss then .ss else .gp)

/-- R196, R198: an accessed byte that Translate faults on, and no fault of another kind, raises `#PF` with Translate's error code
and the byte's linear address. That the address recorded is an accessed byte's is log 10 (DEDUCED); that the fault comes before the
refusal of a device's byte in the same operand is log 22 (DEDUCED). -/
def Obligations.PageFaultPassedThrough : Prop :=
  ∀ (i : Instr) (s : State) (m : MemAccess), Covered s → i.vl ≤ s.env.maxvl.bits → s.udFor i = false →
    s.env.cr0.getLsbD 3 = false → s.access i = some m → (m.aligned = true → s.env.linear m.seg m.ea 0 % 16 = 0) →
    (∀ j ∈ m.offs, s.env.segOk m.seg m.ea j = true) →
    (∃ j ∈ m.offs, ∃ c, s.env.xlate.lookup (s.env.linear m.seg m.ea j) = .fault c) →
    ∃ j ∈ m.offs, ∃ c, s.env.xlate.lookup (s.env.linear m.seg m.ea j) = .fault c
      ∧ exec i s = .fault (.pf c (BitVec.ofNat 64 (s.env.linear m.seg m.ea j)))

/-- R199 step 4: a memory fault an instruction raises is one that applies to a byte it accesses, or form 1's misalignment. That a
byte with a page fault has passed the segment's check, and that its own linear address is recorded, is log 10 (DEDUCED). -/
def Obligations.AdmittedMemoryFaults : Prop :=
  ∀ (i : Instr) (s : State) (f : Fault), exec i s = .fault f → f ≠ .ud → f ≠ .nm →
    ∃ m, s.access i = some m ∧
      ((∃ j ∈ m.offs, s.env.segOk m.seg m.ea j = false ∧ f = if m.seg = .ss then .ss else .gp)
        ∨ (i.legacy = true ∧ f = .gp ∧ s.env.linear m.seg m.ea 0 % 16 ≠ 0)
        ∨ ∃ j ∈ m.offs, s.env.segOk m.seg m.ea j = true ∧ ∃ c,
            s.env.xlate.lookup (s.env.linear m.seg m.ea j) = .fault c
              ∧ f = .pf c (BitVec.ofNat 64 (s.env.linear m.seg m.ea j)))

/-- R196, last sentence: a register-source instruction raises no memory fault; nor does a device refuse it. -/
def Obligations.RegisterSourceMeetsNoMemory : Prop :=
  ∀ (i : Instr) (s : State), i.regSource = true →
    exec i s ≠ .fault .ss ∧ exec i s ≠ .fault .gp ∧ (∀ c a, exec i s ≠ .fault (.pf c a)) ∧ exec i s ≠ .refused .device

/-- R198: from a state that meets the invariant, a page fault's error code has its write bit and its instruction-fetch bit
clear. -/
def Obligations.PageFaultCodeOfARead : Prop :=
  ∀ (i : Instr) (s : State) (c : BitVec 32) (a : Word), s.wf = true → exec i s = .fault (.pf c a) →
    c.getLsbD 1 = false ∧ c.getLsbD 4 = false

/-- R69, R167: with fault suppression, a memory form under a writemask with no active element accesses no memory. -/
def Obligations.EmptyMaskAccessesNoMemory : Prop :=
  EmptyMaskForm 32 128 .vpmaxudEvex128 ∧ EmptyMaskForm 32 256 .vpmaxudEvex256 ∧ EmptyMaskForm 32 512 .vpmaxudEvex512
    ∧ EmptyMaskForm 64 128 .vpmaxuqEvex128 ∧ EmptyMaskForm 64 256 .vpmaxuqEvex256 ∧ EmptyMaskForm 64 512 .vpmaxuqEvex512

/-- R69: without fault suppression the whole operand of R61 is read, full or broadcast, whatever the writemask. -/
def Obligations.UnsuppressedReadsWholeOperand : Prop :=
  (UnsuppressedForm 128 .vpmaxudEvex128 ∧ UnsuppressedForm 256 .vpmaxudEvex256 ∧ UnsuppressedForm 512 .vpmaxudEvex512
    ∧ UnsuppressedForm 128 .vpmaxuqEvex128 ∧ UnsuppressedForm 256 .vpmaxuqEvex256 ∧ UnsuppressedForm 512 .vpmaxuqEvex512)
    ∧ UnsuppressedBroadcastForm 32 128 .vpmaxudEvex128 ∧ UnsuppressedBroadcastForm 32 256 .vpmaxudEvex256
    ∧ UnsuppressedBroadcastForm 32 512 .vpmaxudEvex512 ∧ UnsuppressedBroadcastForm 64 128 .vpmaxuqEvex128
    ∧ UnsuppressedBroadcastForm 64 256 .vpmaxuqEvex256 ∧ UnsuppressedBroadcastForm 64 512 .vpmaxuqEvex512

/-- An instruction is refused only outside the covered modes (R210), for a vector length above MAXVL (R11), or for a device
(R67). -/
def Obligations.RefusalsOfInstructions : Prop :=
  ∀ (i : Instr) (s : State) (r : Refusal), exec i s = .refused r →
    (r = .mode ∧ ¬ Covered s) ∨ (r = .vlOverMaxvl ∧ s.env.maxvl.bits < i.vl)
      ∨ (r = .device ∧ ∃ m, s.access i = some m ∧
          ∃ j ∈ m.offs, s.env.xlate.lookup (s.env.linear m.seg m.ea j) = .device)

/-- R210: outside M64 and M32 every instruction and every step is refused. -/
def Obligations.OtherModesRefused : Prop :=
  ∀ (s : State), ¬ Covered s → step s = .refused .mode ∧ ∀ i, exec i s = .refused .mode

/-- R11: in a covered mode, a form whose vector length exceeds MAXVL is refused; with MAXVL = 512 every form qualifies. That
the refusal also stands where a `#UD` condition or CR0.TS = 1 holds is log 27 (DEDUCED). -/
def Obligations.VectorLengthAboveMaxvl : Prop :=
  (∀ i : Instr, i.vl ≤ MaxVl.vl512.bits)
    ∧ ∀ (i : Instr) (s : State), Covered s → s.env.maxvl.bits < i.vl → exec i s = .refused .vlOverMaxvl

/-! ## Steps, runs and reset -/

/-- R8: when the bytes at the pc decode to `i`, and the pc's run holds the instruction and the next pc (R38), the step is
`exec i`. -/
def Obligations.StepRunsDecodedInstruction : Prop :=
  ∀ (s : State) (i : Instr), Covered s → decode s.env.mode s.fetch = .ok i → s.runOk i.ilen = true → step s = exec i s

/-- R8, R114, R111: in a covered mode, bytes at the pc that decode to `#UD` make the step raise `#UD`, and bytes the decoder refuses
make it refused, with the decoder's reason. That this `#UD` comes whatever MAXVL is is log 27 (DEDUCED), and that it comes even where
the next pc would leave the run is log 25 (DEDUCED). Bytes that end inside an instruction are refused as too long if 15 of them were fetched
(R90), and otherwise because the text cannot be fetched further (log 19). -/
def Obligations.StepOfUndecodedBytes : Prop :=
  ∀ (s : State), Covered s →
    (decode s.env.mode s.fetch = .ud → step s = .fault .ud)
      ∧ (∀ r, decode s.env.mode s.fetch = .refused r → r ≠ .truncated → step s = .refused (.undecoded r))
      ∧ (decode s.env.mode s.fetch = .refused .truncated →
          (s.fetch.length = 15 → step s = .refused (.undecoded .tooLong)) ∧ (s.fetch.length ≠ 15 → step s = .refused .text))

/-- R38: an instruction decoded at the pc whose bytes or next pc do not lie in one contiguous run, below 2^32 in M32, inside the
lower or the upper canonical half in M64, is refused. That the refusal comes before the instruction's own checks, `#UD`, `#NM`, the
memory faults and the other refusals, is log 25 (DEDUCED). -/
def Obligations.WrappingInstructionIsRefused : Prop :=
  ∀ (s : State) (i : Instr), Covered s → decode s.env.mode s.fetch = .ok i →
    ¬ ((s.env.mode = .m32 ∧ s.pc.toNat + i.ilen < 2 ^ 32)
      ∨ (s.env.mode = .m64 ∧ (s.pc.toNat + i.ilen < 2 ^ 47
        ∨ (2 ^ 64 - 2 ^ 47 ≤ s.pc.toNat ∧ s.pc.toNat + i.ilen < 2 ^ 64)))) →
    step s = .refused .pcWrap

/-- R37 and R38: a step that answers a next state has executed an instruction decoded from the text and leaves the pc just after
it, with no wrap, in the same contiguous run. -/
def Obligations.StepAdvancesPc : Prop :=
  ∀ (s t : State), step s = .next t →
    ∃ i, decode s.env.mode s.fetch = .ok i ∧ exec i s = .next t ∧ t.pc.toNat = s.pc.toNat + i.ilen
      ∧ ((s.env.mode = .m32 ∧ t.pc.toNat < 2 ^ 32)
        ∨ (s.env.mode = .m64 ∧ (t.pc.toNat < 2 ^ 47 ∨ 2 ^ 64 - 2 ^ 47 ≤ s.pc.toNat)))

/-- R9, R66, R74: no step writes ENV, memory, a general or an opmask register: a program cannot change its own text. -/
def Obligations.StepWritesNoMemoryAndNoEnv : Prop :=
  ∀ (s t : State), step s = .next t →
    t.env = s.env ∧ t.mem = s.mem ∧ (∀ a, Memory.read t.mem a = Memory.read s.mem a) ∧ t.x = s.x ∧ t.k = s.k

/-- Every step keeps the invariant `State.wf`: memory in canonical form, no register bit beyond MAXVL or KW, the pc an address
of its mode, Translate's error codes those of reads. -/
def Obligations.StepKeepsInvariant : Prop :=
  ∀ (s t : State), s.wf = true → step s = .next t → t.wf = true

/-- The state after reset meets the invariant. -/
def Obligations.ResetMeetsInvariant : Prop := State.reset.wf = true

/-- R45: what reset leaves in the state the rule gives a value for. -/
def Obligations.ResetPowerUpValues : Prop :=
  (∀ n, State.reset.readV n = 0) ∧ (∀ n, State.reset.readK n = 0) ∧ (∀ n, n ≠ 2#4 → State.reset.readX n = 0)
    ∧ State.reset.pc = 0xFFF0 ∧ State.reset.env.xlate.cs.base = 0xFFFF0000 ∧ State.reset.env.mode = .real
    ∧ State.reset.env.cr0 = 0x60000010 ∧ State.reset.env.cr4 = 0 ∧ State.reset.env.xcr0 = 1
    ∧ State.reset.mxcsr = 0x1F80

/-- R45, the column "after INIT": the vector and opmask registers, XCR0, MXCSR and CR0's cache bits (29 and 30) are kept, CR4 is 0,
and the rest is as after reset. The places of the cache bits, and that memory is kept, are log 29; INIT keeps the invariant. -/
def Obligations.InitValues : Prop :=
  ∀ (s : State),
    (∀ n, s.afterInit.readV n = s.readV n) ∧ (∀ n, s.afterInit.readK n = s.readK n)
      ∧ (∀ n, n ≠ 2#4 → s.afterInit.readX n = 0) ∧ s.afterInit.pc = 0xFFF0 ∧ s.afterInit.env.xlate.cs.base = 0xFFFF0000
      ∧ s.afterInit.env.mode = .real
      ∧ (∀ k, s.afterInit.env.cr0.getLsbD k
          = if k = 29 ∨ k = 30 then s.env.cr0.getLsbD k else (0x60000010 : Word).getLsbD k)
      ∧ s.afterInit.env.cr4 = 0 ∧ s.afterInit.env.xcr0 = s.env.xcr0 ∧ s.afterInit.mxcsr = s.mxcsr
      ∧ s.afterInit.mem = s.mem ∧ (s.wf = true → s.afterInit.wf = true)

/-- R45, its consequence: with the state reset leaves, brought to M64 or M32 and to no other change, every form raises `#UD`. -/
def Obligations.NoFormExecutesAfterReset : Prop :=
  ∀ (i : Instr) (m : Mode), m = .m64 ∨ m = .m32 →
    exec i { State.reset with env := { State.reset.env with mode := m } } = .fault .ud

/-- The model's load (log 1): from reset with a decodable word loaded, the very next step is that instruction's. -/
def Obligations.LoadedWordRunsFirst : Prop :=
  ∀ (nbits w : Nat) (i : Instr), decodeTableWord nbits w = some i →
    step (State.reset.withFetchWord nbits w) = exec i (State.reset.withFetchWord nbits w)

/-- R20, R205: a run is final exactly with the pc at the end of the text; elsewhere it ends with the first fault or refusal of a step,
and goes on with the next state of one that answers it; it is unfinished only for want of steps. Once it has ended, more steps change
nothing. -/
def Obligations.RunEndsAsItsStepsDo : Prop :=
  ∀ (stop : Word) (n : Nat) (s : State),
    ((∀ t, run stop n s = .final t → t.pc = stop)
      ∧ (∀ f t, run stop n s = .faulted f t → step t = .fault f ∧ t.pc ≠ stop)
      ∧ (∀ r t, run stop n s = .refused r t → step t = .refused r ∧ t.pc ≠ stop)
      ∧ (∀ t, run stop n s = .unfinished t → t.pc ≠ stop))
      ∧ ((s.pc = stop → run stop n s = .final s)
        ∧ (∀ f, s.pc ≠ stop → step s = .fault f → run stop (n + 1) s = .faulted f s)
        ∧ (∀ r, s.pc ≠ stop → step s = .refused r → run stop (n + 1) s = .refused r s)
        ∧ (∀ t, s.pc ≠ stop → step s = .next t → run stop (n + 1) s = run stop n t))
      ∧ ∀ m, (∀ t, run stop n s = .unfinished t → run stop (n + m) s = run stop m t)
        ∧ ((∀ t, run stop n s ≠ .unfinished t) → run stop (n + m) s = run stop n s)
end

