-- ==== Sys2Proof/Laws/Access.lean ====
section
/-! SUPPORT. What the checks before and at a memory access can answer. -/

namespace Sys2Proof.Machine

theorem pickFault_none (t : Nat) (fs : List Fault) : pickFault t fs = none ↔ fs = [] := by
  match fs with
  | [] => simp [pickFault]
  | [f] => simp [pickFault]
  | f :: g :: fs =>
    have : Config.faultPick t % (fs.length + 2) < fs.length + 2 := Nat.mod_lt _ (by omega)
    simp only [pickFault, List.getElem?_eq_none_iff, List.length_cons, reduceCtorEq, iff_false]
    omega

/-- The fault raised is one of those that apply. -/
theorem pickFault_mem (t : Nat) (fs : List Fault) (f : Fault) (h : pickFault t fs = some f) : f ∈ fs := by
  match fs with
  | [] => simp [pickFault] at h
  | [g] => simp [pickFault] at h; simp [h]
  | g :: g' :: fs => exact List.mem_of_getElem? h

/-- A page fault of the list is that of one of the bytes. -/
theorem Env.mem_pageFaults (e : Env) (sg : Seg) (ea : Word) (f : Fault) (is : List Nat) :
    ∀ pages, f ∈ e.pageFaults sg ea pages is →
      ∃ i ∈ is, ∃ c, e.xlate.lookup (e.linear sg ea i) = .fault c ∧ f = .pf c (BitVec.ofNat 64 (e.linear sg ea i)) := by
  induction is with
  | nil => intro pages h; simp [Env.pageFaults] at h
  | cons i is ih =>
    intro pages h
    have next : ∀ pages', f ∈ e.pageFaults sg ea pages' is → ∃ i' ∈ i :: is, ∃ c,
        e.xlate.lookup (e.linear sg ea i') = .fault c ∧ f = .pf c (BitVec.ofNat 64 (e.linear sg ea i')) := by
      intro pages' h'
      obtain ⟨i', hi', hc⟩ := ih pages' h'
      exact ⟨i', List.mem_cons_of_mem _ hi', hc⟩
    simp only [Env.pageFaults] at h
    split at h
    · rename_i c hc
      split at h
      · exact next _ h
      · rcases List.mem_cons.1 h with rfl | h
        · exact ⟨i, by simp, c, hc, rfl⟩
        · exact next _ h
    · exact next _ h
    · exact next _ h

/-- There is no page fault exactly when no byte is mapped to one. -/
theorem Env.pageFaults_nil (e : Env) (sg : Seg) (ea : Word) (is : List Nat) :
    e.pageFaults sg ea [] is = [] ↔ ∀ i ∈ is, ∀ c, e.xlate.lookup (e.linear sg ea i) ≠ .fault c := by
  induction is with
  | nil => simp [Env.pageFaults]
  | cons i is ih =>
    rw [List.forall_mem_cons]
    simp only [Env.pageFaults]
    split
    · rename_i c hc
      simp [hc]
    · rename_i a ha
      simp [ih, ha]
    · rename_i ha
      simp [ih, ha]

/-- The faults that apply, one by one (`60_exceptions.md` R196). -/
theorem Env.mem_memFaults (e : Env) (sg : Seg) (ea : Word) (is : List Nat) (al : Bool) (f : Fault)
    (h : f ∈ e.memFaults sg ea is al) :
    (f = segFault sg ∧ ∃ i ∈ is, e.segOk sg ea i = false)
      ∨ (f = .gp ∧ al = true ∧ e.linear sg ea 0 % 16 ≠ 0)
      ∨ ∃ i ∈ is, e.segOk sg ea i = true ∧ ∃ c, e.xlate.lookup (e.linear sg ea i) = .fault c
          ∧ f = .pf c (BitVec.ofNat 64 (e.linear sg ea i)) := by
  simp only [Env.memFaults, List.mem_append] at h
  rcases h with (h | h) | h
  · left
    split at h
    · simp at h
    · rename_i hn
      simp only [List.mem_singleton] at h
      simp only [List.all_eq_true, not_forall] at hn
      obtain ⟨i, hi, hb⟩ := hn
      exact ⟨h, i, hi, by simpa using hb⟩
  · right; left
    split at h
    · rename_i hc
      simp only [Bool.and_eq_true, bne_iff_ne] at hc
      simp only [List.mem_singleton] at h
      exact ⟨h, hc⟩
    · simp at h
  · right; right
    obtain ⟨i, hi, c, hc, hf⟩ := Env.mem_pageFaults _ _ _ _ _ _ h
    rw [List.mem_filter] at hi
    exact ⟨i, hi.1, hi.2, c, hc, hf⟩

/-- No fault applies exactly when every byte passes the segment's checks and no page fault, and the operand is aligned if it
must be. -/
theorem Env.memFaults_nil (e : Env) (sg : Seg) (ea : Word) (is : List Nat) (al : Bool) :
    e.memFaults sg ea is al = [] ↔
      (∀ i ∈ is, e.segOk sg ea i = true ∧ ∀ c, e.xlate.lookup (e.linear sg ea i) ≠ .fault c)
        ∧ (al = true → e.linear sg ea 0 % 16 = 0) := by
  simp only [Env.memFaults, List.append_eq_nil_iff, Env.pageFaults_nil, List.mem_filter]
  constructor
  · rintro ⟨⟨h1, h2⟩, h3⟩
    have hseg : ∀ i ∈ is, e.segOk sg ea i = true := by
      by_contra hc
      have : is.all (e.segOk sg ea) = false := by
        rw [Bool.eq_false_iff]
        intro ht
        exact hc (List.all_eq_true.1 ht)
      simp [this] at h1
    refine ⟨fun i hi => ⟨hseg i hi, h3 i ⟨hi, hseg i hi⟩⟩, fun ha => ?_⟩
    by_contra hc
    simp [ha, hc] at h2
  · rintro ⟨h1, h2⟩
    have hall : is.all (e.segOk sg ea) = true := List.all_eq_true.2 fun i hi => (h1 i hi).1
    refine ⟨⟨by simp [hall], ?_⟩, fun i hi => (h1 i hi.1).2⟩
    cases al with
    | false => simp
    | true => simp [h2 rfl]

/-- What the access check answers: it lets a readable access through, raises a fault that applies, or refuses a device. -/
theorem State.checkAccess_cases (s : State) (m : MemAccess) :
    (s.checkAccess m.seg m.ea m.offs m.aligned = .next () ∧ s.readable m)
      ∨ (∃ f, s.checkAccess m.seg m.ea m.offs m.aligned = .fault f ∧ f ∈ s.env.memFaults m.seg m.ea m.offs m.aligned
          ∧ ¬ s.readable m)
      ∨ (s.checkAccess m.seg m.ea m.offs m.aligned = .refused .device ∧ ¬ s.readable m
          ∧ ∃ i ∈ m.offs, s.env.xlate.lookup (s.env.linear m.seg m.ea i) = .device) := by
  unfold State.checkAccess
  cases hp : pickFault s.tick (s.env.memFaults m.seg m.ea m.offs m.aligned) with
  | some f =>
    right; left
    refine ⟨f, rfl, pickFault_mem _ _ _ hp, fun hr => ?_⟩
    have : s.env.memFaults m.seg m.ea m.offs m.aligned = [] := by
      rw [Env.memFaults_nil]
      refine ⟨fun i hi => ⟨(hr.1 i hi).1, fun c hc => ?_⟩, hr.2⟩
      obtain ⟨a, ha⟩ := (hr.1 i hi).2
      simp [ha] at hc
    simp [this, pickFault] at hp
  | none =>
    have hnil := (pickFault_none _ _).1 hp
    rw [Env.memFaults_nil] at hnil
    simp only
    split
    · rename_i hd
      right; right
      simp only [List.any_eq_true, beq_iff_eq] at hd
      obtain ⟨i, hi, hdev⟩ := hd
      refine ⟨rfl, fun hr => ?_, i, hi, hdev⟩
      obtain ⟨a, ha⟩ := (hr.1 i hi).2
      simp [ha] at hdev
    · rename_i hd
      left
      simp only [List.any_eq_true, beq_iff_eq, not_exists, not_and] at hd
      refine ⟨rfl, fun i hi => ⟨(hnil.1 i hi).1, ?_⟩, hnil.2⟩
      cases hl : s.env.xlate.lookup (s.env.linear m.seg m.ea i) with
      | ram a => exact ⟨a, rfl⟩
      | device => exact absurd hl (hd i hi)
      | fault c => exact absurd hl ((hnil.1 i hi).2 c)

/-- A readable access is let through. -/
theorem State.checkAccess_of_readable (s : State) (m : MemAccess) (h : s.readable m) :
    s.checkAccess m.seg m.ea m.offs m.aligned = .next () := by
  rcases s.checkAccess_cases m with ⟨h1, -⟩ | ⟨f, -, -, h2⟩ | ⟨-, h2, -⟩
  · exact h1
  · exact absurd h h2
  · exact absurd h h2

/-- An instruction that gets past its checks is in a covered mode, within MAXVL, with no `#UD` condition and CR0.TS = 0. -/
theorem State.guarded_next (s : State) (vl : Nat) (ud : Bool) (body : Host.Outcome State Fault Refusal) (t : State)
    (h : s.guarded vl ud body = .next t) :
    s.env.mode.covered = true ∧ vl ≤ s.env.maxvl.bits ∧ ud = false ∧ s.env.ts = false ∧ body = .next t := by
  unfold State.guarded at h
  split at h
  · cases h
  · split at h
    · cases h
    · split at h
      · cases h
      · split at h
        · cases h
        · refine ⟨by simp_all, by omega, by simp_all, by simp_all, h⟩

/-- With the mode, MAXVL, the `#UD` conditions and CR0.TS as they must be, the checks change nothing. -/
theorem State.guarded_of_enabled (s : State) (vl : Nat) (ud : Bool) (body : Host.Outcome State Fault Refusal)
    (hm : s.env.mode.covered = true) (hv : vl ≤ s.env.maxvl.bits) (hu : ud = false) (ht : s.env.ts = false) :
    s.guarded vl ud body = body := by
  simp [State.guarded, hm, Nat.not_lt.2 hv, hu, ht]

end Sys2Proof.Machine
end

