-- ==== Sys2Proof/Laws/Decode.lean ====
section
/-! SUPPORT. What the prefix scan of the decoder reads, said once. -/

namespace Sys2Proof

/-- Prefix bytes before a byte that is none are read in their order, and nothing after them (`30_encoding.md` R114 step 1). -/
theorem scanPrefixes_append (ps : List Byte) (c : Byte) (rest : List Byte) (h : ∀ b ∈ ps, (rawPrefix b).isSome = true)
    (hc : rawPrefix c = none) : scanPrefixes (ps ++ c :: rest) = (ps.filterMap rawPrefix, c :: rest) := by
  induction ps with
  | nil => simp [scanPrefixes, hc]
  | cons b bs ih =>
    obtain ⟨p, hp⟩ := Option.isSome_iff_exists.mp (h b (by simp))
    simp [scanPrefixes, hp, ih fun b' hb' => h b' (by simp [hb'])]

/-- A REX byte is no legacy prefix. -/
theorem rawPrefix_of_isRex (b : Byte) (h : isRex b = true) : rawPrefix b = none := by
  revert b; decide +kernel

/-- What a raw prefix was read from. -/
theorem rawPrefix_lock (b : Byte) : rawPrefix b = some .lock ↔ b = 0xF0 := by revert b; decide +kernel
theorem rawPrefix_repne (b : Byte) : rawPrefix b = some .repne ↔ b = 0xF2 := by revert b; decide +kernel
theorem rawPrefix_rep (b : Byte) : rawPrefix b = some .rep ↔ b = 0xF3 := by revert b; decide +kernel
theorem rawPrefix_opSize (b : Byte) : rawPrefix b = some (.admitted .opSize) ↔ b = 0x66 := by revert b; decide +kernel
theorem rawPrefix_addrSize (b : Byte) : rawPrefix b = some (.admitted .addrSize) ↔ b = 0x67 := by revert b; decide +kernel

/-- A prefix is among those scanned exactly if a byte it is read from is among the bytes. -/
theorem contains_filterMap_rawPrefix (ps : List Byte) (p : RawPrefix) (c : Byte) (h : ∀ b, rawPrefix b = some p ↔ b = c) :
    (ps.filterMap rawPrefix).contains p = ps.contains c := by
  rw [Bool.eq_iff_iff]; simp [h]

/-- As many prefixes are scanned as there are prefix bytes. -/
theorem length_filterMap_rawPrefix (ps : List Byte) (h : ∀ b ∈ ps, (rawPrefix b).isSome = true) :
    (ps.filterMap rawPrefix).length = ps.length := by
  induction ps with
  | nil => rfl
  | cons b bs ih =>
    obtain ⟨p, hp⟩ := Option.isSome_iff_exists.mp (h b (by simp))
    simp [hp, ih fun b' hb' => h b' (by simp [hb'])]

/-- The decoder past the prefixes, without a REX byte. -/
theorem decode_prefixes (m : Mode) (ps : List Byte) (c : Byte) (rest : List Byte) (hm : m.covered = true)
    (h : ∀ b ∈ ps, (rawPrefix b).isSome = true) (hc : rawPrefix c = none) (hr : isRex c = false) :
    decode m (ps ++ c :: rest) = decodeFormat m (ps.filterMap rawPrefix) none (c :: rest) := by
  simp [decode, hm, scanPrefixes_append ps c rest h hc, hr]

/-- The decoder past the prefixes and a REX byte, in M64: what follows is refused if it is a prefix or a REX byte. -/
theorem decode_prefixes_rex (ps : List Byte) (rex c : Byte) (rest : List Byte)
    (h : ∀ b ∈ ps, (rawPrefix b).isSome = true) (hr : isRex rex = true) :
    decode .m64 (ps ++ rex :: c :: rest)
      = if (rawPrefix c).isSome || isRex c then .refused .rexPlacement
        else decodeFormat .m64 (ps.filterMap rawPrefix) (some rex) (c :: rest) := by
  simp [decode, Mode.covered, scanPrefixes_append ps rex (c :: rest) h (rawPrefix_of_isRex rex hr), hr]

/-- The SIB and displacement bytes of a ModRM:r/m operand. -/
def RmField.len : RmField → Nat
  | .reg _ => 0
  | .mem a => a.len

@[simp] theorem RmField.len_toRm4 (x b : Bool) (rm : RmField) : (rm.toRm4 x b).len = rm.len := by cases rm <;> rfl
@[simp] theorem RmField.len_toRm5 (x b bcst : Bool) (rm : RmField) : (rm.toRm5 x b bcst).len = rm.len := by cases rm <;> rfl

/-- Six bytes are enough for ModRM, SIB and displacement (R105 to R107): they are read, and nothing beyond them. -/
theorem decodeModRM_of_length (x b : Bool) (bs : List Byte) (h : 6 ≤ bs.length) :
    ∃ reg rm rest, decodeModRM x b bs = some (reg, rm, rest) ∧ rest.length + 1 + rm.len = bs.length ∧ rm.len ≤ 5 := by
  match bs, h with
  | m :: s :: d0 :: d1 :: d2 :: d3 :: r, _ =>
    simp only [decodeModRM, decodeSib, takeDisp, takeDisp32]
    repeat' split
    all_goals exact ⟨_, _, _, rfl, by simp [RmField.len, Addr.len, Disp.len], by simp [RmField.len, Addr.len, Disp.len]⟩

end Sys2Proof
end

