-- ==== Sys2Proof/Laws/Elements.lean ====
section
/-! SUPPORT. The laws of vector elements: what a packed vector holds, bit by bit and element by element; the maximum. -/

namespace Sys2Proof.Machine

/-- Bit `k` of a packed vector is a bit of element `k / w`. -/
theorem getLsbD_pack (w n : Nat) (f : Nat → BitVec w) (hw : 0 < w) (k : Nat) :
    (pack w n f).getLsbD k = (decide (k < n * w) && decide (k < 512) && (f (k / w)).getLsbD (k % w)) := by
  induction n with
  | zero => simp [pack]
  | succ n ih =>
    simp only [pack, BitVec.getLsbD_or, ih, BitVec.getLsbD_shiftLeft, BitVec.getLsbD_setWidth]
    by_cases h1 : k < n * w
    · have : k < (n + 1) * w := by rw [Nat.succ_mul]; omega
      simp [h1, this]
    · by_cases h2 : k < (n + 1) * w
      · have hdiv : k / w = n :=
          Nat.div_eq_of_lt_le (Nat.le_of_not_lt h1) h2
        have hmod : k % w = k - n * w := by
          have := Nat.div_add_mod k w
          rw [hdiv, Nat.mul_comm] at this
          omega
        by_cases h3 : k < 512
        · have : k - n * w < 512 := by omega
          simp [h1, h2, h3, hdiv, hmod, this]
        · simp [h1, h3]
      · have h3 : ¬ k - n * w < w := by rw [Nat.succ_mul] at h2; omega
        have : (f n).getLsbD (k - n * w) = false := BitVec.getLsbD_of_ge _ _ (by omega)
        simp [h1, h2, this]

/-- The elements of a packed vector are the ones packed. -/
theorem elem_pack (w n : Nat) (f : Nat → BitVec w) (hw : 0 < w) (hn : n * w ≤ 512) (j : Nat) (hj : j < n) :
    elem w (pack w n f) j = f j := by
  apply BitVec.eq_of_getLsbD_eq
  intro i hi
  have h1 : (j + 1) * w ≤ n * w := Nat.mul_le_mul_right w hj
  rw [Nat.succ_mul] at h1
  have hdiv : (j * w + i) / w = j := by
    rw [Nat.mul_comm, Nat.mul_add_div hw, Nat.div_eq_of_lt hi, Nat.add_zero]
  have hmod : (j * w + i) % w = i := by
    rw [Nat.mul_comm, Nat.mul_add_mod, Nat.mod_eq_of_lt hi]
  have h3 : j * w + i < n * w := by omega
  have h4 : j * w + i < 512 := by omega
  rw [elem, BitVec.getLsbD_extractLsb', getLsbD_pack w n f hw, hdiv, hmod]
  simp [hi, h3, h4]

/-- A packed vector is 0 above its elements. -/
theorem pack_zero_above (w n : Nat) (f : Nat → BitVec w) (hw : 0 < w) (k : Nat) (hk : n * w ≤ k) :
    (pack w n f).getLsbD k = false := by
  rw [getLsbD_pack w n f hw]
  simp [Nat.not_lt.2 hk]

/-- Packing reads only the elements it packs. -/
theorem pack_congr (w n : Nat) (f g : Nat → BitVec w) (h : ∀ j, j < n → f j = g j) : pack w n f = pack w n g := by
  induction n with
  | zero => rfl
  | succ n ih =>
    simp only [pack]
    rw [ih fun j hj => h j (by omega), h n (by omega)]

/-- Bit `k` of a merged vector: the new one's below `vl`, the old one's above. -/
theorem getLsbD_mergeLow (vl : Nat) (old r : Vec) (k : Nat) :
    (mergeLow vl old r).getLsbD k = if k < vl then r.getLsbD k else old.getLsbD k := by
  by_cases h512 : k < 512
  · simp only [mergeLow, BitVec.getLsbD_or, BitVec.getLsbD_and, BitVec.getLsbD_ofNat, BitVec.getLsbD_shiftLeft,
      BitVec.getLsbD_ushiftRight, Nat.testBit_two_pow_sub_one]
    by_cases h : k < vl
    · simp [h, h512]
    · have : vl + (k - vl) = k := by omega
      simp [h, h512, this]
  · have h1 : (mergeLow vl old r).getLsbD k = false := BitVec.getLsbD_of_ge _ _ (by omega)
    have h2 : r.getLsbD k = false := BitVec.getLsbD_of_ge _ _ (by omega)
    have h3 : old.getLsbD k = false := BitVec.getLsbD_of_ge _ _ (by omega)
    simp [h1, h2, h3]

/-- A low element of a merged vector is the new one's. -/
theorem elem_mergeLow (w vl : Nat) (old r : Vec) (j : Nat) (h : (j + 1) * w ≤ vl) :
    elem w (mergeLow vl old r) j = elem w r j := by
  apply BitVec.eq_of_getLsbD_eq
  intro i hi
  rw [Nat.succ_mul] at h
  have : j * w + i < vl := by omega
  simp [elem, getLsbD_mergeLow, this]

/-- The maximum is the larger number. -/
theorem umax_toNat {w : Nat} (a b : BitVec w) : (umax a b).toNat = max a.toNat b.toNat := by
  unfold umax
  split
  · rename_i h
    have : b.toNat < a.toNat := h
    omega
  · rename_i h
    have : ¬ b.toNat < a.toNat := h
    omega

/-- The maximum of two values does not depend on their order. -/
theorem umax_comm {w : Nat} (a b : BitVec w) : umax a b = umax b a :=
  BitVec.eq_of_toNat_eq (by rw [umax_toNat, umax_toNat, Nat.max_comm])

/-- The maximum of a value with itself. -/
@[simp] theorem umax_self {w : Nat} (a : BitVec w) : umax a a = a :=
  BitVec.eq_of_toNat_eq (by rw [umax_toNat, Nat.max_self])

/-- Taking the maximum with the same value again changes nothing. -/
theorem umax_umax {w : Nat} (a b : BitVec w) : umax (umax a b) b = umax a b :=
  BitVec.eq_of_toNat_eq (by rw [umax_toNat, umax_toNat]; omega)

end Sys2Proof.Machine
end

