-- ==== Sys2Proof/Laws/State.lean ====
section
/-! SUPPORT. One lemma per field per update of State, so that no proof unfolds a record update; and what the register accessors
read after an update. -/

namespace Sys2Proof.Machine

@[simp] theorem State.setV_k (s : State) (n : BitVec 5) (val : Vec) : (s.setV n val).k = s.k := rfl
@[simp] theorem State.setV_x (s : State) (n : BitVec 5) (val : Vec) : (s.setV n val).x = s.x := rfl
@[simp] theorem State.setV_pc (s : State) (n : BitVec 5) (val : Vec) : (s.setV n val).pc = s.pc := rfl
@[simp] theorem State.setV_eflags (s : State) (n : BitVec 5) (val : Vec) : (s.setV n val).eflags = s.eflags := rfl
@[simp] theorem State.setV_mxcsr (s : State) (n : BitVec 5) (val : Vec) : (s.setV n val).mxcsr = s.mxcsr := rfl
@[simp] theorem State.setV_cr2 (s : State) (n : BitVec 5) (val : Vec) : (s.setV n val).cr2 = s.cr2 := rfl
@[simp] theorem State.setV_mem (s : State) (n : BitVec 5) (val : Vec) : (s.setV n val).mem = s.mem := rfl
@[simp] theorem State.setV_env (s : State) (n : BitVec 5) (val : Vec) : (s.setV n val).env = s.env := rfl
@[simp] theorem State.setV_tick (s : State) (n : BitVec 5) (val : Vec) : (s.setV n val).tick = s.tick := rfl

@[simp] theorem State.retire_v (s : State) (len : Nat) : (s.retire len).v = s.v := rfl
@[simp] theorem State.retire_k (s : State) (len : Nat) : (s.retire len).k = s.k := rfl
@[simp] theorem State.retire_x (s : State) (len : Nat) : (s.retire len).x = s.x := rfl
@[simp] theorem State.retire_pc (s : State) (len : Nat) : (s.retire len).pc = s.nextPc len := rfl
@[simp] theorem State.retire_eflags (s : State) (len : Nat) : (s.retire len).eflags = s.eflags := rfl
@[simp] theorem State.retire_mxcsr (s : State) (len : Nat) : (s.retire len).mxcsr = s.mxcsr := rfl
@[simp] theorem State.retire_cr2 (s : State) (len : Nat) : (s.retire len).cr2 = s.cr2 := rfl
@[simp] theorem State.retire_mem (s : State) (len : Nat) : (s.retire len).mem = s.mem := rfl
@[simp] theorem State.retire_env (s : State) (len : Nat) : (s.retire len).env = s.env := rfl
@[simp] theorem State.retire_tick (s : State) (len : Nat) : (s.retire len).tick = s.tick + 1 := rfl

@[simp] theorem State.readV_setV_same (s : State) (n : BitVec 5) (val : Vec) : (s.setV n val).readV n = val := by
  simp [State.readV, State.setV]

theorem State.readV_setV_other (s : State) (n m : BitVec 5) (val : Vec) (h : m ≠ n) :
    (s.setV n val).readV m = s.readV m := by
  have h' : n.toNat ≠ m.toNat := fun e => h (BitVec.eq_of_toNat_eq e.symm)
  simp [State.readV, State.setV, h']

@[simp] theorem State.readV_retire (s : State) (len : Nat) (n : BitVec 5) : (s.retire len).readV n = s.readV n := rfl
@[simp] theorem State.readK_setV (s : State) (n : BitVec 5) (val : Vec) (a : BitVec 3) : (s.setV n val).readK a = s.readK a := rfl
@[simp] theorem State.readK_retire (s : State) (len : Nat) (a : BitVec 3) : (s.retire len).readK a = s.readK a := rfl
@[simp] theorem State.readX_setV (s : State) (n : BitVec 5) (val : Vec) (a : BitVec 4) : (s.setV n val).readX a = s.readX a := rfl
@[simp] theorem State.readX_retire (s : State) (len : Nat) (a : BitVec 4) : (s.retire len).readX a = s.readX a := rfl
@[simp] theorem State.nextPc_setV (s : State) (n : BitVec 5) (val : Vec) (len : Nat) :
    (s.setV n val).nextPc len = s.nextPc len := rfl

@[simp] theorem State.afterInit_v (s : State) : s.afterInit.v = s.v := rfl
@[simp] theorem State.afterInit_k (s : State) : s.afterInit.k = s.k := rfl
@[simp] theorem State.afterInit_x (s : State) : s.afterInit.x = State.reset.x := rfl
@[simp] theorem State.afterInit_pc (s : State) : s.afterInit.pc = 0xFFF0 := rfl
@[simp] theorem State.afterInit_eflags (s : State) : s.afterInit.eflags = 2 := rfl
@[simp] theorem State.afterInit_mxcsr (s : State) : s.afterInit.mxcsr = s.mxcsr := rfl
@[simp] theorem State.afterInit_cr2 (s : State) : s.afterInit.cr2 = 0 := rfl
@[simp] theorem State.afterInit_mem (s : State) : s.afterInit.mem = s.mem := rfl
@[simp] theorem State.afterInit_tick (s : State) : s.afterInit.tick = s.tick := rfl
@[simp] theorem State.readV_afterInit (s : State) (n : BitVec 5) : s.afterInit.readV n = s.readV n := rfl
@[simp] theorem State.readK_afterInit (s : State) (n : BitVec 3) : s.afterInit.readK n = s.readK n := rfl
@[simp] theorem State.readX_afterInit (s : State) (n : BitVec 4) : s.afterInit.readX n = State.reset.readX n := rfl

/-- The part of ENV that INIT keeps, and what it sets. -/
theorem State.afterInit_env (s : State) :
    s.afterInit.env = { s.env with
      mode := .real, cr0 := (0x60000010 &&& ~~~cacheBits) ||| (s.env.cr0 &&& cacheBits), cr4 := 0, xlate := .afterReset } := rfl

/-- Storing text changes nothing but memory. -/
theorem State.storeText_only_mem (s : State) (bs : List Byte) :
    ∀ i, s.storeText i bs = { s with mem := (s.storeText i bs).mem } := by
  induction bs with
  | nil => intro i; rfl
  | cons b bs ih =>
    intro i
    simp only [State.storeText]
    cases s.textAddr i with
    | none => exact ih (i + 1)
    | some a => simp only; rw [ih (i + 1)]

@[simp] theorem State.storeText_env (s : State) (i : Nat) (bs : List Byte) : (s.storeText i bs).env = s.env := by
  rw [State.storeText_only_mem]

@[simp] theorem State.storeText_pc (s : State) (i : Nat) (bs : List Byte) : (s.storeText i bs).pc = s.pc := by
  rw [State.storeText_only_mem]

/-- A machine in a mode the spec covers is launched already. -/
theorem State.launch_of_covered (s : State) (h : s.env.mode.covered = true) : s.launch = s := by
  simp [State.launch, h]

/-- After the launch the mode is one the spec covers. -/
theorem State.launch_covered (s : State) : s.launch.env.mode.covered = true := by
  unfold State.launch
  split
  · assumption
  · rfl

end Sys2Proof.Machine
end

