-- ==== Sys2Proof/Laws/Exec.lean ====
section
/-! SUPPORT. What an instruction and a step can answer, said once. -/

namespace Sys2Proof.Machine

/-- The state in which the checks before the operands let an instruction go on (`60_exceptions.md` R199 steps 1 to 3). -/
def State.enabled (s : State) (i : Instr) : Prop :=
  s.env.mode.covered = true ∧ i.vl ≤ s.env.maxvl.bits ∧ s.udFor i = false ∧ s.env.ts = false

/-- What reading a second source can answer, given the access it makes: the source's elements, a fault that applies, or the
refusal of a device. -/
def SourceAnswers {α : Type} (s : State) (acc : Option MemAccess) (r : Host.Outcome α Fault Refusal) : Prop :=
  (∃ b, r = .next b ∧ ∀ m, acc = some m → s.readable m)
    ∨ (∃ m f, acc = some m ∧ r = .fault f ∧ f ∈ s.env.memFaults m.seg m.ea m.offs m.aligned ∧ ¬ s.readable m)
    ∨ ∃ m, acc = some m ∧ r = .refused .device ∧ ¬ s.readable m
        ∧ ∃ i ∈ m.offs, s.env.xlate.lookup (s.env.linear m.seg m.ea i) = .device

/-- A memory source answers as its access check does. -/
theorem sourceAnswers_mem {α : Type} (s : State) (m : MemAccess) (b : α) :
    SourceAnswers s (some m) (andThen (s.checkAccess m.seg m.ea m.offs m.aligned) fun _ => .next b) := by
  rcases s.checkAccess_cases m with ⟨h1, h2⟩ | ⟨f, h1, h2, h3⟩ | ⟨h1, h2, h3⟩
  · exact .inl ⟨b, by rw [h1]; rfl, fun m' hm => Option.some.inj hm ▸ h2⟩
  · exact .inr (.inl ⟨m, f, rfl, by rw [h1]; rfl, h2, h3⟩)
  · exact .inr (.inr ⟨m, rfl, by rw [h1]; rfl, h2, h3⟩)

/-- What reading the second source of a legacy or VEX form can answer. -/
theorem State.plainSource_cases (s : State) (ps : List Prefix) (vl len : Nat) (al : Bool) (src : Rm4) :
    SourceAnswers s (s.plainAccess ps vl len al src) (s.plainSource ps vl len al src) := by
  cases src with
  | reg x n => exact .inl ⟨_, rfl, fun m hm => by simp [State.plainAccess] at hm⟩
  | mem a =>
    exact sourceAnswers_mem s ⟨(s.memRef ps 1 len a).1, (s.memRef ps 1 len a).2, List.range (vl / 8), al⟩ _

/-- What reading the second source of an EVEX form can answer. -/
theorem State.maskedSource_cases (s : State) (w vl : Nat) (o : EvexOps) :
    SourceAnswers s (s.maskedAccess w vl o) (s.maskedSource o.prefixes w vl o.len o.aaa o.src) := by
  unfold State.maskedAccess
  cases o.src with
  | reg n => exact .inl ⟨_, rfl, fun m hm => by simp at hm⟩
  | mem bcst a =>
    exact sourceAnswers_mem s ⟨(s.memRef o.prefixes (dispScale w vl bcst) o.len a).1,
      (s.memRef o.prefixes (dispScale w vl bcst) o.len a).2, s.accessed w (vl / w) o.aaa bcst, false⟩ _

/-- Everything an instruction can answer: a refusal of the mode or of MAXVL; `#UD`; `#NM`; a memory fault that applies; the
refusal of a device; or, when it is enabled and its access readable, the next state, in which only the destination, the pc and
the model's counter may differ. -/
def ExecAnswers (s : State) (i : Instr) (r : Host.Outcome State Fault Refusal) : Prop :=
  (r = .refused .mode ∧ s.env.mode.covered = false)
    ∨ (r = .refused .vlOverMaxvl ∧ s.env.mode.covered = true ∧ s.env.maxvl.bits < i.vl)
    ∨ (r = .fault .ud ∧ s.env.mode.covered = true ∧ i.vl ≤ s.env.maxvl.bits ∧ s.udFor i = true)
    ∨ (r = .fault .nm ∧ s.env.mode.covered = true ∧ i.vl ≤ s.env.maxvl.bits ∧ s.udFor i = false ∧ s.env.ts = true)
    ∨ (∃ m f, s.enabled i ∧ s.access i = some m ∧ r = .fault f
        ∧ f ∈ s.env.memFaults m.seg m.ea m.offs m.aligned ∧ ¬ s.readable m)
    ∨ (∃ m, s.enabled i ∧ s.access i = some m ∧ r = .refused .device ∧ ¬ s.readable m
        ∧ ∃ j ∈ m.offs, s.env.xlate.lookup (s.env.linear m.seg m.ea j) = .device)
    ∨ (s.enabled i ∧ (∀ m, s.access i = some m → s.readable m)
        ∧ ∃ val, r = .next ((s.setV i.dest val).retire i.ilen))

/-- The checks, then a source, then a write of the destination: the shape of every meaning. -/
theorem execAnswers_of_guarded {α : Type} (s : State) (i : Instr) (src : Host.Outcome α Fault Refusal) (val : α → Vec)
    (h : SourceAnswers s (s.access i) src) :
    ExecAnswers s i
      (s.guarded i.vl (s.udFor i) (andThen src fun b => .next ((s.setV i.dest (val b)).retire i.ilen))) := by
  unfold State.guarded
  cases hm : s.env.mode.covered with
  | false => exact .inl ⟨rfl, hm⟩
  | true =>
    by_cases hv : s.env.maxvl.bits < i.vl
    · exact .inr (.inl ⟨by simp [hv], hm, hv⟩)
    · cases hu : s.udFor i with
      | true => exact .inr (.inr (.inl ⟨by simp [hv, takeException], hm, by omega, hu⟩))
      | false =>
        cases ht : s.env.ts with
        | true => exact .inr (.inr (.inr (.inl ⟨by simp [hv, takeException], hm, by omega, hu, ht⟩)))
        | false =>
          have hen : s.enabled i := ⟨hm, by omega, hu, ht⟩
          simp only [hv, Bool.not_true, Bool.false_eq_true, if_false]
          rcases h with ⟨b, rfl, hr⟩ | ⟨m, f, ha, rfl, hf, hn⟩ | ⟨m, ha, rfl, hn, hd⟩
          · exact .inr (.inr (.inr (.inr (.inr (.inr ⟨hen, hr, val b, rfl⟩)))))
          · exact .inr (.inr (.inr (.inr (.inl ⟨m, f, hen, ha, rfl, hf, hn⟩))))
          · exact .inr (.inr (.inr (.inr (.inr (.inl ⟨m, hen, ha, rfl, hn, hd⟩)))))

/-- What every instruction can answer. -/
theorem exec_cases (i : Instr) (s : State) : ExecAnswers s i (exec i s) := by
  cases i with
  | pmaxud o =>
    exact execAnswers_of_guarded s (.pmaxud o) _ _ (s.plainSource_cases o.prefixes 128 (o.len false) true o.src)
  | pmaxudRex w o =>
    exact execAnswers_of_guarded s (.pmaxudRex w o) _ _ (s.plainSource_cases o.prefixes 128 (o.len true) true o.src)
  | vpmaxudVex128 o =>
    exact execAnswers_of_guarded s (.vpmaxudVex128 o) _ _ (s.plainSource_cases o.prefixes 128 o.len false o.src)
  | vpmaxudVex256 o =>
    exact execAnswers_of_guarded s (.vpmaxudVex256 o) _ _ (s.plainSource_cases o.prefixes 256 o.len false o.src)
  | vpmaxudEvex128 o => exact execAnswers_of_guarded s (.vpmaxudEvex128 o) _ _ (s.maskedSource_cases 32 128 o)
  | vpmaxudEvex256 o => exact execAnswers_of_guarded s (.vpmaxudEvex256 o) _ _ (s.maskedSource_cases 32 256 o)
  | vpmaxudEvex512 o => exact execAnswers_of_guarded s (.vpmaxudEvex512 o) _ _ (s.maskedSource_cases 32 512 o)
  | vpmaxuqEvex128 o => exact execAnswers_of_guarded s (.vpmaxuqEvex128 o) _ _ (s.maskedSource_cases 64 128 o)
  | vpmaxuqEvex256 o => exact execAnswers_of_guarded s (.vpmaxuqEvex256 o) _ _ (s.maskedSource_cases 64 256 o)
  | vpmaxuqEvex512 o => exact execAnswers_of_guarded s (.vpmaxuqEvex512 o) _ _ (s.maskedSource_cases 64 512 o)

/-- An instruction that answers a next state changes only its destination register, the pc and the model's counter. -/
theorem exec_next_shape (i : Instr) (s t : State) (h : exec i s = .next t) :
    ∃ val, t = (s.setV i.dest val).retire i.ilen := by
  rcases exec_cases i s with h' | h' | h' | h' | ⟨_, _, h'⟩ | ⟨_, h'⟩ | ⟨_, _, val, h'⟩
  · simp [h] at h'
  · simp [h] at h'
  · simp [h] at h'
  · simp [h] at h'
  · simp [h] at h'
  · simp [h] at h'
  · exact ⟨val, by rw [h] at h'; exact Host.Outcome.next.inj h'⟩

/-- What a step that answers a next state has done: it has decoded an instruction from the text, the pc's run holds the
instruction and the next pc, and the instruction's meaning has answered that state. -/
theorem step_next (s t : State) (h : step s = .next t) :
    s.env.mode.covered = true ∧ ∃ i, decode s.env.mode s.fetch = .ok i ∧ s.runOk i.ilen = true ∧ exec i s = .next t := by
  unfold step at h
  split at h
  · cases h
  · rename_i hm
    refine ⟨by simpa using hm, ?_⟩
    split at h
    · rename_i i hd
      split at h
      · rename_i hr
        exact ⟨i, hd, hr, h⟩
      · cases h
    · cases h
    · split at h <;> cases h
    · cases h

/-- A step that ends in a fault: the text is `#UD`, or the decoded instruction's meaning faults. -/
theorem step_fault (s : State) (f : Fault) (h : step s = .fault f) :
    s.env.mode.covered = true ∧ ((decode s.env.mode s.fetch = .ud ∧ f = .ud)
      ∨ ∃ i, decode s.env.mode s.fetch = .ok i ∧ s.runOk i.ilen = true ∧ exec i s = .fault f) := by
  unfold step at h
  split at h
  · cases h
  · rename_i hm
    refine ⟨by simpa using hm, ?_⟩
    split at h
    · rename_i i hd
      split at h
      · rename_i hr
        exact .inr ⟨i, hd, hr, h⟩
      · cases h
    · rename_i hd
      exact .inl ⟨hd, by cases h; rfl⟩
    · split at h <;> cases h
    · cases h

end Sys2Proof.Machine
end

