-- ==== Sys2Proof/Laws/Memory.lean ====
section
/-! SUPPORT. The laws of memory: a write is read back, leaves every other byte, and keeps the canonical form; memories in that
form that read alike are equal. -/

namespace Sys2Proof.Machine

/-- Every address of `m` lies above `a`. -/
def Memory.above (a : Nat) (m : List Host.Cell) : Prop := ∀ p ∈ m, a < p.1

theorem Memory.wf_nil : Memory.wf [] = true := by decide

theorem Memory.wf_cons (p : Host.Cell) (m : List Host.Cell) :
    Memory.wf (p :: m) = true ↔ Memory.above p.1 m ∧ p.2 ≠ Memory.unlisted ∧ Memory.wf m = true := by
  simp only [Memory.wf, Memory.above, List.pairwise_cons, List.all_cons, Bool.and_eq_true, decide_eq_true_eq, bne_iff_ne]
  tauto

/-- An address below every listed one is unlisted. -/
theorem Memory.read_above (m : List Host.Cell) (a : Nat) (h : Memory.above a m) : Memory.read m a = Memory.unlisted := by
  induction m with
  | nil => rfl
  | cons p m ih =>
    have h1 : a < p.1 := h p (by simp)
    have h2 : Memory.above a m := fun q hq => h q (by simp [hq])
    simp [Memory.read, Nat.ne_of_lt h1, ih h2]

theorem Memory.above_write (c a : Nat) (b : Byte) (m : List Host.Cell) (hc : c < a) (h : Memory.above c m) :
    Memory.above c (Memory.write a b m) := by
  induction m with
  | nil =>
    unfold Memory.write
    split
    · exact h
    · intro p hp; simp at hp; subst hp; exact hc
  | cons p m ih =>
    have h1 : c < p.1 := h p (by simp)
    have h2 : Memory.above c m := fun q hq => h q (by simp [hq])
    unfold Memory.write
    split
    · split
      · exact h
      · intro q hq
        rcases List.mem_cons.1 hq with rfl | hq
        · exact hc
        · exact h q hq
    · split
      · split
        · exact h2
        · intro q hq
          rcases List.mem_cons.1 hq with rfl | hq
          · exact hc
          · exact h2 q hq
      · intro q hq
        rcases List.mem_cons.1 hq with rfl | hq
        · exact h1
        · exact ih h2 q hq

/-- A write keeps the canonical form. -/
theorem Memory.write_wf (a : Nat) (b : Byte) (m : List Host.Cell) (h : Memory.wf m = true) :
    Memory.wf (Memory.write a b m) = true := by
  induction m with
  | nil =>
    unfold Memory.write
    split
    · exact h
    · rename_i hb
      rw [Memory.wf_cons]
      exact ⟨fun _ hp => absurd hp (by simp), hb, h⟩
  | cons p m ih =>
    obtain ⟨h1, h2, h3⟩ := (Memory.wf_cons p m).1 h
    unfold Memory.write
    split
    · rename_i hlt
      split
      · exact h
      · rename_i hb
        rw [Memory.wf_cons]
        refine ⟨fun q hq => ?_, hb, h⟩
        rcases List.mem_cons.1 hq with rfl | hq
        · exact hlt
        · exact Nat.lt_trans hlt (h1 q hq)
    · split
      · rename_i he
        split
        · exact h3
        · rename_i hb
          rw [Memory.wf_cons]
          exact ⟨fun q hq => he ▸ h1 q hq, hb, h3⟩
      · rename_i hn he
        rw [Memory.wf_cons]
        exact ⟨Memory.above_write _ _ _ _ (by omega) h1, h2, ih h3⟩

/-- Reading the byte just written. -/
theorem Memory.read_write_same (a : Nat) (b : Byte) (m : List Host.Cell) (h : Memory.wf m = true) :
    Memory.read (Memory.write a b m) a = b := by
  induction m with
  | nil =>
    unfold Memory.write
    split
    · rename_i hb; simp [Memory.read, hb]
    · simp [Memory.read]
  | cons p m ih =>
    obtain ⟨h1, -, h3⟩ := (Memory.wf_cons p m).1 h
    unfold Memory.write
    split
    · rename_i hlt
      split
      · rename_i hb
        rw [hb]
        exact Memory.read_above _ _ fun q hq => by
          rcases List.mem_cons.1 hq with rfl | hq
          · exact hlt
          · exact Nat.lt_trans hlt (h1 q hq)
      · simp [Memory.read]
    · split
      · rename_i he
        split
        · rename_i hb
          rw [hb]
          exact Memory.read_above _ _ (he ▸ h1)
        · simp [Memory.read]
      · rename_i he
        simp [Memory.read, he, ih h3]

/-- Reading any other byte. -/
theorem Memory.read_write_other (a c : Nat) (b : Byte) (m : List Host.Cell) (hc : c ≠ a) (h : Memory.wf m = true) :
    Memory.read (Memory.write a b m) c = Memory.read m c := by
  induction m with
  | nil =>
    unfold Memory.write
    split
    · rfl
    · simp [Memory.read, hc]
  | cons p m ih =>
    obtain ⟨h1, -, h3⟩ := (Memory.wf_cons p m).1 h
    unfold Memory.write
    split
    · split
      · rfl
      · simp [Memory.read, hc]
    · split
      · rename_i he
        have hp : c ≠ p.1 := fun e => hc (e.trans he.symm)
        split
        · simp [Memory.read, hp]
        · simp [Memory.read, hc, hp]
      · simp [Memory.read, ih h3]

/-- Memories in canonical form that read alike are equal. -/
theorem Memory.ext_read (m m' : List Host.Cell) (h : Memory.wf m = true) (h' : Memory.wf m' = true)
    (hr : ∀ a, Memory.read m a = Memory.read m' a) : m = m' := by
  induction m generalizing m' with
  | nil =>
    cases m' with
    | nil => rfl
    | cons q m' =>
      obtain ⟨-, hq, -⟩ := (Memory.wf_cons q m').1 h'
      have := hr q.1
      simp [Memory.read] at this
      exact absurd this.symm hq
  | cons p m ih =>
    obtain ⟨hp1, hp2, hp3⟩ := (Memory.wf_cons p m).1 h
    cases m' with
    | nil =>
      have := hr p.1
      simp [Memory.read] at this
      exact absurd this hp2
    | cons q m' =>
      obtain ⟨hq1, hq2, hq3⟩ := (Memory.wf_cons q m').1 h'
      have hpq : p.1 = q.1 := by
        rcases Nat.lt_trichotomy p.1 q.1 with hlt | he | hlt
        · have := hr p.1
          simp only [Memory.read, if_true, if_neg (Nat.ne_of_lt hlt)] at this
          rw [Memory.read_above m' p.1 fun r hr' => Nat.lt_trans hlt (hq1 r hr')] at this
          exact absurd this hp2
        · exact he
        · have := hr q.1
          simp only [Memory.read, if_true, if_neg (Nat.ne_of_lt hlt)] at this
          rw [Memory.read_above m q.1 fun r hr' => Nat.lt_trans hlt (hp1 r hr')] at this
          exact absurd this.symm hq2
      have hb : p.2 = q.2 := by
        have := hr p.1
        simpa [Memory.read, hpq] using this
      have hrest : m = m' := by
        refine ih m' hp3 hq3 fun a => ?_
        by_cases ha : a = p.1
        · rw [ha, Memory.read_above m _ hp1, hpq, Memory.read_above m' _ hq1]
        · have := hr a
          simpa [Memory.read, ha, hpq ▸ ha] using this
      rw [hrest, Prod.ext hpq hb]

/-- Storing text keeps the canonical form. -/
theorem State.storeText_wf (s : State) (bs : List Byte) (h : Memory.wf s.mem = true) :
    ∀ i, Memory.wf (s.storeText i bs).mem = true := by
  induction bs with
  | nil => intro i; exact h
  | cons b bs ih =>
    intro i
    simp only [State.storeText]
    cases s.textAddr i with
    | none => exact ih (i + 1)
    | some a => exact Memory.write_wf _ _ _ (ih (i + 1))

end Sys2Proof.Machine
end

