-- ==== Sys2Proof/Laws/PerInstr.lean ====
section
/-! SUPPORT. The statements made per instruction. Family `EncodeLength`: the encoder writes as many bytes as `ilen` says, which
is what the pc advances by (`30_encoding.md` R113). -/

namespace Sys2Proof.Laws

theorem dispBytes_length (d : Disp) : d.bytes.length = d.len := by cases d <;> rfl

theorem addrBytes_length (reg : BitVec 3) (a : Addr) : (a.bytes reg).length = 1 + a.len := by
  cases a <;> simp [Addr.bytes, Addr.len, dispBytes_length, le32Bytes] <;> omega

theorem rm4Bytes_length (reg : BitVec 3) (r : Rm4) : (r.bytes reg).length = 1 + r.len := by
  cases r <;> simp [Rm4.bytes, Rm4.len, addrBytes_length]

theorem rm5Bytes_length (reg : BitVec 3) (r : Rm5) : (r.bytes reg).length = 1 + r.len := by
  cases r <;> simp [Rm5.bytes, Rm5.len, addrBytes_length]

theorem legacyEncode_length (rex : List Byte) (o : LegacyOps) :
    (o.encode rex).length = o.prefixes.length + rex.length + 3 + 1 + o.src.len := by
  simp [LegacyOps.encode, rm4Bytes_length]; omega

theorem vexEncode_length (l : Bool) (o : VexOps) : (o.encode l).length = o.len := by
  simp [VexOps.encode, VexOps.len, rm4Bytes_length]; omega

theorem evexEncode_length (w : Bool) (ll : BitVec 2) (o : EvexOps) : (o.encode w ll).length = o.len := by
  simp [EvexOps.encode, EvexOps.len, rm5Bytes_length]; omega

namespace EncodeLength

/-- The encoding of an instruction has the length `ilen`. -/
def Statement (i : Instr) : Prop := (encode i).length = i.ilen

theorem pmaxud (o : LegacyOps) : Statement (.pmaxud o) := legacyEncode_length [] o
theorem pmaxudRex (w : Bool) (o : LegacyOps) : Statement (.pmaxudRex w o) := legacyEncode_length [_] o
theorem vpmaxudVex128 (o : VexOps) : Statement (.vpmaxudVex128 o) := vexEncode_length _ o
theorem vpmaxudVex256 (o : VexOps) : Statement (.vpmaxudVex256 o) := vexEncode_length _ o
theorem vpmaxudEvex128 (o : EvexOps) : Statement (.vpmaxudEvex128 o) := evexEncode_length _ _ o
theorem vpmaxudEvex256 (o : EvexOps) : Statement (.vpmaxudEvex256 o) := evexEncode_length _ _ o
theorem vpmaxudEvex512 (o : EvexOps) : Statement (.vpmaxudEvex512 o) := evexEncode_length _ _ o
theorem vpmaxuqEvex128 (o : EvexOps) : Statement (.vpmaxuqEvex128 o) := evexEncode_length _ _ o
theorem vpmaxuqEvex256 (o : EvexOps) : Statement (.vpmaxuqEvex256 o) := evexEncode_length _ _ o
theorem vpmaxuqEvex512 (o : EvexOps) : Statement (.vpmaxuqEvex512 o) := evexEncode_length _ _ o

end EncodeLength

end Sys2Proof.Laws
end

