-- ==== Sys2Proof/Tests/Slice0.lean ====
section
/-! SUPPORT. The model's own tests: WellFormed's checks, decoding, one step per form, and for every statement with hypotheses a
witness that meets them. Words and expected values are those of `95_test_vectors.md`, or written out by hand from
`30_encoding.md`; none is the model's own answer. -/

namespace Sys2Proof.Tests

open Sys2Proof.Machine Sys2Proof.Claims

set_option Elab.async false

/-! ## Helpers -/

def nextOf : Host.Outcome State Fault Refusal → Option State
  | .next t => some t
  | .fault _ => none
  | .refused _ => none

def faultOf : Host.Outcome State Fault Refusal → Option Fault
  | .next _ => none
  | .fault f => some f
  | .refused _ => none

def refusalOf : Host.Outcome State Fault Refusal → Option Refusal
  | .next _ => none
  | .fault _ => none
  | .refused r => some r

/-- A vector from its elements of width `w`, the highest first. -/
def vec (w : Nat) (l : List Nat) : Vec := l.foldl (fun acc x => (acc <<< w) ||| BitVec.ofNat 512 x) 0

/-- The conventions of `95_test_vectors.md`: M64, everything enabled, flat Translate; pc = 1000h. -/
def base64 : State :=
  { State.reset with
    pc := 0x1000
    env := { Env.afterReset with mode := .m64, cr0 := 0x60000010, cr4 := 0x40200, xcr0 := 0xE7 } }

/-- The same in M32, with segments that reach the whole 32-bit space. -/
def base32 : State :=
  let g : Segment := ⟨0, 0, 0xFFFFFFFF, true⟩
  { base64 with
    env := { base64.env with mode := .m32, xlate := { Translate.afterReset with es := g, cs := g, ss := g, ds := g, fs := g, gs := g } } }

def putV (n : Nat) (val : Vec) (s : State) : State := s.setV (BitVec.ofNat 5 n) val

def putK (n : Nat) (val : Word) (s : State) : State := { s with k := s.k.setIfInBounds n val }

def putX (n : Nat) (val : Word) (s : State) : State := { s with x := s.x.setIfInBounds n val }

def putMem (a : Nat) : List Byte → State → State
  | [], s => s
  | b :: bs, s => putMem (a + 1) bs { s with mem := Memory.write a b s.mem }

/-- Only the text's page and the bytes `first` to `last` are mapped; any other byte gives `#PF` (code 4 at level 3, else 0). -/
def onlyMapped (first last : Nat) (s : State) : State :=
  { s with env := { s.env with xlate := { s.env.xlate with
      regions := [⟨0x1000, 0x1FFF, .ram 0x1000, .ram 0x1000⟩, ⟨first, last, .ram first, .ram first⟩]
      restSup := .fault 0, restUsr := .fault 4 } } }

def setEnv (f : Env → Env) (s : State) : State := { s with env := f s.env }

/-- The step on a state with text put at its pc. -/
def runText (bytes : List Byte) (s : State) : Host.Outcome State Fault Refusal :=
  step (putMem s.pc.toNat bytes s)

/-- `V[n]` and the pc after that step, if there is a next state. -/
def after (bytes : List Byte) (n : Nat) (s : State) : Option (Vec × Word) :=
  (nextOf (runText bytes s)).map fun t => (t.readV (BitVec.ofNat 5 n), t.pc)

/-! ## WellFormed: one ill-formed term for each check, refused -/

def okLegacy : LegacyOps := ⟨[.opSize], 1, .reg false 2⟩
def okVex : VexOps := ⟨[], false, 1, 2, .reg false 3⟩
def okEvex : EvexOps := ⟨[], 1, 2, .reg 3, 0, false⟩

theorem test_wf_accepts : Instr.wf .m64 (.pmaxud okLegacy) = true ∧ Instr.wf .m32 (.pmaxud okLegacy) = true
    ∧ Instr.wf .m64 (.pmaxudRex true okLegacy) = true ∧ Instr.wf .m32 (.vpmaxudVex256 okVex) = true
    ∧ Instr.wf .m32 (.vpmaxuqEvex512 okEvex) = true := by decide
theorem test_wf_legacy_needs_66 : Instr.wf .m64 (.pmaxud { okLegacy with prefixes := [] }) = false := by decide
theorem test_wf_vex_takes_no_66 : Instr.wf .m64 (.vpmaxudVex128 { okVex with prefixes := [.opSize] }) = false := by decide
theorem test_wf_evex_takes_no_66 : Instr.wf .m64 (.vpmaxudEvex128 { okEvex with prefixes := [.opSize] }) = false := by decide
theorem test_wf_m32_takes_no_67 : Instr.wf .m32 (.pmaxud { okLegacy with prefixes := [.opSize, .addrSize] }) = false
    ∧ Instr.wf .m32 (.vpmaxudVex128 { okVex with prefixes := [.addrSize] }) = false
    ∧ Instr.wf .m32 (.vpmaxudEvex128 { okEvex with prefixes := [.addrSize] }) = false := by decide
theorem test_wf_base4_needs_sib : Instr.wf .m64 (.pmaxud { okLegacy with src := .mem (.base false 4 .none) }) = false
    ∧ Instr.wf .m64 (.vpmaxudEvex128 { okEvex with src := .mem false (.base false 12 .none) }) = false := by decide
theorem test_wf_base5_needs_disp : Instr.wf .m64 (.vpmaxudVex128 { okVex with src := .mem (.base false 13 .none) }) = false := by
  decide
theorem test_wf_sib_base5_needs_disp :
    Instr.wf .m64 (.vpmaxudVex128 { okVex with src := .mem (.sib 0 1 5 .none) }) = false := by decide
theorem test_wf_z_needs_mask : Instr.wf .m64 (.vpmaxuqEvex256 { okEvex with z := true }) = false := by decide
theorem test_wf_no_rex_low_registers : Instr.wf .m64 (.pmaxud { okLegacy with d := 8 }) = false
    ∧ Instr.wf .m64 (.pmaxud { okLegacy with src := .reg true 2 }) = false := by decide
theorem test_wf_m32_low_registers : Instr.wf .m32 (.vpmaxudVex128 { okVex with s1 := 8 }) = false
    ∧ Instr.wf .m32 (.vpmaxudEvex128 { okEvex with src := .reg 16 }) = false
    ∧ Instr.wf .m32 (.vpmaxudEvex128 { okEvex with src := .mem false (.sib 0 9 0 .none) }) = false := by decide
theorem test_wf_m32_has_no_rex : Instr.wf .m32 (.pmaxudRex false okLegacy) = false := by decide
theorem test_wf_mode_covered : Instr.wf .real (.pmaxud okLegacy) = false := by decide
theorem test_wf_at_most_15_bytes :
    Instr.wf .m64 (.vpmaxudEvex128 { okEvex with prefixes := List.replicate 10 .addrSize }) = false
      ∧ Instr.wf .m64 (.vpmaxudEvex128 { okEvex with prefixes := List.replicate 9 .addrSize }) = true := by decide

/-! ## Decoding: words written out from the encodings (`95_test_vectors.md` 2.2 to 2.7) -/

theorem test_decode_pmaxud : decode .m64 [0x66, 0x0F, 0x38, 0x3F, 0xCA] = .ok (.pmaxud ⟨[.opSize], 1, .reg false 2⟩) := by decide
theorem test_decode_pmaxud_rip_or_absolute :
    decode .m64 [0x66, 0x0F, 0x38, 0x3F, 0x05, 0x10, 0, 0, 0]
        = .ok (.pmaxud ⟨[.opSize], 0, .mem (.disp32 false false 0x10)⟩)
      ∧ decode .m32 [0x66, 0x0F, 0x38, 0x3F, 0x05, 0x00, 0x20, 0, 0]
        = .ok (.pmaxud ⟨[.opSize], 0, .mem (.disp32 false false 0x2000)⟩) := by decide
theorem test_decode_pmaxud_sib :
    decode .m64 [0x66, 0x0F, 0x38, 0x3F, 0x84, 0xC8, 0x00, 0x01, 0, 0]
        = .ok (.pmaxud ⟨[.opSize], 0, .mem (.sib 3 1 0 (.disp32 0x100))⟩)
      ∧ decode .m64 [0x66, 0x0F, 0x38, 0x3F, 0x04, 0x25, 0x00, 0x10, 0, 0]
        = .ok (.pmaxud ⟨[.opSize], 0, .mem (.sibNoBase false 0 4 0x1000)⟩) := by decide
theorem test_decode_pmaxudRex :
    decode .m64 [0x66, 0x45, 0x0F, 0x38, 0x3F, 0xC1] = .ok (.pmaxudRex false ⟨[.opSize], 8, .reg false 9⟩)
      ∧ decode .m64 [0x66, 0x41, 0x0F, 0x38, 0x3F, 0x45, 0x00]
        = .ok (.pmaxudRex false ⟨[.opSize], 0, .mem (.base false 13 (.disp8 0))⟩)
      ∧ decode .m64 [0x66, 0x48, 0x0F, 0x38, 0x3F, 0xCA] = .ok (.pmaxudRex true ⟨[.opSize], 1, .reg false 2⟩) := by decide
theorem test_decode_vex128 :
    decode .m64 [0xC4, 0xC2, 0x69, 0x3F, 0xC8] = .ok (.vpmaxudVex128 ⟨[], false, 1, 2, .reg false 8⟩)
      ∧ decode .m64 [0xC4, 0x62, 0x39, 0x3F, 0x3C, 0x88] = .ok (.vpmaxudVex128 ⟨[], false, 15, 8, .mem (.sib 2 1 0 .none)⟩) := by
  decide
theorem test_decode_vex256 :
    decode .m32 [0xC4, 0xE2, 0x6D, 0x3F, 0xCB] = .ok (.vpmaxudVex256 ⟨[], false, 1, 2, .reg false 3⟩)
      ∧ decode .m64 [0xC4, 0xE2, 0xED, 0x3F, 0xD2] = .ok (.vpmaxudVex256 ⟨[], true, 2, 2, .reg false 2⟩) := by decide
theorem test_decode_evex_dword128 :
    decode .m64 [0x62, 0xF2, 0x6D, 0x08, 0x3F, 0x4C, 0x24, 0x01]
      = .ok (.vpmaxudEvex128 ⟨[], 1, 2, .mem false (.sib 0 4 4 (.disp8 1)), 0, false⟩) := by decide
theorem test_decode_evex_dword256 :
    decode .m64 [0x62, 0xF2, 0x6D, 0xA9, 0x3F, 0xCB] = .ok (.vpmaxudEvex256 ⟨[], 1, 2, .reg 3, 1, true⟩) := by decide
theorem test_decode_evex_dword512 :
    decode .m64 [0x62, 0xF2, 0x6D, 0x58, 0x3F, 0x48, 0x01]
      = .ok (.vpmaxudEvex512 ⟨[], 1, 2, .mem true (.base false 0 (.disp8 1)), 0, false⟩) := by decide
theorem test_decode_evex_qword128 :
    decode .m64 [0x62, 0xA2, 0xED, 0x02, 0x3F, 0xCB] = .ok (.vpmaxuqEvex128 ⟨[], 17, 18, .reg 19, 2, false⟩) := by decide
theorem test_decode_evex_qword256 :
    decode .m32 [0x62, 0xF2, 0xF5, 0x28, 0x3F, 0x50, 0x01]
      = .ok (.vpmaxuqEvex256 ⟨[], 2, 1, .mem false (.base false 0 (.disp8 1)), 0, false⟩) := by decide
theorem test_decode_evex_qword512 :
    decode .m64 [0x62, 0xF2, 0xF5, 0xCA, 0x3F, 0xE3] = .ok (.vpmaxuqEvex512 ⟨[], 4, 1, .reg 3, 2, true⟩) := by decide
theorem test_decode_prefixes :
    decode .m64 [0x67, 0x66, 0x0F, 0x38, 0x3F, 0x00]
        = .ok (.pmaxud ⟨[.addrSize, .opSize], 0, .mem (.base false 0 .none)⟩)
      ∧ decode .m32 [0x67, 0x66, 0x0F, 0x38, 0x3F, 0x00] = .refused .addrSize16
      ∧ decode .m64 [0x65, 0x66, 0x0F, 0x38, 0x3F, 0x00]
        = .ok (.pmaxud ⟨[.seg .gs, .opSize], 0, .mem (.base false 0 .none)⟩) := by decide
theorem test_decode_not_in_spec :
    decode .m64 [0x0F, 0x38, 0x3F, 0xCA] = .refused .notInSpec ∧ decode .m64 [0xC5, 0xE9, 0x3F, 0xCB] = .refused .notInSpec
      ∧ decode .m64 [0xC4, 0xE1, 0x69, 0x3F, 0xCB] = .refused .notInSpec
      ∧ decode .m64 [0xC4, 0xE2, 0x68, 0x3F, 0xCB] = .refused .notInSpec
      ∧ decode .m64 [0x62, 0xF1, 0x6D, 0x08, 0x3F, 0xCB] = .refused .notInSpec
      ∧ decode .m32 [0x66, 0x41, 0x0F, 0x38, 0x3F, 0xC1] = .refused .notInSpec := by decide
theorem test_decode_refused :
    decode .m64 [0xF3, 0x66, 0x0F, 0x38, 0x3F, 0xCA] = .refused .repPrefix
      ∧ decode .m64 [0x66, 0x48, 0x66, 0x0F, 0x38, 0x3F, 0xCA] = .refused .rexPlacement
      ∧ decode .m32 [0xC4, 0xC2, 0x69, 0x3F, 0xCB] = .refused .m32Extension
      ∧ decode .m32 [0xC4, 0xE2, 0x29, 0x3F, 0xCB] = .refused .m32Extension
      ∧ decode .m32 [0x62, 0xD2, 0x6D, 0x08, 0x3F, 0xCB] = .refused .m32Extension
      ∧ decode .m32 [0x62, 0xE2, 0x6D, 0x08, 0x3F, 0xCB] = .refused .m32Extension
      ∧ decode .m32 [0x62, 0xF2, 0x6D, 0x00, 0x3F, 0xCB] = .refused .m32Extension := by decide
theorem test_decode_ud :
    decode .m64 [0x62, 0xF2, 0x6D, 0x18, 0x3F, 0xCB] = .ud ∧ decode .m64 [0x62, 0xF2, 0x6D, 0x88, 0x3F, 0xCB] = .ud
      ∧ decode .m64 [0x62, 0xF2, 0x6D, 0x68, 0x3F, 0xCB] = .ud ∧ decode .m64 [0x62, 0xF6, 0x6D, 0x08, 0x3F, 0xCB] = .ud
      ∧ decode .m64 [0x62, 0xF2, 0x69, 0x08, 0x3F, 0xCB] = .ud ∧ decode .m64 [0xF0, 0x66, 0x0F, 0x38, 0x3F, 0x00] = .ud
      ∧ decode .m64 [0x66, 0x62, 0xF2, 0x6D, 0x08, 0x3F, 0xCB] = .ud
      ∧ decode .m64 [0x66, 0xC4, 0xE2, 0x69, 0x3F, 0xCB] = .ud := by decide

/-! ## One step of each form (`95_test_vectors.md` 2.2 to 2.5) -/

def upper : List Nat :=
  [0xDEADBEEF, 0xBBBBBBBB, 0xAAAAAAAA, 0x99999999, 0x88888888, 0x77777777, 0x66666666, 0x55555555, 0x44444444, 0x33333333,
    0x22222222, 0x11111111]
def low1 : List Nat := [0x7FFFFFFF, 0x80000000, 0xFFFFFFFF, 1]
def low2 : List Nat := [0x80000000, 0x7FFFFFFF, 0, 2]
def lowMax : List Nat := [0x80000000, 0x80000000, 0xFFFFFFFF, 2]
def ones12 : List Nat := List.replicate 12 0xFFFFFFFF

/-- The start of vectors L1, L1m (registers 1, 2), L4 (8, 9) and X1 (2, 3 give the sources). -/
def startL : State :=
  base64 |> putV 1 (vec 32 (upper ++ low1)) |> putV 2 (vec 32 (ones12 ++ low2)) |> putV 8 (vec 32 (upper ++ low1))
    |> putV 9 (vec 32 low2) |> putX 0 0x2000
    |> putMem 0x2000 [0x02, 0, 0, 0, 0, 0, 0, 0, 0xFF, 0xFF, 0xFF, 0x7F, 0, 0, 0, 0x80]

theorem test_pmaxud_L1 : after [0x66, 0x0F, 0x38, 0x3F, 0xCA] 1 startL = some (vec 32 (upper ++ lowMax), 0x1005) := by
  decide +kernel
theorem test_pmaxud_L1m : after [0x66, 0x0F, 0x38, 0x3F, 0x08] 1 startL = some (vec 32 (upper ++ lowMax), 0x1005) := by
  decide +kernel
theorem test_pmaxudRex_L4 : after [0x66, 0x45, 0x0F, 0x38, 0x3F, 0xC1] 8 startL = some (vec 32 (upper ++ lowMax), 0x1006) := by
  decide +kernel

/-- The start of vectors X1 and E3. -/
def startX1 : State :=
  base64 |> putV 1 (vec 32 (List.replicate 16 0xAAAAAAAA)) |> putV 2 (vec 32 (upper ++ low1)) |> putV 3 (vec 32 (ones12 ++ low2))
    |> putK 1 0x5 |> putK 2 0xF5

theorem test_vex128_X1 : after [0xC4, 0xE2, 0x69, 0x3F, 0xCB] 1 startX1 = some (vec 32 lowMax, 0x1005) := by decide +kernel
theorem test_evex_dword128_E3a : after [0x62, 0xF2, 0x6D, 0x09, 0x3F, 0xCB] 1 startX1
    = some (vec 32 [0xAAAAAAAA, 0x80000000, 0xAAAAAAAA, 2], 0x1006) := by decide +kernel
theorem test_evex_dword128_E3b : after [0x62, 0xF2, 0x6D, 0x89, 0x3F, 0xCB] 1 startX1
    = some (vec 32 [0, 0x80000000, 0, 2], 0x1006) := by decide +kernel

/-- The start of vectors X2 and E4. -/
def startX2 : State :=
  base64 |> putV 1 (BitVec.allOnes 512)
    |> putV 2 (vec 32 [1, 2, 3, 4, 5, 6, 7, 8, 0xFFFFFFFF, 0xFFFFFFFE, 0xFFFFFFFD, 0xFFFFFFFC, 3, 2, 1, 0])
    |> putV 3 (vec 32 [9, 9, 9, 9, 9, 9, 9, 9, 0, 0x80000000, 0x7FFFFFFF, 0xFFFFFFFF, 0, 1, 2, 3]) |> putK 1 0xF

theorem test_vex256_X2 : after [0xC4, 0xE2, 0x6D, 0x3F, 0xCB] 1 startX2
    = some (vec 32 [0xFFFFFFFF, 0xFFFFFFFE, 0xFFFFFFFD, 0xFFFFFFFF, 3, 2, 2, 3], 0x1005) := by decide +kernel
theorem test_evex_dword256_E4a : after [0x62, 0xF2, 0x6D, 0xA9, 0x3F, 0xCB] 1 startX2
    = some (vec 32 [3, 2, 2, 3], 0x1006) := by decide +kernel

/-- The start of vectors E1 and E2. -/
def startE1 : State :=
  base64 |> putV 2 (vec 32 ((List.range 16).reverse.map (· * 0x10000000))) |> putV 3 (vec 32 (List.replicate 16 0x80000000))
    |> putV 1 (vec 32 ((List.range 16).reverse.map (0xD0000000 + ·))) |> putK 1 0xF0 |> putX 0 0x2000
    |> putMem 0x2000 [0, 0, 0, 0x50] |> onlyMapped 0x2000 0x2003

theorem test_evex_dword512_E1b : after [0x62, 0xF2, 0x6D, 0x49, 0x3F, 0xCB] 1 startE1
    = some (vec 32 [0xD000000F, 0xD000000E, 0xD000000D, 0xD000000C, 0xD000000B, 0xD000000A, 0xD0000009, 0xD0000008, 0x80000000,
        0x80000000, 0x80000000, 0x80000000, 0xD0000003, 0xD0000002, 0xD0000001, 0xD0000000], 0x1006) := by decide +kernel
theorem test_evex_dword512_E2 : after [0x62, 0xF2, 0x6D, 0x58, 0x3F, 0x08] 1 startE1
    = some (vec 32 [0xF0000000, 0xE0000000, 0xD0000000, 0xC0000000, 0xB0000000, 0xA0000000, 0x90000000, 0x80000000, 0x70000000,
        0x60000000, 0x50000000, 0x50000000, 0x50000000, 0x50000000, 0x50000000, 0x50000000], 0x1006) := by decide +kernel

/-- The start of vectors Q2 to Q4. -/
def startQ2 : State :=
  base64
    |> putV 2 (vec 64 [4, 3, 2, 1, 0x7FFFFFFFFFFFFFFF, 0x8000000000000000, 0xFFFFFFFFFFFFFFFF, 0])
    |> putV 3 (vec 64 [4, 4, 1, 1, 0x8000000000000000, 0x7FFFFFFFFFFFFFFF, 0, 1])
    |> putV 1 (vec 64 ((List.range 8).reverse.map (0xDDDDDDDDDDDDDD00 + ·))) |> putK 1 0xA5 |> putK 2 0x6 |> putX 0 0x2000
    |> putMem 0x2000 [0, 0, 0, 0, 0, 0, 0, 0x80] |> onlyMapped 0x2000 0x2007

theorem test_evex_qword512_Q2c : after [0x62, 0xF2, 0xED, 0xC9, 0x3F, 0xCB] 1 startQ2
    = some (vec 64 [4, 0, 2, 0, 0, 0x8000000000000000, 0, 1], 0x1006) := by decide +kernel
theorem test_evex_qword512_Q3 : after [0x62, 0xF2, 0xED, 0x58, 0x3F, 0x08] 1 startQ2
    = some (vec 64 [0x8000000000000000, 0x8000000000000000, 0x8000000000000000, 0x8000000000000000, 0x8000000000000000,
        0x8000000000000000, 0xFFFFFFFFFFFFFFFF, 0x8000000000000000], 0x1006) := by decide +kernel
theorem test_evex_qword256_Q4 : after [0x62, 0xF2, 0xED, 0x2A, 0x3F, 0xCB] 1 startQ2
    = some (vec 64 [0xDDDDDDDDDDDDDD03, 0x8000000000000000, 0xFFFFFFFFFFFFFFFF, 0xDDDDDDDDDDDDDD00], 0x1006) := by
  decide +kernel

/-- The start of vector Q1. -/
def startQ1 : State :=
  base64 |> putV 1 (BitVec.allOnes 512) |> putV 2 (vec 64 [0x00000000FFFFFFFF, 0x0000000100000000])
    |> putV 3 (vec 64 [0x0000000100000000, 0x00000000FFFFFFFF])

theorem test_evex_qword128_Q1 : after [0x62, 0xF2, 0xED, 0x08, 0x3F, 0xCB] 1 startQ1
    = some (vec 64 [0x0000000100000000, 0x0000000100000000], 0x1006) := by decide +kernel

/-- The last step of program P4 (M32, disp8 * 32). -/
def startP4 : State :=
  base32
    |> putV 1 (vec 32 [0x80000000, 0, 0xBBBBBBBB, 0xAAAAAAAA, 0x90000000, 1, 1, 5]) |> putX 0 0x5000
    |> putMem 0x5020 [0, 0, 0, 0, 1, 0, 0, 0, 0xFF, 0xFF, 0xFF, 0xFF, 0, 0, 0, 0, 0xFF, 0xFF, 0xFF, 0xFF, 0xFF, 0xFF, 0xFF, 0xFF]

theorem test_evex_qword256_P4 : after [0x62, 0xF2, 0xF5, 0x28, 0x3F, 0x50, 0x01] 2 startP4
    = some (vec 64 [0x8000000000000000, 0xFFFFFFFFFFFFFFFF, 0x9000000000000001, 0x0000000100000005], 0x1007) := by
  decide +kernel

/-! ## Exceptions (`95_test_vectors.md` 2.7, 2.8) -/

/-- Memory of vectors F1: bytes 6000h to 603Fh readable, the operand at 6008h. -/
def startF1 : State := base64 |> putX 0 0x6008 |> onlyMapped 0x6000 0x603F

theorem test_fault_F1 : faultOf (runText [0x66, 0x0F, 0x38, 0x3F, 0x08] startF1) = some .gp
    ∧ (after [0xC4, 0xE2, 0x69, 0x3F, 0x08] 1 startF1).isSome = true
    ∧ (after [0x62, 0xF2, 0x6D, 0x08, 0x3F, 0x08] 1 startF1).isSome = true := by decide +kernel

theorem test_fault_F2_F3 :
    faultOf (runText [0xC4, 0xE2, 0x6D, 0x3F, 0xCB] (setEnv (fun e => { e with features := ⟨true, true, false, false, false⟩ }) base64))
        = some .ud
      ∧ faultOf (runText [0x66, 0x0F, 0x38, 0x3F, 0xCA] (setEnv (fun e => { e with cr0 := 8 }) base64)) = some .nm
      ∧ faultOf (runText [0xC4, 0xE2, 0x6D, 0x3F, 0xCB]
          (setEnv (fun e => { e with cr0 := 8, features := ⟨false, true, false, false, false⟩ }) base64)) = some .ud := by
  decide +kernel

theorem test_fault_F8_F9_F10 :
    faultOf (runText [0x62, 0xF2, 0x6D, 0x08, 0x3F, 0xCB] (setEnv (fun e => { e with xcr0 := 7 }) base64)) = some .ud
      ∧ faultOf (runText [0xC4, 0xE2, 0x69, 0x3F, 0xCB] (setEnv (fun e => { e with xcr0 := 3 }) base64)) = some .ud
      ∧ (after [0x66, 0x0F, 0x38, 0x3F, 0xCA] 1 (setEnv (fun e => { e with cr4 := 0x200, xcr0 := 1 }) base64)).isSome = true
      ∧ (after [0xC4, 0xE2, 0x69, 0x3F, 0xCB] 1 (setEnv (fun e => { e with cr4 := 0x40000, cr0 := 4 }) base64)).isSome = true
      ∧ faultOf (runText [0x66, 0x0F, 0x38, 0x3F, 0xCA] (setEnv (fun e => { e with cr0 := 4 }) base64)) = some .ud := by
  decide +kernel

/-- The start of vectors S1 to S7. -/
def startS : State :=
  base64 |> putX 0 0x6000 |> putV 2 (vec 32 (List.replicate 16 0x20))
    |> putV 1 (vec 32 ((List.range 16).reverse.map (0xD0000000 + ·))) |> putK 1 0xF |> putK 2 0 |> putK 3 0x10
    |> putMem 0x6000 [0x10, 0, 0, 0, 0, 0, 0, 0x80, 0xFF, 0xFF, 0xFF, 0xFF, 0, 0, 0, 0] |> onlyMapped 0x6000 0x600F

theorem test_suppression_S1 : after [0x62, 0xF2, 0x6D, 0x49, 0x3F, 0x08] 1 startS
    = some (vec 32 ((List.range 12).reverse.map (0xD0000004 + ·) ++ [0x20, 0xFFFFFFFF, 0x80000000, 0x20]), 0x1006) := by
  decide +kernel
theorem test_suppression_S3_S4 : after [0x62, 0xF2, 0x6D, 0xCA, 0x3F, 0x08] 1 startS = some (0, 0x1006)
    ∧ faultOf (runText [0x62, 0xF2, 0x6D, 0x4B, 0x3F, 0x08] startS) = some (.pf 0 0x6010) := by decide +kernel
theorem test_suppression_off : faultOf (runText [0x62, 0xF2, 0x6D, 0x49, 0x3F, 0x08]
    (setEnv (fun e => { e with faultSuppression := false }) startS)) = some (.pf 0 0x6010)
  ∧ faultOf (runText [0x62, 0xF2, 0x6D, 0x5A, 0x3F, 0x08]
    (setEnv (fun e => { e with faultSuppression := false }) (putX 0 0x7000 startS))) = some (.pf 0 0x7000)
  ∧ (nextOf (runText [0x62, 0xF2, 0x6D, 0x5A, 0x3F, 0x08] (putX 0 0x7000 startS))).isSome = true := by decide +kernel

/-- The table of `60_exceptions.md` R191. -/
theorem test_exception_table : Fault.vector .ud = 6 ∧ Fault.vector .nm = 7 ∧ Fault.vector .ss = 12 ∧ Fault.vector .gp = 13
    ∧ Fault.vector (.pf 4 0x6010) = 14 ∧ Fault.errorCode .ud = none ∧ Fault.errorCode .nm = none ∧ Fault.errorCode .ss = some 0
    ∧ Fault.errorCode .gp = some 0 ∧ Fault.errorCode (.pf 4 0x6010) = some 4 ∧ Fault.recorded (.pf 4 0x6010) = some 0x6010 := by
  decide

/-! ## Witnesses: for each statement with hypotheses, states and operands that meet them together -/

theorem witness_DecodeUndoesEncode :
    Instr.wf .m64 (.vpmaxuqEvex512 ⟨[.seg .fs, .addrSize], 31, 16, .mem true (.sib 3 15 13 (.disp8 0x80)), 7, true⟩) = true
      ∧ Instr.wf .m32 (.pmaxud ⟨[.seg .ss, .opSize], 7, .mem (.sibNoBase false 2 7 0xFFFFFFFF)⟩) = true := by decide

theorem witness_EncodeUndoesDecode :
    decode .m64 [0x62, 0xF2, 0x6D, 0x08, 0x3F, 0x4C, 0x24, 0x01, 0xFF, 0xFF]
      = .ok (.vpmaxudEvex128 ⟨[], 1, 2, .mem false (.sib 0 4 4 (.disp8 1)), 0, false⟩) := by decide

/-- Five bytes, fifteen bytes, and an EVEX form of six. -/
theorem witness_DecodedLengthBounds :
    decode .m64 [0x66, 0x0F, 0x38, 0x3F, 0xCA] = .ok (.pmaxud ⟨[.opSize], 1, .reg false 2⟩)
      ∧ decode .m64 (List.replicate 11 0x66 ++ [0x0F, 0x38, 0x3F, 0xCA]) = .ok (.pmaxud ⟨List.replicate 11 .opSize, 1, .reg false 2⟩)
      ∧ decode .m32 [0x62, 0xF2, 0x6D, 0x08, 0x3F, 0xCB] = .ok (.vpmaxudEvex128 ⟨[], 1, 2, .reg 3, 0, false⟩) := by decide

theorem prefixBytes_of_all (ps : List Byte)
    (h : ps.all (fun b => ([0x26, 0x2E, 0x36, 0x3E, 0x64, 0x65, 0x67, 0x66, 0xF0, 0xF2, 0xF3] : List Byte).contains b) = true) :
    PrefixBytes ps := fun b hb => by simpa using List.all_eq_true.mp h b hb

/-- A decoded instruction with the highest registers; then, clause by clause, VEX with stored B = 0 and with stored vvvv bit 3 = 0;
EVEX with stored B, R', V' or vvvv bit 3 = 0; 67h before form 1, VEX and EVEX; bytes that are VEX, EVEX or REX in M64 only. -/
theorem witness_M32NamesEightRegisters :
    decode .m32 [0xC4, 0xE2, 0x41, 0x3F, 0xFF] = .ok (.vpmaxudVex128 ⟨[], false, 7, 7, .reg false 7⟩)
      ∧ PlainPrefixes .m32 [.seg .fs]
      ∧ ((0xC2 : Byte).extractLsb' 6 2 = 3#2 ∧ (0xC2 : Byte).extractLsb' 0 5 = 2#5 ∧ (0xC2 : Byte).getLsbD 5 = false)
      ∧ ((0x29 : Byte).extractLsb' 0 2 = 1#2 ∧ (0x29 : Byte).getLsbD 6 = false)
      ∧ ((0xD2 : Byte).extractLsb' 6 2 = 3#2 ∧ (0xD2 : Byte).extractLsb' 0 4 = 2#4 ∧ (0xD2 : Byte).getLsbD 5 = false)
      ∧ ((0xE2 : Byte).extractLsb' 6 2 = 3#2 ∧ (0xE2 : Byte).extractLsb' 0 4 = 2#4 ∧ (0xE2 : Byte).getLsbD 4 = false)
      ∧ ((0x00 : Byte).getLsbD 3 = false ∧ (0x00 : Byte).extractLsb' 5 2 ≠ 3#2 ∧ (0x00 : Byte).getLsbD 7 = false
        ∧ (0x00 : Byte).getLsbD 4 = false)
      ∧ ((0x2D : Byte).extractLsb' 0 3 = 5#3 ∧ (0x2D : Byte).getLsbD 6 = false)
      ∧ (PrefixBytes [0x67, 0x66] ∧ 0x67 ∈ ([0x67, 0x66] : List Byte) ∧ 0x66 ∈ ([0x67, 0x66] : List Byte)
        ∧ 0xF2 ∉ ([0x67, 0x66] : List Byte) ∧ 0xF3 ∉ ([0x67, 0x66] : List Byte))
      ∧ PrefixBytes [0x67] ∧ (0xF2 : Byte).extractLsb' 0 2 = 2#2
      ∧ (0xBF : Byte).extractLsb' 6 2 ≠ 3#2 ∧ RexByte 0x40 ∧ RexByte 0x4F := by
  refine ⟨by decide, ⟨by decide, by decide, by decide⟩, by decide, by decide, by decide, by decide, by decide, by decide,
    ⟨prefixBytes_of_all _ rfl, by decide⟩, prefixBytes_of_all _ rfl, by decide, by decide, ?_⟩
  unfold RexByte; decide

/-- No prefix, and overrides with LOCK before a REX byte; then each clause's byte. -/
theorem witness_NeighboursAreRefused :
    PrefixBytes [] ∧ PrefixBytes [0x64, 0xF0, 0x3E] ∧ 0x66 ∉ ([0x64, 0xF0, 0x3E] : List Byte)
      ∧ RexOrNone .m32 [] ∧ RexOrNone .m64 [0x4F]
      ∧ (0x3E : Byte) ≠ 0x3F ∧ (0xE1 : Byte).extractLsb' 0 5 ≠ 2#5 ∧ (0x68 : Byte).extractLsb' 0 2 ≠ 1#2
      ∧ (0xF1 : Byte).extractLsb' 0 2 ≠ 2#2 ∧ (0x6C : Byte).extractLsb' 0 2 ≠ 1#2 :=
  ⟨prefixBytes_of_all _ rfl, prefixBytes_of_all _ rfl, by decide, .inl rfl, .inr ⟨rfl, 0x4F, by unfold RexByte; decide, rfl⟩,
    by decide⟩

theorem witness_ReservedEvexIsUndefined :
    PlainPrefixes .m64 [.seg .fs, .addrSize, .addrSize, .seg .ds] ∧ PlainPrefixes .m32 [.seg .es]
      ∧ (0xFA : Byte).extractLsb' 6 2 = 3#2 ∧ (0xFA : Byte).extractLsb' 0 2 = 2#2 ∧ (0xFA : Byte).extractLsb' 2 2 ≠ 0#2
      ∧ (0x69 : Byte).extractLsb' 0 2 = 1#2 ∧ (0x69 : Byte).getLsbD 2 = false
      ∧ (0x68 : Byte).extractLsb' 5 2 = 3#2
      ∧ (0x88 : Byte).getLsbD 7 = true ∧ (0x88 : Byte).extractLsb' 0 3 = 0#3
      ∧ (0x18 : Byte).getLsbD 4 = true ∧ (0xCB : Byte).extractLsb' 6 2 = 3#2 := by
  refine ⟨⟨by decide, by decide, by decide⟩, ⟨by decide, by decide, by decide⟩, ?_⟩
  decide

/-- LOCK beside overrides, one bad byte alone, a REX byte alone and after an override; then V1, V2 and P0, P1. -/
theorem witness_PrefixBeforeVexIsUndefined :
    (PrefixBytes [0x64, 0xF0, 0x67, 0x26] ∧ PrefixBytes [0xF3] ∧ RexOrNone .m32 [] ∧ 0x67 ∉ ([0xF3] : List Byte))
      ∧ (PrefixBytes [0x3E] ∧ RexOrNone .m64 [0x40] ∧ RexOrNone .m64 [0x4F])
      ∧ (0xE2 : Byte).extractLsb' 6 2 = 3#2 ∧ (0xE2 : Byte).extractLsb' 0 5 = 2#5 ∧ (0x69 : Byte).extractLsb' 0 2 = 1#2
      ∧ (0xF2 : Byte).extractLsb' 6 2 = 3#2 ∧ (0xF2 : Byte).extractLsb' 0 2 = 2#2 ∧ (0x6D : Byte).extractLsb' 0 2 = 1#2 :=
  ⟨⟨prefixBytes_of_all _ rfl, prefixBytes_of_all _ rfl, .inl rfl, by decide⟩,
    ⟨prefixBytes_of_all _ rfl, .inr ⟨rfl, 0x40, by unfold RexByte; decide, rfl⟩, .inr ⟨rfl, 0x4F, by unfold RexByte; decide, rfl⟩⟩,
    by decide⟩

/-- LOCK last of the prefixes, before a REX byte; F2h between two 66h; a REX byte before each kind of byte. -/
theorem witness_PrefixesOfFormOne :
    (PrefixBytes [0x66, 0x2E, 0xF0] ∧ RexOrNone .m64 [0x48] ∧ 0x66 ∈ ([0x66, 0x2E, 0xF0] : List Byte)
        ∧ 0xF0 ∈ ([0x66, 0x2E, 0xF0] : List Byte) ∧ 0xF2 ∉ ([0x66, 0x2E, 0xF0] : List Byte)
        ∧ 0xF3 ∉ ([0x66, 0x2E, 0xF0] : List Byte) ∧ 6 ≤ ([0xCA, 0, 0, 0, 0, 0] : List Byte).length)
      ∧ (PrefixBytes [0x66, 0xF2, 0x66] ∧ 0xF2 ∈ ([0x66, 0xF2, 0x66] : List Byte))
      ∧ RexByte 0x48 ∧ PrefixBytes [0x66] ∧ PrefixBytes [0x3E] ∧ RexByte 0x41 :=
  ⟨⟨prefixBytes_of_all _ rfl, .inr ⟨rfl, 0x48, by unfold RexByte; decide, rfl⟩, by decide⟩,
    ⟨prefixBytes_of_all _ rfl, by decide⟩,
    by unfold RexByte; decide, prefixBytes_of_all _ rfl, prefixBytes_of_all _ rfl, by unfold RexByte; decide⟩

/-! ### Completion and results -/

/-- Everything enabled, flat memory, x[0] = 2000h, K[1] = 5, K[2] = 0. -/
def wit : State := startX1 |> putK 2 0 |> putX 0 0x2000

/-- The same without fault suppression, and in M32. -/
def wit' : State := setEnv (fun e => { e with faultSuppression := false }) wit
def wit32 : State := base32 |> putX 0 0x2000

theorem wit_legacyReady : LegacyReady wit ∧ LegacyReady wit32 := by unfold LegacyReady Covered; decide +kernel

theorem wit_vexReady : VexReady wit 128 wit.env.features.avx ∧ VexReady wit 256 wit.env.features.avx2
    ∧ VexReady wit32 256 wit32.env.features.avx2 := by unfold VexReady Covered; decide +kernel

/-- EVEX forms of every vector length are ready in these states. -/
theorem wit_ready (o : EvexOps) (vl : Nat) (hv : vl ≤ 512) (hz : o.z = true → o.aaa ≠ 0#3) :
    EvexReady wit vl o ∧ EvexReady wit' vl o ∧ EvexReady wit32 vl o :=
  ⟨⟨.inl rfl, hv, rfl, rfl, rfl, rfl, rfl, rfl, rfl, rfl, fun _ => rfl, hz⟩,
    ⟨.inl rfl, hv, rfl, rfl, rfl, rfl, rfl, rfl, rfl, rfl, fun _ => rfl, hz⟩,
    ⟨.inr rfl, hv, rfl, rfl, rfl, rfl, rfl, rfl, rfl, rfl, fun _ => rfl, hz⟩⟩

/-- No writemask, merging and zeroing, on a register, a full and a broadcast operand, at the three vector lengths. -/
theorem wit_evexReady : ∀ vl ∈ [128, 256, 512],
    EvexReady wit vl ⟨[], 1, 2, .reg 3, 0, false⟩ ∧ EvexReady wit vl ⟨[], 1, 2, .mem false (.base false 0 .none), 1, false⟩
      ∧ EvexReady wit vl ⟨[], 1, 2, .mem true (.base false 0 (.disp8 1)), 1, true⟩
      ∧ EvexReady wit' vl ⟨[], 1, 2, .mem false (.base false 0 .none), 2, true⟩
      ∧ EvexReady wit32 vl ⟨[], 1, 2, .reg 3, 1, true⟩ := by
  intro vl hvl
  have hv : vl ≤ 512 := by simp at hvl; omega
  exact ⟨(wit_ready _ vl hv (by decide)).1, (wit_ready _ vl hv (by decide)).1, (wit_ready _ vl hv (by decide)).1,
    (wit_ready _ vl hv (by decide)).2.1, (wit_ready _ vl hv (by decide)).2.2⟩

/-- Every byte of an operand at 2000h is readable. -/
theorem wit_readable : ∀ i, i < 64 → ByteReadable wit .ds 0x2000 i ∧ ByteReadable wit' .ds 0x2000 i
    ∧ ByteReadable wit32 .ds 0x2000 i := by
  have h : ∀ i, i < 64 → (wit.env.segOk .ds 0x2000 i = true ∧ wit.env.xlate.lookup (wit.env.linear .ds 0x2000 i) = .ram (0x2000 + i))
      ∧ (wit'.env.segOk .ds 0x2000 i = true ∧ wit'.env.xlate.lookup (wit'.env.linear .ds 0x2000 i) = .ram (0x2000 + i))
      ∧ (wit32.env.segOk .ds 0x2000 i = true ∧ wit32.env.xlate.lookup (wit32.env.linear .ds 0x2000 i) = .ram (0x2000 + i)) := by
    decide +kernel
  intro i hi
  obtain ⟨⟨a, b⟩, ⟨c, d⟩, e, f⟩ := h i hi
  exact ⟨⟨a, _, b⟩, ⟨c, _, d⟩, ⟨e, _, f⟩⟩

/-- PmaxudRegisterSource, PmaxudCommutes, PmaxudIdempotent: `wit_legacyReady`. PmaxudMemorySource: also this, with
`wit_readable`. -/
theorem witness_PmaxudMemorySource :
    wit.memRef [.opSize] 1 (Instr.pmaxud ⟨[.opSize], 1, .mem (.base false 0 .none)⟩).ilen (.base false 0 .none) = (.ds, 0x2000)
      ∧ wit.memRef [.opSize] 1 (Instr.pmaxudRex false ⟨[.opSize], 1, .mem (.base false 0 .none)⟩).ilen (.base false 0 .none)
        = (.ds, 0x2000)
      ∧ wit.env.linear .ds 0x2000 0 % 16 = 0 := by decide +kernel

/-- VexRegisterSource: `wit_vexReady`. VexMemorySource: also this, with `wit_readable`, and no alignment is needed. -/
theorem witness_VexMemorySource :
    wit.memRef [] 1 (VexOps.len ⟨[], false, 1, 2, .mem (.base false 0 .none)⟩) (.base false 0 .none) = (.ds, 0x2000)
      ∧ wit.env.linear .ds 0x2008 0 % 16 ≠ 0 := by decide +kernel

/-- The EVEX register forms: `wit_evexReady`. The memory and broadcast forms: also this, with `wit_readable`; disp8 = 1 is
scaled by the factor given. -/
theorem witness_EvexMemorySources : ∀ n ∈ [4, 8, 16, 32, 64],
    (wit.memRef [] n (EvexOps.len ⟨[], 1, 2, .mem false (.base false 0 .none), 1, false⟩) (.base false 0 .none) = (.ds, 0x2000))
      ∧ wit.memRef [] n (EvexOps.len ⟨[], 1, 2, .mem true (.base false 0 (.disp8 1)), 1, false⟩) (.base false 0 (.disp8 1))
        = (.ds, 0x2000 + BitVec.ofNat 64 n) := by decide +kernel

/-- Active and masked-off elements under K[1] = 5. -/
theorem witness_EvexElements : Active wit 1 0 ∧ ¬ Active wit 1 1 ∧ Active wit 1 2 ∧ Active wit 0 15 ∧ ¬ Active wit 2 0 := by
  unfold Active; decide +kernel

/-- At the top of the lower half. -/
theorem witness_FlatMemoryOperand :
    VexReady (putX 3 0x00007FFFFFFFFFF0 wit) 128 true ∧ Flat64 (putX 3 0x00007FFFFFFFFFF0 wit)
      ∧ ((putX 3 0x00007FFFFFFFFFF0 wit).readX 3).toNat + 16 ≤ 2 ^ 47 := by
  unfold VexReady Covered Flat64; decide +kernel

/-- The bounds, and both address sizes of M64. -/
theorem witness_EffectiveAddressModulo : (64 : Nat) ≤ 64 ∧ (15 : Nat) ≤ 15 ∧ addrBits wit.env.mode [.seg .fs] = 64
    ∧ addrBits wit.env.mode [.addrSize] = 32 ∧ addrBits wit32.env.mode [] = 32 := by decide +kernel

/-- SegmentOverrideSelection has no premise; its default for each kind of base (`30_encoding.md` R110). -/
theorem test_default_segment : plainSegment (.base false 4 .none) = .ss ∧ plainSegment (.sib 0 1 5 (.disp8 0)) = .ss
    ∧ plainSegment (.base false 13 (.disp8 0)) = .ds ∧ plainSegment (.sib 0 1 12 .none) = .ds
    ∧ plainSegment (.disp32 false false 0) = .ds ∧ plainSegment (.sibNoBase false 0 4 0) = .ds := by decide

/-! ### Frames -/

/-- ExecFrame, UpperBitsOfDestination, FlagsNeitherReadNorWritten, HighMaskBitsIgnored: every constructor answers a next
state. -/
theorem witness_ExecFrame : ([.pmaxud ⟨[.opSize], 1, .reg false 2⟩, .pmaxudRex true ⟨[.opSize], 15, .reg false 2⟩,
      .vpmaxudVex128 okVex, .vpmaxudVex256 okVex, .vpmaxudEvex128 ⟨[], 16, 2, .reg 3, 1, true⟩, .vpmaxudEvex256 okEvex,
      .vpmaxudEvex512 okEvex, .vpmaxuqEvex128 okEvex, .vpmaxuqEvex256 okEvex, .vpmaxuqEvex512 okEvex] : List Instr).all
    (fun i => (nextOf (exec i wit)).isSome) = true := by decide +kernel

theorem witness_RegisterSourceIgnoresTranslate :
    Instr.regSource (.pmaxud okLegacy) = true ∧ Instr.regSource (.vpmaxudEvex512 okEvex) = true := by decide

/-- Under K[1] = 5 with fault suppression, a 16-byte operand at 2000h: bytes 2004h and 2020h are not accessed. -/
theorem witness_OnlyAccessedBytesMatter :
    let i : Instr := .vpmaxudEvex128 ⟨[], 1, 2, .mem false (.base false 0 .none), 1, false⟩
    wit.access i = some ⟨.ds, 0x2000, [0, 1, 2, 3, 8, 9, 10, 11], false⟩
      ∧ ([0, 1, 2, 3, 8, 9, 10, 11] : List Nat).all (fun j =>
          ({ wit with mem := [(0x2004, 7), (0x2020, 9)] } : State).operandByte .ds 0x2000 j == wit.operandByte .ds 0x2000 j) = true
      ∧ Memory.read wit.mem 0x2004 ≠ 7 := by decide +kernel

/-- Registers that differ from bit 128 on only. -/
theorem witness_BitsAboveVlAreNotRead :
    (List.range 32).all (fun n => (List.range 128).all fun k =>
        ((putV 2 (vec 32 low1) wit).readV (BitVec.ofNat 5 n)).getLsbD k == (wit.readV (BitVec.ofNat 5 n)).getLsbD k) = true
      ∧ (putV 2 (vec 32 low1) wit).readV 2 ≠ wit.readV 2
      ∧ (nextOf (exec (.vpmaxudVex128 okVex) wit)).isSome = true := by decide +kernel

/-- K[1] changed from bit 16, KL of the longest form, on; a next state, a page fault and `#NM` among the outcomes compared. -/
theorem witness_HighMaskBitsIgnored :
    (∀ j, j < 16 → (putK 1 0xFFFF0005 wit).active 1 j = wit.active 1 j) ∧ (putK 1 0xFFFF0005 wit).readK 1 ≠ wit.readK 1
      ∧ (nextOf (exec (.vpmaxudEvex512 ⟨[], 1, 2, .reg 3, 1, true⟩) wit)).isSome = true
      ∧ faultOf (exec (.vpmaxudEvex512 ⟨[], 1, 2, .mem true (.base false 0 .none), 1, true⟩) (onlyMapped 0 0 wit)) = some (.pf 0 0x2000)
      ∧ faultOf (exec (.vpmaxudEvex512 ⟨[], 1, 2, .reg 3, 1, true⟩) (setEnv (fun e => { e with cr0 := 8 }) wit)) = some .nm := by
  decide +kernel

/-! ### Exceptions and refusals -/

/-- PmaxudUndefinedExactly: each condition alone, and none. -/
theorem witness_PmaxudUndefinedExactly :
    ([setEnv (fun e => { e with cr0 := 4 }) wit, setEnv (fun e => { e with cr4 := 0x40000 }) wit,
        setEnv (fun e => { e with features := ⟨false, true, true, true, true⟩ }) wit].all fun s =>
      faultOf (exec (.pmaxud okLegacy) s) == some .ud) = true
      ∧ faultOf (exec (.pmaxud okLegacy) wit) = none := by decide +kernel

theorem witness_VexUndefinedExactly :
    ([setEnv (fun e => { e with cr4 := 0x200 }) wit, setEnv (fun e => { e with xcr0 := 3 }) wit,
        setEnv (fun e => { e with xcr0 := 5 }) wit,
        setEnv (fun e => { e with features := ⟨true, true, false, true, true⟩ }) wit].all fun s =>
      faultOf (exec (.vpmaxudVex256 okVex) s) == some .ud) = true
      ∧ faultOf (exec (.vpmaxudVex256 okVex) wit) = none := by decide +kernel

theorem witness_EvexUndefinedExactly :
    ([setEnv (fun e => { e with cr4 := 0x200 }) wit, setEnv (fun e => { e with xcr0 := 0xC7 }) wit,
        setEnv (fun e => { e with xcr0 := 0xE3 }) wit,
        setEnv (fun e => { e with features := ⟨true, true, true, false, true⟩ }) wit,
        setEnv (fun e => { e with features := ⟨true, true, true, true, false⟩ }) wit].all fun s =>
      faultOf (exec (.vpmaxudEvex256 okEvex) s) == some .ud) = true
      ∧ faultOf (exec (.vpmaxudEvex256 { okEvex with z := true }) wit) = some .ud
      ∧ faultOf (exec (.vpmaxudEvex512 okEvex) (setEnv (fun e => { e with features := ⟨true, true, true, true, false⟩ }) wit)) = none
      ∧ faultOf (exec (.vpmaxudEvex256 okEvex) wit) = none := by decide +kernel

/-- Both clauses: a `#UD` condition with CR0.TS = 1, and none with CR0.TS = 1 and with CR0.TS = 0. -/
theorem witness_DeviceNotAvailable :
    Covered wit ∧ (Instr.vpmaxudVex128 okVex).vl ≤ wit.env.maxvl.bits
      ∧ (setEnv (fun e => { e with cr0 := 8, cr4 := 0 }) wit).udFor (.vpmaxudVex128 okVex) = true
      ∧ (setEnv (fun e => { e with cr0 := 8 }) wit).udFor (.vpmaxudVex128 okVex) = false
      ∧ wit.udFor (.vpmaxudVex128 okVex) = false := by unfold Covered; decide +kernel

theorem witness_MisalignedOperandOfFormOne :
    (putX 0 0x2001 wit).memRef [.opSize] 1 5 (.base false 0 .none) = (.ds, 0x2001)
      ∧ LegacyReady (putX 0 0x2001 wit) ∧ (putX 0 0x2001 wit).env.linear .ds 0x2001 0 % 16 ≠ 0
      ∧ (∀ i, i < 16 → ByteReadable (putX 0 0x2001 wit) .ds 0x2001 i) := by
  refine ⟨by decide +kernel, by unfold LegacyReady Covered; decide +kernel, by decide +kernel, ?_⟩
  have h : ∀ i, i < 16 → (putX 0 0x2001 wit).env.segOk .ds 0x2001 i = true
      ∧ (putX 0 0x2001 wit).env.xlate.lookup ((putX 0 0x2001 wit).env.linear .ds 0x2001 i) = .ram (0x2001 + i) := by decide +kernel
  intro i hi
  exact ⟨(h i hi).1, _, (h i hi).2⟩

/-- M64: an operand whose last bytes pass the end of the lower half, through DS and through SS. M32: beyond the limit of DS. -/
def witSeg : State := wit |> putX 0 0x00007FFFFFFFFFF8 |> putX 5 0x00007FFFFFFFFFF8

def witLimit : State :=
  setEnv (fun e => { e with xlate := { e.xlate with ds := ⟨0, 0, 0x2007, true⟩ } }) wit32

def loadDs : Instr := .vpmaxudVex128 { okVex with src := .mem (.base false 0 .none) }
def loadSs : Instr := .vpmaxudVex128 { okVex with src := .mem (.base false 5 (.disp8 0)) }

theorem witness_IllegalAddressFault :
    (witSeg.udFor loadDs = false ∧ witSeg.env.cr0.getLsbD 3 = false
        ∧ witSeg.access loadDs = some ⟨.ds, 0x00007FFFFFFFFFF8, List.range 16, false⟩
        ∧ witSeg.env.segOk .ds 0x00007FFFFFFFFFF8 7 = true ∧ witSeg.env.segOk .ds 0x00007FFFFFFFFFF8 8 = false)
      ∧ (witSeg.udFor loadSs = false ∧ witSeg.access loadSs = some ⟨.ss, 0x00007FFFFFFFFFF8, List.range 16, false⟩
        ∧ witSeg.env.segOk .ss 0x00007FFFFFFFFFF8 8 = false)
      ∧ (witLimit.udFor loadDs = false ∧ witLimit.access loadDs = some ⟨.ds, 0x2000, List.range 16, false⟩
        ∧ witLimit.env.segOk .ds 0x2000 7 = true ∧ witLimit.env.segOk .ds 0x2000 8 = false)
      ∧ (∀ j ∈ List.range 16, witSeg.env.xlate.lookup (witSeg.env.linear .ds 0x00007FFFFFFFFFF8 j) = .ram (0x00007FFFFFFFFFF8 + j))
      ∧ (∀ j ∈ List.range 16, witLimit.env.xlate.lookup (witLimit.env.linear .ds 0x2000 j) = .ram (0x2000 + j)) := by
  decide +kernel

/-- The second half of the operand is not mapped. -/
def witPage : State := onlyMapped 0x2000 0x2007 wit

theorem witness_PageFaultPassedThrough :
    witPage.udFor loadDs = false ∧ witPage.env.cr0.getLsbD 3 = false
      ∧ witPage.access loadDs = some ⟨.ds, 0x2000, List.range 16, false⟩
      ∧ (∀ j ∈ List.range 16, witPage.env.segOk .ds 0x2000 j = true)
      ∧ witPage.env.xlate.lookup (witPage.env.linear .ds 0x2000 8) = .fault 0 := by decide +kernel

/-- A fault of each kind that the statement admits, and none of them `#UD` or `#NM`; the page fault is PageFaultCodeOfARead's
witness too. -/
theorem witness_AdmittedMemoryFaults :
    faultOf (exec loadDs witSeg) = some .gp ∧ faultOf (exec loadSs witSeg) = some .ss
      ∧ faultOf (exec (.pmaxud ⟨[.opSize], 1, .mem (.base false 0 .none)⟩) (putX 0 0x2001 wit)) = some .gp
      ∧ faultOf (exec loadDs witPage) = some (.pf 0 0x2008) ∧ witPage.wf = true := by decide +kernel

/-- EmptyMaskAccessesNoMemory, under K[2] = 0, whatever the operand's address. -/
theorem witness_EmptyMaskAccessesNoMemory :
    (∀ vl ∈ [128, 256, 512], EvexReady wit vl ⟨[], 1, 2, .mem true (.base false 0 .none), 2, true⟩)
      ∧ wit.env.faultSuppression = true ∧ ∀ j, j < 16 → ¬ Active wit 2 j := by
  refine ⟨fun vl hvl => (wit_ready _ vl (by simp at hvl; omega) (by decide)).1, rfl, ?_⟩
  unfold Active; decide +kernel

theorem witness_UnsuppressedReadsWholeOperand :
    let s := setEnv (fun e => { e with faultSuppression := false }) witPage
    let o : EvexOps := ⟨[], 1, 2, .mem false (.base false 0 .none), 2, true⟩
    (∀ vl ∈ [128, 256, 512], EvexReady s vl o ∧ s.memRef [] (vl / 8) o.len (.base false 0 .none) = (.ds, 0x2000))
      ∧ s.env.faultSuppression = false ∧ ¬ ByteReadable s .ds 0x2000 8 := by
  refine ⟨fun vl hvl => ⟨⟨.inl rfl, ?_, rfl, rfl, rfl, rfl, rfl, rfl, rfl, rfl, fun _ => rfl, fun _ => by decide⟩, ?_⟩, rfl, ?_⟩
  · simp at hvl
    show vl ≤ 512
    omega
  · rfl
  · rintro ⟨-, a, h⟩
    have h8 : (setEnv (fun e => { e with faultSuppression := false }) witPage).env.xlate.lookup
        ((setEnv (fun e => { e with faultSuppression := false }) witPage).env.linear .ds 0x2000 8) = .fault 0 := by decide +kernel
    rw [h8] at h
    cases h

/-- The broadcast operand at an address that is not mapped, under an empty writemask. -/
theorem witness_UnsuppressedBroadcast :
    let s := setEnv (fun e => { e with faultSuppression := false }) (onlyMapped 0 0 wit)
    let o : EvexOps := ⟨[], 1, 2, .mem true (.base false 0 .none), 2, true⟩
    (∀ vl ∈ [128, 256, 512], EvexReady s vl o) ∧ (∀ w ∈ [32, 64], s.memRef [] (w / 8) o.len (.base false 0 .none) = (.ds, 0x2000))
      ∧ s.env.faultSuppression = false ∧ ¬ ByteReadable s .ds 0x2000 0 ∧ ∀ j, j < 16 → ¬ Active s 2 j := by
  refine ⟨fun vl hvl => ⟨.inl rfl, ?_, rfl, rfl, rfl, rfl, rfl, rfl, rfl, rfl, fun _ => rfl, fun _ => by decide⟩,
    by decide +kernel, rfl, ?_, by unfold Active; decide +kernel⟩
  · simp at hvl
    show vl ≤ 512
    omega
  · rintro ⟨-, a, h⟩
    have h0 : (setEnv (fun e => { e with faultSuppression := false }) (onlyMapped 0 0 wit)).env.xlate.lookup
        ((setEnv (fun e => { e with faultSuppression := false }) (onlyMapped 0 0 wit)).env.linear .ds 0x2000 0) = .fault 0 := by
      decide +kernel
    rw [h0] at h
    cases h

/-- Each refusal of an instruction. -/
theorem witness_RefusalsOfInstructions :
    refusalOf (exec (.vpmaxudVex256 okVex) State.reset) = some .mode
      ∧ refusalOf (exec (.vpmaxudVex256 okVex) (setEnv (fun e => { e with maxvl := .vl128 }) wit)) = some .vlOverMaxvl
      ∧ refusalOf (exec loadDs
          (setEnv (fun e => { e with xlate := { e.xlate with restSup := .device } }) wit)) = some .device := by decide +kernel

theorem witness_OtherModesRefused : ¬ Covered State.reset := by unfold Covered; decide

theorem witness_VectorLengthAboveMaxvl :
    let s := setEnv (fun e => { e with maxvl := .vl256 }) wit
    Covered s ∧ s.env.maxvl.bits < (Instr.vpmaxudEvex512 okEvex).vl := by unfold Covered; decide +kernel

/-- VEX and EVEX agree: the operands of the two, beside `wit_vexReady` and `wit_evexReady`. -/
theorem witness_UnmaskedEvexAgreesWithVex :
    okVex.src = .reg false 3 ∧ okEvex.src = .reg (BitVec.setWidth 5 (3 : BitVec 4)) ∧ okEvex.d = okVex.d.setWidth 5
      ∧ okEvex.s1 = okVex.s1.setWidth 5 ∧ okEvex.aaa = 0#3 ∧ EvexReady wit 256 okEvex ∧ EvexReady wit 128 okEvex :=
  ⟨rfl, rfl, rfl, rfl, rfl, (wit_ready _ _ (by decide) (by decide)).1, (wit_ready _ _ (by decide) (by decide)).1⟩

/-! ### Steps -/

/-- The last instruction of the lower half, the last of the upper half, and the last of M32 whose next pc exists. -/
def witLow : State := putMem 0x00007FFFFFFFFFFA [0xC4, 0xE2, 0x69, 0x3F, 0xCB] { wit with pc := 0x00007FFFFFFFFFFA }
def witHigh : State := putMem 0xFFFFFFFFFFFFFFFA [0xC4, 0xE2, 0x69, 0x3F, 0xCB] { wit with pc := 0xFFFFFFFFFFFFFFFA }
def witTop32 : State := putMem 0xFFFFFFFA [0xC4, 0xE2, 0x69, 0x3F, 0xCB] { wit32 with pc := 0xFFFFFFFA }

theorem witness_StepRunsDecodedInstruction :
    decode .m64 witLow.fetch = .ok (.vpmaxudVex128 okVex) ∧ witLow.runOk 5 = true ∧ witLow.runOk 6 = false
      ∧ decode .m64 witHigh.fetch = .ok (.vpmaxudVex128 okVex) ∧ witHigh.runOk 5 = true ∧ witHigh.runOk 6 = false
      ∧ decode .m32 witTop32.fetch = .ok (.vpmaxudVex128 okVex) ∧ witTop32.runOk 5 = true ∧ witTop32.runOk 6 = false := by
  decide +kernel

/-- StepOfUndecodedBytes: LOCK before form 1, an instruction of no form, 15 prefix bytes, and a text that ends after two bytes. -/
theorem witness_StepOfUndecodedBytes :
    decode .m64 (putMem 0x1000 [0xF0, 0x66, 0x0F, 0x38, 0x3F, 0xCA] wit).fetch = .ud
      ∧ decode .m64 (putMem 0x1000 [0x90] wit).fetch = .refused .notInSpec
      ∧ decode .m64 (putMem 0x1000 (List.replicate 15 0x66) wit).fetch = .refused .truncated
      ∧ (putMem 0x1000 (List.replicate 15 0x66) wit).fetch.length = 15
      ∧ decode .m64 (putMem 0x00007FFFFFFFFFFE [0x66, 0x0F] { wit with pc := 0x00007FFFFFFFFFFE }).fetch = .refused .truncated
      ∧ (putMem 0x00007FFFFFFFFFFE [0x66, 0x0F] { wit with pc := 0x00007FFFFFFFFFFE }).fetch.length = 2 := by decide +kernel

/-- The same instruction one byte higher: its next pc would leave the run. -/
def wrapLow : State := putMem 0x00007FFFFFFFFFFB [0xC4, 0xE2, 0x69, 0x3F, 0xCB] { wit with pc := 0x00007FFFFFFFFFFB }
def wrapHigh : State := putMem 0xFFFFFFFFFFFFFFFB [0xC4, 0xE2, 0x69, 0x3F, 0xCB] { wit with pc := 0xFFFFFFFFFFFFFFFB }
def wrapTop32 : State := putMem 0xFFFFFFFB [0xC4, 0xE2, 0x69, 0x3F, 0xCB] { wit32 with pc := 0xFFFFFFFB }

theorem witness_WrappingInstructionIsRefused :
    decode .m64 wrapLow.fetch = .ok (.vpmaxudVex128 okVex) ∧ wrapLow.pc.toNat + 5 = 2 ^ 47
      ∧ decode .m64 wrapHigh.fetch = .ok (.vpmaxudVex128 okVex) ∧ wrapHigh.pc.toNat + 5 = 2 ^ 64
      ∧ decode .m32 wrapTop32.fetch = .ok (.vpmaxudVex128 okVex) ∧ wrapTop32.pc.toNat + 5 = 2 ^ 32 := by
  decide +kernel

/-- StepAdvancesPc, StepWritesNoMemoryAndNoEnv, StepKeepsInvariant: steps that answer a next state from states that meet the
invariant. -/
theorem witness_StepKeepsInvariant :
    (nextOf (step witLow)).map (·.pc) = some 0x00007FFFFFFFFFFF ∧ witLow.wf = true
      ∧ (nextOf (step witHigh)).map (·.pc) = some 0xFFFFFFFFFFFFFFFF ∧ witHigh.wf = true
      ∧ (nextOf (step witTop32)).map (·.pc) = some 0xFFFFFFFF ∧ witTop32.wf = true := by decide +kernel

theorem witness_LoadedWordRunsFirst :
    decodeTableWord 48 0xCB3F48ED_F262 = some (.vpmaxuqEvex512 okEvex)
      ∧ decodeTableWord 32 0x3F380F66 = some (.pmaxud ⟨[.opSize], 0, .mem (.base false 0 .none)⟩) := by decide

/-- InitValues' premise, and the INIT column of R45 on CR0 = C0000013H (CD set, NW clear) and a register. -/
theorem test_afterInit :
    wit.wf = true ∧ (setEnv (fun e => { e with cr0 := 0xC0000013 }) wit).afterInit.env.cr0 = 0x40000010
      ∧ wit.afterInit.readV 2 = vec 32 (upper ++ low1) ∧ wit.afterInit.env.xcr0 = 0xE7 ∧ wit.afterInit.env.cr4 = 0
      ∧ wit.afterInit.readX 0 = 0 := by decide +kernel

/-- A run that is final, one that faults, one that is refused and one that wants more steps, each after one completed step. -/
def witRun (tail : List Byte) : State := putMem 0x1000 ([0xC4, 0xE2, 0x69, 0x3F, 0xCB] ++ tail) wit

def endOf : RunEnd → Nat × Word
  | .final s => (0, s.pc)
  | .faulted _ s => (1, s.pc)
  | .refused _ s => (2, s.pc)
  | .unfinished s => (3, s.pc)

theorem witness_RunEndsAsItsStepsDo :
    endOf (run 0x1005 3 (witRun [])) = (0, 0x1005)
      ∧ endOf (run 0x1006 3 (witRun [0xF0, 0x66, 0x0F, 0x38, 0x3F, 0xCA])) = (1, 0x1005)
      ∧ endOf (run 0x1006 3 (witRun [0x90])) = (2, 0x1005)
      ∧ endOf (run 0x1006 1 (witRun [0x90])) = (3, 0x1005) := by decide +kernel

end Sys2Proof.Tests
end

section
/-! SUPPORT. The pc's run, the branches of a step and how a run stands, each said once; then the statements of the scope family. -/

namespace Sys2Proof.Machine

open Sys2Proof.Claims

/-! ## The pc's run -/

/-- The statements' covered modes are the decoder's and the checks'. -/
theorem covered_iff (s : State) : Covered s ↔ s.env.mode.covered = true := by
  unfold Covered
  cases s.env.mode <;> simp [Mode.covered]

/-- R38 as the statements write it, on numbers. -/
theorem State.runOk_iff (s : State) (len : Nat) :
    s.runOk len = true ↔
      (s.env.mode = .m32 ∧ s.pc.toNat + len < 2 ^ 32)
        ∨ (s.env.mode = .m64 ∧ (s.pc.toNat + len < 2 ^ 47
          ∨ (2 ^ 64 - 2 ^ 47 ≤ s.pc.toNat ∧ s.pc.toNat + len < 2 ^ 64))) := by
  unfold State.runOk
  cases s.env.mode <;> simp

/-- Within the pc's run the next pc does not wrap, in 64 bits or in the 32 bits of M32. -/
theorem State.toNat_nextPc_of_runOk (s : State) (len : Nat) (h : s.runOk len = true) :
    (s.nextPc len).toNat = s.pc.toNat + len := by
  rcases (s.runOk_iff len).1 h with ⟨hm, hlt⟩ | ⟨hm, hlt⟩
  · have hkeep : s.nextPc len = ((s.pc + BitVec.ofNat 64 len).setWidth 32).setWidth 64 := by
      simp [State.nextPc, keep, hm]
    rw [hkeep]
    simp only [BitVec.toNat_setWidth, BitVec.toNat_add, BitVec.toNat_ofNat]
    omega
  · have hkeep : s.nextPc len = s.pc + BitVec.ofNat 64 len := by simp [State.nextPc, keep, hm]
    rw [hkeep]
    simp only [BitVec.toNat_add, BitVec.toNat_ofNat]
    omega

/-! ## The branches of a step in a covered mode -/

theorem State.length_fetchFrom_le (s : State) (n i : Nat) : (s.fetchFrom n i).length ≤ n := by
  induction n generalizing i with
  | zero => simp [State.fetchFrom]
  | succ n ih =>
    unfold State.fetchFrom
    split
    · simpa using ih (i + 1)
    · simp

/-- No more than the longest instruction is fetched (`30_encoding.md` R90). -/
theorem State.length_fetch_le (s : State) : s.fetch.length ≤ maxLen := s.length_fetchFrom_le maxLen 0

theorem step_of_decode_ok (s : State) (i : Instr) (hc : Covered s) (hd : decode s.env.mode s.fetch = .ok i) :
    step s = if s.runOk i.ilen then exec i s else .refused .pcWrap := by
  simp [step, (covered_iff s).1 hc, hd]

theorem step_of_decode_ud (s : State) (hc : Covered s) (hd : decode s.env.mode s.fetch = .ud) :
    step s = .fault .ud := by
  simp [step, (covered_iff s).1 hc, hd, takeException]

theorem step_of_decode_truncated (s : State) (hc : Covered s) (hd : decode s.env.mode s.fetch = .refused .truncated) :
    step s = if s.fetch.length < maxLen then .refused .text else .refused (.undecoded .tooLong) := by
  simp [step, (covered_iff s).1 hc, hd]

theorem step_of_decode_refused (s : State) (r : DecodeRefusal) (hc : Covered s)
    (hd : decode s.env.mode s.fetch = .refused r) (hr : r ≠ .truncated) :
    step s = .refused (.undecoded r) := by
  cases r with
  | truncated => exact absurd rfl hr
  | _ => simp [step, (covered_iff s).1 hc, hd]

/-! ## Runs -/

theorem run_of_pc_eq (stop : Word) (n : Nat) (s : State) (h : s.pc = stop) : run stop n s = .final s := by
  cases n <;> simp [run, h]

theorem run_zero_of_pc_ne (stop : Word) (s : State) (h : s.pc ≠ stop) : run stop 0 s = .unfinished s := by
  simp [run, h]

theorem run_succ_of_next (stop : Word) (n : Nat) (s t : State) (h : s.pc ≠ stop) (hs : step s = .next t) :
    run stop (n + 1) s = run stop n t := by
  simp [run, h, hs]

theorem run_succ_of_fault (stop : Word) (n : Nat) (s : State) (f : Fault) (h : s.pc ≠ stop) (hs : step s = .fault f) :
    run stop (n + 1) s = .faulted f s := by
  simp [run, h, hs]

theorem run_succ_of_refused (stop : Word) (n : Nat) (s : State) (r : Refusal) (h : s.pc ≠ stop)
    (hs : step s = .refused r) : run stop (n + 1) s = .refused r s := by
  simp [run, h, hs]

/-- A run's end is a true report of the state it names: at the end of the text, or elsewhere and with the step it tells of. -/
def RunEnd.Truthful (stop : Word) : RunEnd → Prop
  | .final t => t.pc = stop
  | .faulted f t => step t = .fault f ∧ t.pc ≠ stop
  | .refused r t => step t = .refused r ∧ t.pc ≠ stop
  | .unfinished t => t.pc ≠ stop

theorem run_truthful (stop : Word) (n : Nat) (s : State) : (run stop n s).Truthful stop := by
  induction n generalizing s with
  | zero =>
    by_cases h : s.pc = stop
    · rw [run_of_pc_eq stop 0 s h]; exact h
    · rw [run_zero_of_pc_ne stop s h]; exact h
  | succ n ih =>
    by_cases h : s.pc = stop
    · rw [run_of_pc_eq stop (n + 1) s h]; exact h
    · cases hs : step s with
      | next t => rw [run_succ_of_next stop n s t h hs]; exact ih t
      | fault f => rw [run_succ_of_fault stop n s f h hs]; exact ⟨hs, h⟩
      | refused r => rw [run_succ_of_refused stop n s r h hs]; exact ⟨hs, h⟩

/-- `m` more steps after a run's end: an unfinished run goes on, an ended one stays as it is. -/
def RunEnd.resume (stop : Word) (m : Nat) : RunEnd → RunEnd
  | .final t => .final t
  | .faulted f t => .faulted f t
  | .refused r t => .refused r t
  | .unfinished t => run stop m t

theorem RunEnd.resume_of_ended (stop : Word) (m : Nat) (e : RunEnd) (h : ∀ t, e ≠ .unfinished t) :
    e.resume stop m = e := by
  cases e with
  | final t => rfl
  | faulted f t => rfl
  | refused r t => rfl
  | unfinished t => exact absurd rfl (h t)

/-- Runs compose: `n + m` steps are `n` steps and then `m` more. -/
theorem run_add (stop : Word) (n m : Nat) (s : State) : run stop (n + m) s = (run stop n s).resume stop m := by
  induction n generalizing s with
  | zero =>
    by_cases h : s.pc = stop
    · rw [run_of_pc_eq stop _ s h, run_of_pc_eq stop _ s h]; rfl
    · rw [run_zero_of_pc_ne stop s h, Nat.zero_add]; rfl
  | succ n ih =>
    rw [Nat.succ_add]
    by_cases h : s.pc = stop
    · rw [run_of_pc_eq stop _ s h, run_of_pc_eq stop _ s h]; rfl
    · cases hs : step s with
      | next t => rw [run_succ_of_next stop _ s t h hs, run_succ_of_next stop n s t h hs]; exact ih t
      | fault f => rw [run_succ_of_fault stop _ s f h hs, run_succ_of_fault stop n s f h hs]; rfl
      | refused r => rw [run_succ_of_refused stop _ s r h hs, run_succ_of_refused stop n s r h hs]; rfl

/-! ## The vector length -/

theorem vl_le_maxvl_512 (i : Instr) : i.vl ≤ MaxVl.vl512.bits := by
  cases i <;> simp [Instr.vl, MaxVl.bits]

/-- Of everything an instruction can answer, only the refusal is left where VL exceeds MAXVL (log 27). -/
theorem exec_of_maxvl_lt_vl (i : Instr) (s : State) (hc : Covered s) (hv : s.env.maxvl.bits < i.vl) :
    exec i s = .refused .vlOverMaxvl := by
  have hm : s.env.mode.covered = true := (covered_iff s).1 hc
  have not_enabled : ¬ s.enabled i := fun ⟨_, hle, _, _⟩ => absurd hle (Nat.not_le.2 hv)
  rcases exec_cases i s with ⟨_, hm'⟩ | ⟨h, _, _⟩ | ⟨_, _, hle, _⟩ | ⟨_, _, hle, _, _⟩ | ⟨_, _, he, _⟩ | ⟨_, he, _⟩ | ⟨he, _⟩
  · simp [hm] at hm'
  · exact h
  · omega
  · omega
  · exact absurd he not_enabled
  · exact absurd he not_enabled
  · exact absurd he not_enabled

/-! ## The statements -/

/-- Settles O51: the step's instruction retires with the next pc of R37, which in the run of R38 does not wrap. -/
theorem stepAdvancesPc : Obligations.StepAdvancesPc := by
  intro s t h
  obtain ⟨-, i, hd, hr, he⟩ := step_next s t h
  obtain ⟨val, rfl⟩ := exec_next_shape i s t he
  have hpc : ((s.setV i.dest val).retire i.ilen).pc.toNat = s.pc.toNat + i.ilen := by
    simpa using s.toNat_nextPc_of_runOk i.ilen hr
  refine ⟨i, hd, he, hpc, ?_⟩
  rw [hpc]
  rcases (s.runOk_iff i.ilen).1 hr with h32 | ⟨hm, hlow | ⟨hhigh, -⟩⟩
  · exact .inl h32
  · exact .inr ⟨hm, .inl hlow⟩
  · exact .inr ⟨hm, .inr hhigh⟩

/-- Settles O59: every end is truthful, a run unfolds step by step, and runs compose. -/
theorem runEndsAsItsStepsDo : Obligations.RunEndsAsItsStepsDo := by
  intro stop n s
  have truthful : ∀ e, run stop n s = e → e.Truthful stop := fun e h => h ▸ run_truthful stop n s
  refine ⟨⟨fun t => truthful (.final t), fun f t => truthful (.faulted f t), fun r t => truthful (.refused r t),
      fun t => truthful (.unfinished t)⟩,
    ⟨run_of_pc_eq stop n s, run_succ_of_fault stop n s, run_succ_of_refused stop n s, run_succ_of_next stop n s⟩,
    fun m => ⟨fun t h => ?_, fun h => ?_⟩⟩
  · rw [run_add, h]; rfl
  · rw [run_add, RunEnd.resume_of_ended stop m _ h]

/-- Settles O47: VL is at most 512, and of all an instruction can answer only this refusal fits. -/
theorem vectorLengthAboveMaxvl : Obligations.VectorLengthAboveMaxvl :=
  ⟨vl_le_maxvl_512, exec_of_maxvl_lt_vl⟩

/-- Settles O48: the decoder's branch for an instruction, with R38's check met. -/
theorem stepRunsDecodedInstruction : Obligations.StepRunsDecodedInstruction := by
  intro s i hc hd hr
  rw [step_of_decode_ok s i hc hd, if_pos hr]

/-- Settles O49: the branches of a step, and at most 15 bytes are fetched, so that not 15 means fewer. -/
theorem stepOfUndecodedBytes : Obligations.StepOfUndecodedBytes := by
  intro s hc
  refine ⟨step_of_decode_ud s hc, fun r => step_of_decode_refused s r hc, fun hd => ?_⟩
  rw [step_of_decode_truncated s hc hd]
  refine ⟨fun h => if_neg ?_, fun h => if_pos ?_⟩
  · simp [h, maxLen]
  · exact Nat.lt_of_le_of_ne s.length_fetch_le h

end Sys2Proof.Machine
end

section
/-! SUPPORT. Every instruction as its checks, the new value of its destination and one write; what that value depends on. -/

namespace Sys2Proof.Machine

open Sys2Proof.Claims

/-! ## Going on with the value of an outcome -/

theorem andThen_assoc {α β γ : Type} (r : Host.Outcome α Fault Refusal) (f : α → Host.Outcome β Fault Refusal)
    (g : β → Host.Outcome γ Fault Refusal) : andThen (andThen r f) g = andThen r fun a => andThen (f a) g := by
  cases r <;> rfl

theorem andThen_eq_next_iff {α β : Type} (r : Host.Outcome α Fault Refusal) (f : α → Host.Outcome β Fault Refusal)
    (b : β) : andThen r f = .next b ↔ ∃ a, r = .next a ∧ f a = .next b := by
  cases r <;> simp [andThen]

theorem mapNext_andThen {α : Type} (g : State → State) (r : Host.Outcome α Fault Refusal)
    (f : α → Host.Outcome State Fault Refusal) : mapNext g (andThen r f) = andThen r fun a => mapNext g (f a) := by
  cases r <;> rfl

theorem State.mapNext_guarded (g : State → State) (s : State) (vl : Nat) (ud : Bool)
    (body : Host.Outcome State Fault Refusal) :
    mapNext g (s.guarded vl ud body) = s.guarded vl ud (mapNext g body) := by
  simp only [State.guarded, takeException, apply_ite (mapNext g)]
  rfl

/-! ## The new value of the destination -/

/-- What form 1 puts in its destination (`40_pmaxud_legacy_sse.md` R140), or why its source is not read. -/
def State.legacyValue (s : State) (len : Nat) (o : LegacyOps) : Host.Outcome Vec Fault Refusal :=
  andThen (s.plainSource o.prefixes 128 len true o.src) fun b =>
    .next (mergeLow 128 (s.readV (vreg o.d)) (pack 32 4 fun j => umax (elem 32 (s.readV (vreg o.d)) j) (b j)))

/-- What a VEX form puts in its destination (`41_vpmaxud_vex.md` R150, R151), or why its source is not read. -/
def State.vexValue (s : State) (vl : Nat) (o : VexOps) : Host.Outcome Vec Fault Refusal :=
  andThen (s.plainSource o.prefixes vl o.len false o.src) fun b =>
    .next (pack 32 (vl / 32) fun j => umax (elem 32 (s.readV (vreg o.s1)) j) (b j))

/-- What an EVEX form puts in its destination (`42_vpmaxud_evex.md` R160), or why its source is not read. -/
def State.evexValue (s : State) (w vl : Nat) (o : EvexOps) : Host.Outcome Vec Fault Refusal :=
  andThen (s.maskedSource o.prefixes w vl o.len o.aaa o.src) fun b => .next (pack w (vl / w) (s.maskedMax w o b))

/-- What an instruction that is past its checks puts in its destination, or why its source is not read. -/
def State.destValue (s : State) : Instr → Host.Outcome Vec Fault Refusal
  | .pmaxud o => s.legacyValue (o.len false) o
  | .pmaxudRex _ o => s.legacyValue (o.len true) o
  | .vpmaxudVex128 o => s.vexValue 128 o
  | .vpmaxudVex256 o => s.vexValue 256 o
  | .vpmaxudEvex128 o => s.evexValue 32 128 o
  | .vpmaxudEvex256 o => s.evexValue 32 256 o
  | .vpmaxudEvex512 o => s.evexValue 32 512 o
  | .vpmaxuqEvex128 o => s.evexValue 64 128 o
  | .vpmaxuqEvex256 o => s.evexValue 64 256 o
  | .vpmaxuqEvex512 o => s.evexValue 64 512 o

/-- Every instruction: its checks, the new value of its destination, the write of it and the retirement. -/
theorem exec_eq (i : Instr) (s : State) :
    exec i s = s.guarded i.vl (s.udFor i)
      (andThen (s.destValue i) fun val => .next ((s.setV i.dest val).retire i.ilen)) := by
  cases i <;>
    simp only [State.destValue, State.legacyValue, State.vexValue, State.evexValue, andThen_assoc] <;> rfl

/-- An instruction completes exactly when its checks let it and its source is read, and then only writes its destination and
retires. -/
theorem exec_eq_next_iff (i : Instr) (s t : State) :
    exec i s = .next t ↔
      s.enabled i ∧ ∃ val, s.destValue i = .next val ∧ t = (s.setV i.dest val).retire i.ilen := by
  rw [exec_eq]
  constructor
  · intro h
    obtain ⟨hm, hv, hu, ht, hbody⟩ := State.guarded_next _ _ _ _ _ h
    obtain ⟨val, hval, ht'⟩ := (andThen_eq_next_iff _ _ _).1 hbody
    exact ⟨⟨hm, hv, hu, ht⟩, val, hval, (Host.Outcome.next.inj ht').symm⟩
  · rintro ⟨⟨hm, hv, hu, ht⟩, val, hval, rfl⟩
    rw [State.guarded_of_enabled _ _ _ _ hm hv hu ht, hval]
    rfl

/-- A change of the state that reaches neither the checks nor the new value of the destination, and that commutes with writing
it and retiring, reaches the outcome only through the next state. -/
theorem exec_eq_mapNext (i : Instr) (s s' : State) (g : State → State)
    (hguard : ∀ vl ud body, s'.guarded vl ud body = s.guarded vl ud body) (hud : s'.udFor i = s.udFor i)
    (hvalue : s'.destValue i = s.destValue i)
    (hwrite : ∀ val, (s'.setV i.dest val).retire i.ilen = g ((s.setV i.dest val).retire i.ilen)) :
    exec i s' = mapNext g (exec i s) := by
  rw [exec_eq, exec_eq, hguard, hud, hvalue, State.mapNext_guarded, mapNext_andThen]
  simp only [hwrite, mapNext]

end Sys2Proof.Machine
end

section
/-! SUPPORT. The statements about the state: frames, what an instruction reads, the invariant, reset and INIT. -/

namespace Sys2Proof.Machine

open Sys2Proof.Claims

/-! ## The destination from VL on (`10_state.md` R32) -/

theorem State.legacyValue_upper (s : State) (len : Nat) (o : LegacyOps) (val : Vec)
    (h : s.legacyValue len o = .next val) (k : Nat) (hk : 128 ≤ k) :
    val.getLsbD k = (s.readV (vreg o.d)).getLsbD k := by
  obtain ⟨b, -, hb⟩ := (andThen_eq_next_iff _ _ _).1 h
  rw [← Host.Outcome.next.inj hb, getLsbD_mergeLow, if_neg (Nat.not_lt.2 hk)]

theorem State.vexValue_upper (s : State) (vl : Nat) (o : VexOps) (val : Vec)
    (h : s.vexValue vl o = .next val) (k : Nat) (hk : vl ≤ k) : val.getLsbD k = false := by
  obtain ⟨b, -, hb⟩ := (andThen_eq_next_iff _ _ _).1 h
  rw [← Host.Outcome.next.inj hb]
  exact pack_zero_above 32 _ _ (by decide) k (Nat.le_trans (Nat.div_mul_le_self vl 32) hk)

theorem State.evexValue_upper (s : State) (w vl : Nat) (o : EvexOps) (val : Vec) (hw : 0 < w)
    (h : s.evexValue w vl o = .next val) (k : Nat) (hk : vl ≤ k) : val.getLsbD k = false := by
  obtain ⟨b, -, hb⟩ := (andThen_eq_next_iff _ _ _).1 h
  rw [← Host.Outcome.next.inj hb]
  exact pack_zero_above w _ _ hw k (Nat.le_trans (Nat.div_mul_le_self vl w) hk)

/-- From VL on form 1 keeps the bits of its destination, and every other form zeroes them. -/
theorem State.destValue_upper (s : State) (i : Instr) (val : Vec) (h : s.destValue i = .next val) (k : Nat)
    (hk : i.vl ≤ k) : val.getLsbD k = (i.legacy && (s.readV i.dest).getLsbD k) := by
  cases i with
  | pmaxud o => exact s.legacyValue_upper _ o val h k hk
  | pmaxudRex w o => exact s.legacyValue_upper _ o val h k hk
  | vpmaxudVex128 o => exact s.vexValue_upper 128 o val h k hk
  | vpmaxudVex256 o => exact s.vexValue_upper 256 o val h k hk
  | vpmaxudEvex128 o => exact s.evexValue_upper 32 128 o val (by decide) h k hk
  | vpmaxudEvex256 o => exact s.evexValue_upper 32 256 o val (by decide) h k hk
  | vpmaxudEvex512 o => exact s.evexValue_upper 32 512 o val (by decide) h k hk
  | vpmaxuqEvex128 o => exact s.evexValue_upper 64 128 o val (by decide) h k hk
  | vpmaxuqEvex256 o => exact s.evexValue_upper 64 256 o val (by decide) h k hk
  | vpmaxuqEvex512 o => exact s.evexValue_upper 64 512 o val (by decide) h k hk

/-! ## Vector registers that agree below VL (`10_state.md` R34) -/

section
variable (s : State) (v' : Vector Vec 32)

/-- With the registers `v'` in their place, the vector registers of `s` keep their bits below `vl`. -/
def State.SameBelow (vl : Nat) : Prop :=
  ∀ n k, k < vl → (({ s with v := v' } : State).readV n).getLsbD k = (s.readV n).getLsbD k

variable {s v'} {vl : Nat}

theorem State.SameBelow.elem_eq (hv : s.SameBelow v' vl) (w : Nat) (n : BitVec 5) (j : Nat) (hj : j < vl / w) :
    elem w (({ s with v := v' } : State).readV n) j = elem w (s.readV n) j := by
  apply BitVec.eq_of_getLsbD_eq
  intro i hi
  have hlt : j * w + i < vl :=
    calc j * w + i < (j + 1) * w := by rw [Nat.succ_mul]; omega
      _ ≤ vl / w * w := Nat.mul_le_mul_right w hj
      _ ≤ vl := Nat.div_mul_le_self vl w
  simp only [elem, BitVec.getLsbD_extractLsb', hi, decide_true, Bool.true_and]
  exact hv n _ hlt

theorem State.SameBelow.plainSource_next (hv : s.SameBelow v' vl) (ps : List Prefix) (len : Nat) (al : Bool) (src : Rm4)
    (b : Nat → BitVec 32) (h : s.plainSource ps vl len al src = .next b) :
    ∃ b', ({ s with v := v' } : State).plainSource ps vl len al src = .next b' ∧ ∀ j, j < vl / 32 → b' j = b j := by
  cases src with
  | reg x n =>
    cases h
    exact ⟨_, rfl, hv.elem_eq 32 (vreg n)⟩
  | mem a => exact ⟨b, h, fun _ _ => rfl⟩

theorem State.SameBelow.maskedSource_next (hv : s.SameBelow v' vl) (w : Nat) (ps : List Prefix) (len : Nat)
    (aaa : BitVec 3) (src : Rm5) (b : Nat → BitVec w) (h : s.maskedSource ps w vl len aaa src = .next b) :
    ∃ b', ({ s with v := v' } : State).maskedSource ps w vl len aaa src = .next b' ∧ ∀ j, j < vl / w → b' j = b j := by
  cases src with
  | reg n =>
    cases h
    exact ⟨_, rfl, hv.elem_eq w n⟩
  | mem bcst a => exact ⟨b, h, fun _ _ => rfl⟩

theorem State.SameBelow.legacyValue_next (hv : s.SameBelow v' 128) (len : Nat) (o : LegacyOps) (val : Vec)
    (h : s.legacyValue len o = .next val) :
    ∃ val', ({ s with v := v' } : State).legacyValue len o = .next val'
      ∧ ∀ k, k < 128 → val'.getLsbD k = val.getLsbD k := by
  obtain ⟨b, hsrc, hval⟩ := (andThen_eq_next_iff _ _ _).1 h
  obtain ⟨b', hsrc', hb⟩ := hv.plainSource_next o.prefixes len true o.src b hsrc
  refine ⟨_, (andThen_eq_next_iff _ _ _).2 ⟨b', hsrc', rfl⟩, fun k hk => ?_⟩
  rw [← Host.Outcome.next.inj hval, getLsbD_mergeLow, getLsbD_mergeLow, if_pos hk, if_pos hk]
  congr 1
  exact pack_congr 32 4 _ _ fun j hj => by rw [hv.elem_eq 32 _ j hj, hb j hj]

theorem State.SameBelow.vexValue_next (hv : s.SameBelow v' vl) (o : VexOps) (val : Vec)
    (h : s.vexValue vl o = .next val) : ({ s with v := v' } : State).vexValue vl o = .next val := by
  obtain ⟨b, hsrc, hval⟩ := (andThen_eq_next_iff _ _ _).1 h
  obtain ⟨b', hsrc', hb⟩ := hv.plainSource_next o.prefixes o.len false o.src b hsrc
  refine (andThen_eq_next_iff _ _ _).2 ⟨b', hsrc', hval ▸ congrArg _ ?_⟩
  exact pack_congr 32 _ _ _ fun j hj => by rw [hv.elem_eq 32 _ j hj, hb j hj]

theorem State.SameBelow.evexValue_next (hv : s.SameBelow v' vl) (w : Nat) (o : EvexOps) (val : Vec)
    (h : s.evexValue w vl o = .next val) : ({ s with v := v' } : State).evexValue w vl o = .next val := by
  obtain ⟨b, hsrc, hval⟩ := (andThen_eq_next_iff _ _ _).1 h
  obtain ⟨b', hsrc', hb⟩ := hv.maskedSource_next w o.prefixes o.len o.aaa o.src b hsrc
  refine (andThen_eq_next_iff _ _ _).2 ⟨b', hsrc', hval ▸ congrArg _ ?_⟩
  refine pack_congr w _ _ _ fun j hj => ?_
  have hactive : ({ s with v := v' } : State).active o.aaa j = s.active o.aaa j := rfl
  simp only [State.maskedMax, hactive, hv.elem_eq w _ j hj, hb j hj]

/-- Below VL the new value of the destination depends on the vector registers below VL only. -/
theorem State.SameBelow.destValue_next (i : Instr) (hv : s.SameBelow v' i.vl) (val : Vec)
    (h : s.destValue i = .next val) :
    ∃ val', ({ s with v := v' } : State).destValue i = .next val'
      ∧ ∀ k, k < i.vl → val'.getLsbD k = val.getLsbD k := by
  cases i with
  | pmaxud o => exact hv.legacyValue_next _ o val h
  | pmaxudRex w o => exact hv.legacyValue_next _ o val h
  | vpmaxudVex128 o => exact ⟨val, hv.vexValue_next o val h, fun _ _ => rfl⟩
  | vpmaxudVex256 o => exact ⟨val, hv.vexValue_next o val h, fun _ _ => rfl⟩
  | vpmaxudEvex128 o => exact ⟨val, hv.evexValue_next 32 o val h, fun _ _ => rfl⟩
  | vpmaxudEvex256 o => exact ⟨val, hv.evexValue_next 32 o val h, fun _ _ => rfl⟩
  | vpmaxudEvex512 o => exact ⟨val, hv.evexValue_next 32 o val h, fun _ _ => rfl⟩
  | vpmaxuqEvex128 o => exact ⟨val, hv.evexValue_next 64 o val h, fun _ _ => rfl⟩
  | vpmaxuqEvex256 o => exact ⟨val, hv.evexValue_next 64 o val h, fun _ _ => rfl⟩
  | vpmaxuqEvex512 o => exact ⟨val, hv.evexValue_next 64 o val h, fun _ _ => rfl⟩

end

/-! ## Flags and Translate in the new value of the destination (`10_state.md` R39, R41) -/

theorem State.destValue_withFlags (s : State) (f m : BitVec 32) (c : Word) (i : Instr) :
    (withFlags s f m c).destValue i = s.destValue i := by
  cases i <;> rfl

theorem State.plainSource_withXlate_of_isReg (s : State) (x : Translate) (ps : List Prefix) (vl len : Nat) (al : Bool)
    (src : Rm4) (h : src.isReg = true) :
    (withXlate s x).plainSource ps vl len al src = s.plainSource ps vl len al src := by
  cases src with
  | reg _ n => rfl
  | mem a => cases h

theorem State.maskedSource_withXlate_of_isReg (s : State) (x : Translate) (ps : List Prefix) (w vl len : Nat)
    (aaa : BitVec 3) (src : Rm5) (h : src.isReg = true) :
    (withXlate s x).maskedSource ps w vl len aaa src = s.maskedSource ps w vl len aaa src := by
  cases src with
  | reg n => rfl
  | mem bcst a => cases h

theorem State.legacyValue_withXlate (s : State) (x : Translate) (len : Nat) (o : LegacyOps) (h : o.src.isReg = true) :
    (withXlate s x).legacyValue len o = s.legacyValue len o := by
  rw [State.legacyValue, State.plainSource_withXlate_of_isReg _ _ _ _ _ _ _ h]; rfl

theorem State.vexValue_withXlate (s : State) (x : Translate) (vl : Nat) (o : VexOps) (h : o.src.isReg = true) :
    (withXlate s x).vexValue vl o = s.vexValue vl o := by
  rw [State.vexValue, State.plainSource_withXlate_of_isReg _ _ _ _ _ _ _ h]; rfl

theorem State.evexValue_withXlate (s : State) (x : Translate) (w vl : Nat) (o : EvexOps) (h : o.src.isReg = true) :
    (withXlate s x).evexValue w vl o = s.evexValue w vl o := by
  rw [State.evexValue, State.maskedSource_withXlate_of_isReg _ _ _ _ _ _ _ _ h]; rfl

/-- With a register source the new value of the destination does not depend on Translate. -/
theorem State.destValue_withXlate (s : State) (x : Translate) (i : Instr) (h : i.regSource = true) :
    (withXlate s x).destValue i = s.destValue i := by
  cases i with
  | pmaxud o => exact s.legacyValue_withXlate x _ o h
  | pmaxudRex w o => exact s.legacyValue_withXlate x _ o h
  | vpmaxudVex128 o => exact s.vexValue_withXlate x 128 o h
  | vpmaxudVex256 o => exact s.vexValue_withXlate x 256 o h
  | vpmaxudEvex128 o => exact s.evexValue_withXlate x 32 128 o h
  | vpmaxudEvex256 o => exact s.evexValue_withXlate x 32 256 o h
  | vpmaxudEvex512 o => exact s.evexValue_withXlate x 32 512 o h
  | vpmaxuqEvex128 o => exact s.evexValue_withXlate x 64 128 o h
  | vpmaxuqEvex256 o => exact s.evexValue_withXlate x 64 256 o h
  | vpmaxuqEvex512 o => exact s.evexValue_withXlate x 64 512 o h

theorem State.udFor_withFlags (s : State) (f m : BitVec 32) (c : Word) (i : Instr) :
    (withFlags s f m c).udFor i = s.udFor i := by
  cases i <;> rfl

theorem State.udFor_withXlate (s : State) (x : Translate) (i : Instr) : (withXlate s x).udFor i = s.udFor i := by
  cases i <;> rfl

/-! ## The frame of an instruction -/

theorem State.toNat_nextPc_m64 (s : State) (len : Nat) (hm : s.env.mode = .m64) :
    (s.nextPc len).toNat = (s.pc.toNat + len) % 2 ^ 64 := by
  simp [State.nextPc, keep, hm]

theorem State.toNat_nextPc_m32 (s : State) (len : Nat) (hm : s.env.mode = .m32) :
    (s.nextPc len).toNat = (s.pc.toNat + len) % 2 ^ 32 := by
  simp [State.nextPc, keep, hm]
  omega

/-- Writing one vector register and retiring is inside the frame. -/
theorem State.onlyWrites_retire_setV (s : State) (d : BitVec 5) (val : Vec) (len : Nat) :
    OnlyWrites s ((s.setV d val).retire len) d len :=
  ⟨s.toNat_nextPc_m64 len, s.toNat_nextPc_m32 len, fun n hn => s.readV_setV_other d n val hn, rfl, rfl, rfl, rfl, rfl,
    fun _ => rfl, rfl⟩

/-- The destination of a legacy or VEX form is one of the registers 0 to 15 (`10_state.md` R33). -/
theorem dest_lt_16 (i : Instr)
    (h : (∃ o, i = .pmaxud o ∨ (∃ w, i = .pmaxudRex w o)) ∨ (∃ o, i = .vpmaxudVex128 o ∨ i = .vpmaxudVex256 o)) :
    i.dest.toNat < 16 := by
  have hlt : ∀ d : BitVec 4, (d.setWidth 5).toNat < 16 := by decide
  rcases h with ⟨o, rfl | ⟨w, rfl⟩⟩ | ⟨o, rfl | rfl⟩
  · exact hlt o.d
  · exact hlt o.d
  · exact hlt o.d
  · exact hlt o.d

/-! ## The invariant -/

theorem zeroAbove_iff {w : Nat} (n : Nat) (v : BitVec w) : zeroAbove n v = true ↔ ∀ k, n ≤ k → v.getLsbD k = false := by
  simp only [zeroAbove, beq_iff_eq]
  constructor
  · intro h k hk
    have hbit := congrArg (·.getLsbD (k - n)) h
    simpa [Nat.add_sub_cancel' hk] using hbit
  · intro h
    apply BitVec.eq_of_getLsbD_eq
    intro k _
    simpa using h (n + k) (Nat.le_add_right n k)

theorem State.all_v_iff (s : State) (p : Vec → Bool) : s.v.toList.all p = true ↔ ∀ n, p (s.readV n) = true := by
  simp only [List.all_eq_true, Vector.mem_toList_iff, Vector.mem_iff_getElem]
  constructor
  · intro h n
    exact h _ ⟨n.toNat, n.isLt, rfl⟩
  · rintro h _ ⟨j, hj, rfl⟩
    simpa [State.readV, Nat.mod_eq_of_lt hj] using h (BitVec.ofNat 5 j)

/-- The clauses of the invariant. -/
theorem State.wf_iff (s : State) :
    s.wf = true ↔ Memory.wf s.mem = true ∧ (∀ n, zeroAbove s.env.maxvl.bits (s.readV n) = true)
      ∧ s.k.toList.all (zeroAbove s.env.kw.bits) = true ∧ s.pcOk = true ∧ s.env.xlate.codesOk = true := by
  simp only [State.wf, Bool.and_eq_true, State.all_v_iff, and_assoc]

/-- Within the pc's run the next pc is an address of its mode. -/
theorem State.pcOk_of_runOk (s t : State) (len : Nat) (hmode : t.env.mode = s.env.mode)
    (hpc : t.pc.toNat = s.pc.toNat + len) (h : s.runOk len = true) : t.pcOk = true := by
  unfold State.pcOk
  rw [hmode, hpc]
  rcases (s.runOk_iff len).1 h with ⟨hm, hlt⟩ | ⟨hm, hlt⟩
  · simpa [hm] using hlt
  · simp only [hm, canonical, Bool.or_eq_true, Bool.and_eq_true, decide_eq_true_eq]
    omega

/-- An instruction brings no bit beyond MAXVL into its destination: above VL it keeps or zeroes, and VL is at most MAXVL. -/
theorem State.zeroAbove_destValue (s : State) (i : Instr) (val : Vec) (hvl : i.vl ≤ s.env.maxvl.bits)
    (hold : zeroAbove s.env.maxvl.bits (s.readV i.dest) = true) (h : s.destValue i = .next val) :
    zeroAbove s.env.maxvl.bits val = true := by
  rw [zeroAbove_iff] at hold ⊢
  intro k hk
  rw [s.destValue_upper i val h k (Nat.le_trans hvl hk), hold k hk, Bool.and_false]

/-- An instruction whose next pc stays in the run keeps the invariant. -/
theorem exec_preserves_wf (i : Instr) (s t : State) (hwf : s.wf = true) (hrun : s.runOk i.ilen = true)
    (h : exec i s = .next t) : t.wf = true := by
  obtain ⟨⟨-, hvl, -, -⟩, val, hval, rfl⟩ := (exec_eq_next_iff i s t).1 h
  obtain ⟨hmem, hv, hk, -, hcodes⟩ := s.wf_iff.1 hwf
  have hpc : ((s.setV i.dest val).retire i.ilen).pcOk = true :=
    s.pcOk_of_runOk _ i.ilen rfl (s.toNat_nextPc_of_runOk i.ilen hrun) hrun
  refine (State.wf_iff _).2 ⟨hmem, fun n => ?_, hk, hpc, hcodes⟩
  rw [State.readV_retire, State.retire_env, State.setV_env]
  by_cases hn : n = i.dest
  · rw [hn, State.readV_setV_same]
    exact s.zeroAbove_destValue i val hvl (hv i.dest) hval
  · rw [State.readV_setV_other _ _ _ _ hn]
    exact hv n

/-! ## Reset and INIT -/

@[simp] theorem State.readV_reset (n : BitVec 5) : State.reset.readV n = 0 := by
  simp [State.reset, State.readV]

@[simp] theorem State.readK_reset (n : BitVec 3) : State.reset.readK n = 0 := by
  simp [State.reset, State.readK]

/-- After reset the general registers but EDX are 0. -/
theorem State.readX_reset_of_ne (n : BitVec 4) (h : n ≠ 2#4) : State.reset.readX n = 0 := by
  revert n; decide

theorem getLsbD_cacheBits (k : Nat) : cacheBits.getLsbD k = decide (k = 29 ∨ k = 30) := by
  by_cases hk : k < 64
  · revert k; decide
  · rw [BitVec.getLsbD_of_ge _ _ (by omega)]
    simp; omega

/-- INIT takes CR0's cache bits from the state and every other bit from the value after reset. -/
theorem State.getLsbD_cr0_afterInit (s : State) (k : Nat) :
    s.afterInit.env.cr0.getLsbD k
      = if k = 29 ∨ k = 30 then s.env.cr0.getLsbD k else (0x60000010 : Word).getLsbD k := by
  by_cases hk : k < 64
  · simp only [State.afterInit_env, BitVec.getLsbD_or, BitVec.getLsbD_and, BitVec.getLsbD_not, getLsbD_cacheBits]
    by_cases hc : k = 29 ∨ k = 30
    · simp [hc]
    · simp [hc, hk]
  · have hc : ¬ (k = 29 ∨ k = 30) := by omega
    rw [if_neg hc, BitVec.getLsbD_of_ge _ _ (Nat.le_of_not_lt hk), BitVec.getLsbD_of_ge _ _ (Nat.le_of_not_lt hk)]

theorem Translate.codesOk_afterReset : Translate.afterReset.codesOk = true := by decide

/-- INIT keeps the invariant: it keeps memory and the registers it speaks of, and real-address mode bounds no pc. -/
theorem State.afterInit_preserves_wf (s : State) (h : s.wf = true) : s.afterInit.wf = true := by
  obtain ⟨hmem, hv, hk, -, -⟩ := s.wf_iff.1 h
  exact (State.wf_iff _).2 ⟨hmem, hv, hk, rfl, Translate.codesOk_afterReset⟩

/-- CR4 = 0, the value after reset, makes every form `#UD`: form 1 for OSFXSR, the others for OSXSAVE. -/
theorem State.udFor_of_cr4_zero (s : State) (i : Instr) (h : s.env.cr4 = 0) : s.udFor i = true := by
  have hfx : s.env.osfxsr = false := by simp [Env.osfxsr, h]
  have hxs : s.env.osxsave = false := by simp [Env.osxsave, h]
  cases i <;> simp [State.udFor, Env.legacyUd, Env.vexUd, Env.evexUd, hfx, hxs]

/-! ## The statements -/

/-- Settles O53: the step is an instruction's whose next pc stays in the run, and such an instruction keeps each clause. -/
theorem stepKeepsInvariant : Obligations.StepKeepsInvariant := by
  intro s t hwf h
  obtain ⟨-, i, -, hrun, hexec⟩ := step_next s t h
  exact exec_preserves_wf i s t hwf hrun hexec

/-- Settles O23: the next state is the old one with the destination written, retired; a legacy or VEX destination is below 16. -/
theorem execFrame : Obligations.ExecFrame := by
  intro i s t h
  obtain ⟨val, rfl⟩ := exec_next_shape i s t h
  have hframe := s.onlyWrites_retire_setV i.dest val i.ilen
  refine ⟨hframe, fun hform n hn => ?_⟩
  obtain ⟨-, -, hother, -⟩ := hframe
  refine hother n ?_
  rintro rfl
  exact absurd (dest_lt_16 i hform) (Nat.not_lt.2 hn)

/-- Settles O24: the next state's destination is the new value, whose bits from VL on are known for every form. -/
theorem upperBitsOfDestination : Obligations.UpperBitsOfDestination := by
  intro i s t h k hk
  obtain ⟨-, val, hval, rfl⟩ := (exec_eq_next_iff i s t).1 h
  rw [State.readV_retire, State.readV_setV_same]
  exact s.destValue_upper i val hval k hk

/-- Settles O25: neither the checks nor the new value of the destination read the flags, and the write keeps them. -/
theorem flagsNeitherReadNorWritten : Obligations.FlagsNeitherReadNorWritten := by
  intro i s f m c
  refine ⟨exec_eq_mapNext i s (withFlags s f m c) (fun t => withFlags t f m c) (fun _ _ _ => rfl) (s.udFor_withFlags f m c i)
    (s.destValue_withFlags f m c i) (fun _ => rfl), fun t h => ?_⟩
  obtain ⟨val, rfl⟩ := exec_next_shape i s t h
  exact ⟨rfl, rfl⟩

/-- Settles O26: the checks do not read Translate, nor does the new value of the destination with a register source. -/
theorem registerSourceIgnoresTranslate : Obligations.RegisterSourceIgnoresTranslate := by
  intro i s x h
  exact exec_eq_mapNext i s (withXlate s x) (fun t => withXlate t x) (fun _ _ _ => rfl) (s.udFor_withXlate x i)
    (s.destValue_withXlate x i h) (fun _ => rfl)

/-- Settles O28: the checks do not read the vector registers, and below VL the new value reads them below VL only. -/
theorem bitsAboveVlAreNotRead : Obligations.BitsAboveVlAreNotRead := by
  intro i s t v' hv h
  obtain ⟨hen, val, hval, rfl⟩ := (exec_eq_next_iff i s t).1 h
  obtain ⟨val', hval', hbits⟩ := State.SameBelow.destValue_next i hv val hval
  have hen' : ({ s with v := v' } : State).enabled i := by cases i <;> exact hen
  refine ⟨_, (exec_eq_next_iff i _ _).2 ⟨hen', val', hval', rfl⟩, fun k hk => ?_⟩
  rw [State.readV_retire, State.readV_setV_same, State.readV_retire, State.readV_setV_same]
  exact hbits k hk

/-- Settles O50: R38's check of a decoded instruction fails. -/
theorem wrappingInstructionIsRefused : Obligations.WrappingInstructionIsRefused := by
  intro s i hc hd hwrap
  rw [step_of_decode_ok s i hc hd, if_neg]
  exact fun hrun => hwrap ((s.runOk_iff i.ilen).1 hrun)

/-- Settles O54: memory is empty, every register is 0, real-address mode bounds no pc, and Translate faults nowhere. -/
theorem resetMeetsInvariant : Obligations.ResetMeetsInvariant :=
  State.reset.wf_iff.2 ⟨Memory.wf_nil, fun n => by simp [zeroAbove], by simp [State.reset, zeroAbove], rfl,
    Translate.codesOk_afterReset⟩

/-- Settles O55: the registers are replicated zeros, and the other values are fields of the state. -/
theorem resetPowerUpValues : Obligations.ResetPowerUpValues :=
  ⟨State.readV_reset, State.readK_reset, State.readX_reset_of_ne, rfl, rfl, rfl, rfl, rfl, rfl, rfl⟩

/-- Settles O56: INIT keeps the registers R45 says it keeps and takes the rest from reset, CR0 bit by bit. -/
theorem initValues : Obligations.InitValues := by
  intro s
  exact ⟨fun _ => rfl, fun _ => rfl, State.readX_reset_of_ne, rfl, rfl, rfl, s.getLsbD_cr0_afterInit, rfl, rfl, rfl, rfl,
    s.afterInit_preserves_wf⟩

/-- Settles O57: in a covered mode and within MAXVL, a `#UD` condition of reset's control registers stops every form. -/
theorem noFormExecutesAfterReset : Obligations.NoFormExecutesAfterReset := by
  intro i m hm
  have hcovered : m.covered = true := by rcases hm with rfl | rfl <;> rfl
  have hvl : ¬ MaxVl.vl512.bits < i.vl := Nat.not_lt.2 (vl_le_maxvl_512 i)
  rw [exec_eq, State.udFor_of_cr4_zero _ _ rfl]
  simp [State.guarded, hcovered, State.reset, Env.afterReset, hvl, takeException]

end Sys2Proof.Machine
end

section
/-! SUPPORT. The decoder past the prefixes, one lemma per branch, and what a decoded instruction of M32 names. -/

namespace Sys2Proof

open Sys2Proof.Claims

/-! ## Register numbers and extension bits -/

theorem ult_8_iff4 (n : BitVec 4) : n.ult 8#4 = !n.getLsbD 3 := by revert n; decide

theorem ult_8_iff5 (n : BitVec 5) : n.ult 8#5 = (!n.getLsbD 3 && !n.getLsbD 4) := by revert n; decide

@[simp] theorem getLsbD_extend_3 (e : Bool) (n : BitVec 3) : (extend e n).getLsbD 3 = e := by
  revert e n; decide

theorem Addr.bBit_of_lowRegs (a : Addr) (h : a.lowRegs = true) : a.bBit = false := by
  cases a <;> simp_all [Addr.lowRegs, Addr.bBit, ext3, ult_8_iff4]

theorem Rm4.bBit_of_lowRegs (r : Rm4) (h : r.lowRegs = true) : r.bBit = false := by
  cases r with
  | reg x n => simp_all [Rm4.lowRegs, Rm4.bBit, ext3, ult_8_iff4]
  | mem a => exact a.bBit_of_lowRegs h

theorem Rm5.bBit_of_lowRegs (r : Rm5) (h : r.lowRegs = true) : r.bBit = false := by
  cases r with
  | reg n => simp_all [Rm5.lowRegs, Rm5.bBit, ult_8_iff5]
  | mem _ a => exact a.bBit_of_lowRegs h

theorem VexOps.bits_of_lowRegs (o : VexOps) (h : o.lowRegs = true) : o.s1.getLsbD 3 = false ∧ o.src.bBit = false := by
  simp only [VexOps.lowRegs, Bool.and_eq_true, ult_8_iff4, Bool.not_eq_true'] at h
  obtain ⟨⟨-, hs1⟩, hsrc⟩ := h
  exact ⟨hs1, o.src.bBit_of_lowRegs hsrc⟩

theorem EvexOps.bits_of_lowRegs (o : EvexOps) (h : o.lowRegs = true) :
    o.d.getLsbD 4 = false ∧ o.s1.getLsbD 4 = false ∧ o.s1.getLsbD 3 = false ∧ o.src.bBit = false := by
  simp only [EvexOps.lowRegs, Bool.and_eq_true, ult_8_iff5, Bool.not_eq_true'] at h
  obtain ⟨⟨⟨-, hd⟩, hs1, hs1'⟩, hsrc⟩ := h
  exact ⟨hd, hs1', hs1, o.src.bBit_of_lowRegs hsrc⟩

/-- An instruction that uses no extension bit has its destination among the registers 0 to 7. -/
theorem Instr.dest_lt_8_of_lowRegs (i : Instr) (h : i.lowRegs = true) : i.dest.toNat < 8 := by
  have h4 : ∀ d : BitVec 4, d.ult 8#4 = true → (d.setWidth 5).toNat < 8 := by decide
  have h5 : ∀ d : BitVec 5, d.ult 8#5 = true → d.toNat < 8 := by decide
  cases i <;> simp only [Instr.lowRegs, LegacyOps.lowRegs, VexOps.lowRegs, EvexOps.lowRegs, Bool.and_eq_true, and_assoc] at h
  case pmaxud | pmaxudRex | vpmaxudVex128 | vpmaxudVex256 => exact h4 _ h.1
  all_goals exact h5 _ h.1

theorem decodeSib_bBit (x b : Bool) (mod : BitVec 2) (sib : Byte) (bs : List Byte) (r : Addr × List Byte)
    (h : decodeSib x b mod sib bs = some r) : r.1.bBit = b := by
  simp only [decodeSib] at h
  split at h
  · obtain ⟨d, -, rfl⟩ := Option.map_eq_some_iff.1 h
    rfl
  · obtain ⟨d, -, rfl⟩ := Option.map_eq_some_iff.1 h
    exact getLsbD_extend_3 b _

/-- A memory operand that ModRM announces has the base-extension bit it was read with (R105, R106). -/
theorem decodeModRM_bBit (x b : Bool) (bs : List Byte) (reg : BitVec 3) (rm : RmField) (rest : List Byte)
    (h : decodeModRM x b bs = some (reg, rm, rest)) : ∀ a, rm = .mem a → a.bBit = b := by
  rintro a rfl
  cases bs with
  | nil => cases h
  | cons m bs =>
    simp only [decodeModRM] at h
    split at h
    · cases h
    · split at h
      · cases bs with
        | nil => cases h
        | cons sib bs =>
          obtain ⟨r, hr, hrm⟩ := Option.map_eq_some_iff.1 h
          cases hrm
          exact decodeSib_bBit x b _ sib bs r hr
      · split at h
        · obtain ⟨d, -, hrm⟩ := Option.map_eq_some_iff.1 h
          cases hrm
          rfl
        · obtain ⟨d, -, hrm⟩ := Option.map_eq_some_iff.1 h
          cases hrm
          exact getLsbD_extend_3 b _

theorem RmField.bBit_toRm4 (rm : RmField) (x b : Bool) (h : ∀ a, rm = .mem a → a.bBit = b) : (rm.toRm4 x b).bBit = b := by
  cases rm with
  | reg n => exact getLsbD_extend_3 b n
  | mem a => exact h a rfl

theorem RmField.bBit_toRm5 (rm : RmField) (x b bcst : Bool) (h : ∀ a, rm = .mem a → a.bBit = b) :
    (rm.toRm5 x b bcst).bBit = b := by
  cases rm with
  | reg n =>
    have hbit : ∀ (e f : Bool) (n : BitVec 3), (BitVec.ofBool e ++ extend f n : BitVec 5).getLsbD 3 = f := by decide
    exact hbit x b n
  | mem a => exact h a rfl

/-! ## Prefixes -/

theorem isSome_rawPrefix_of_prefixBytes (ps : List Byte) (h : PrefixBytes ps) : ∀ b ∈ ps, (rawPrefix b).isSome = true := by
  have hall : ∀ b ∈ ([0x26, 0x2E, 0x36, 0x3E, 0x64, 0x65, 0x67, 0x66, 0xF0, 0xF2, 0xF3] : List Byte),
      (rawPrefix b).isSome = true := by decide
  exact fun b hb => hall b (h b hb)

@[simp] theorem rawPrefix_byte (p : Prefix) : rawPrefix p.byte = some (.admitted p) := by
  cases p with
  | seg sg => cases sg <;> decide
  | addrSize => decide
  | opSize => decide

theorem isSome_rawPrefix_map_byte (ps : List Prefix) : ∀ b ∈ ps.map Prefix.byte, (rawPrefix b).isSome = true := by
  simp

theorem filterMap_rawPrefix_map_byte (ps : List Prefix) :
    (ps.map Prefix.byte).filterMap rawPrefix = ps.map RawPrefix.admitted := by
  induction ps with
  | nil => rfl
  | cons p ps ih => simp [ih]

/-- Admitted prefixes with no 66h among them leave VEX and EVEX defined (R99, R103). -/
theorem badBeforeVex_map_admitted (ps : List Prefix) (h : Prefix.opSize ∉ ps) :
    badBeforeVex (ps.map RawPrefix.admitted) none = false := by
  simp [badBeforeVex, hasLock, hasRep, hasOpSize, h]

theorem addr16_map_admitted (m : Mode) (ps : List Prefix) (h : Prefix.addrSize ∉ ps) :
    addr16 m (ps.map RawPrefix.admitted) = false := by
  simp [addr16, h]

/-- In M32, 67h among the prefixes selects the 16-bit address size (R108). -/
theorem addr16_m32_of_mem (ps : List Byte) (h : 0x67 ∈ ps) : addr16 .m32 (ps.filterMap rawPrefix) = true := by
  simp only [addr16, contains_filterMap_rawPrefix ps _ 0x67 rawPrefix_addrSize]
  simpa using h

/-- The decoder past the prefixes in M32, where 40h to 4Fh are no REX bytes. -/
theorem decode_m32_prefixes (ps : List Byte) (c : Byte) (rest : List Byte) (h : ∀ b ∈ ps, (rawPrefix b).isSome = true)
    (hc : rawPrefix c = none) :
    decode .m32 (ps ++ c :: rest) = decodeFormat .m32 (ps.filterMap rawPrefix) none (c :: rest) := by
  simp [decode, Mode.covered, scanPrefixes_append ps c rest h hc]

/-! ## The format (`30_encoding.md` R114 step 3) -/

theorem decodeFormat_legacy (m : Mode) (ps : List RawPrefix) (rex : Option Byte) (rest : List Byte) :
    decodeFormat m ps rex (0x0F :: 0x38 :: 0x3F :: rest) = decodeLegacy m ps rex rest := by
  simp [decodeFormat]

theorem decodeFormat_vex (m : Mode) (ps : List RawPrefix) (rex : Option Byte) (v1 v2 op : Byte) (rest : List Byte)
    (h : m = .m64 ∨ v1.extractLsb' 6 2 = 3#2) :
    decodeFormat m ps rex (0xC4 :: v1 :: v2 :: op :: rest) = decodeVex m ps rex v1 v2 op rest := by
  rcases h with h | h <;> simp [decodeFormat, h]

theorem decodeFormat_evex (m : Mode) (ps : List RawPrefix) (rex : Option Byte) (p0 p1 p2 op : Byte) (rest : List Byte)
    (h : m = .m64 ∨ p0.extractLsb' 6 2 = 3#2) :
    decodeFormat m ps rex (0x62 :: p0 :: p1 :: p2 :: op :: rest) = decodeEvex m ps rex p0 p1 p2 op rest := by
  rcases h with h | h <;> simp [decodeFormat, h]

/-- Outside M64, C4h and 62h before a byte whose bits 7:6 are not 11b announce no VEX and no EVEX (R99, R103). -/
theorem decodeFormat_not_vex (m : Mode) (ps : List RawPrefix) (rex : Option Byte) (c b : Byte) (rest : List Byte)
    (hm : m ≠ .m64) (hc : c = 0xC4 ∨ c = 0x62) (hb : b.extractLsb' 6 2 ≠ 3#2) :
    decodeFormat m ps rex (c :: b :: rest) = .refused .notInSpec := by
  rcases hc with rfl | rfl <;> simp [decodeFormat, hm, hb]

theorem decodeFormat_other (m : Mode) (ps : List RawPrefix) (rex : Option Byte) (c : Byte) (rest : List Byte)
    (h : c ≠ 0x0F ∧ c ≠ 0xC4 ∧ c ≠ 0x62) : decodeFormat m ps rex (c :: rest) = .refused .notInSpec := by
  obtain ⟨hlegacy, hvex, hevex⟩ := h
  simp only [decodeFormat, if_neg hlegacy, if_neg hvex, if_neg hevex]

theorem ne_format_bytes_of_isRex (b : Byte) (h : isRex b = true) : b ≠ 0x0F ∧ b ≠ 0xC4 ∧ b ≠ 0x62 := by
  revert b; decide +kernel

/-! ## The 16-bit address size is refused -/

theorem decodeLegacy_addr16 (m : Mode) (ps : List RawPrefix) (rex : Option Byte) (bs : List Byte)
    (hop : hasOpSize ps = true) (hrep : hasRep ps = false) (ha : addr16 m ps = true) :
    decodeLegacy m ps rex bs = .refused .addrSize16 := by
  simp [decodeLegacy, hop, hrep, ha]

theorem decodeVex_addr16 (m : Mode) (ps : List RawPrefix) (rex : Option Byte) (v1 v2 : Byte) (bs : List Byte)
    (h1 : v1.extractLsb' 0 5 = 2#5) (h2 : v2.extractLsb' 0 2 = 1#2) (ha : addr16 m ps = true) :
    decodeVex m ps rex v1 v2 0x3F bs = .refused .addrSize16 := by
  simp [decodeVex, h1, h2, ha]

theorem decodeEvex_addr16 (m : Mode) (ps : List RawPrefix) (rex : Option Byte) (p0 p1 p2 : Byte) (bs : List Byte)
    (h0 : p0.extractLsb' 0 2 = 2#2) (h1 : p1.extractLsb' 0 2 = 1#2) (ha : addr16 m ps = true) :
    decodeEvex m ps rex p0 p1 p2 0x3F bs = .refused .addrSize16 := by
  simp [decodeEvex, h0, h1, ha]

/-! ## The verdict outside M64 -/

theorem verdict_m32Extension (m : Mode) (len : Nat) (i : Instr) (hm : m ≠ .m64) (hlen : len ≤ 15)
    (hlow : i.lowRegs = false) : verdict m len false i = .refused .m32Extension := by
  simp [verdict, hm, Nat.not_lt.2 hlen, hlow]

theorem evexRow_of_ne_3 (w : Bool) (ll : BitVec 2) (o : EvexOps) (h : ll ≠ 3#2) :
    ∃ i, evexRow w ll o = some i ∧ i.lowRegs = o.lowRegs := by
  have hrow : ll = 0#2 ∨ ll = 1#2 ∨ ll = 2#2 := by revert ll; decide
  rcases hrow with rfl | rfl | rfl <;> cases w <;> exact ⟨_, rfl, rfl⟩

/-! ## VEX and EVEX encodings of this group, past ModRM -/

/-- The operands in the bytes of a VEX encoding (R96 to R98). -/
def vexOps (ps : List RawPrefix) (v1 v2 : Byte) (reg : BitVec 3) (rm : RmField) : VexOps :=
  ⟨admitted ps, bitAt v2 7, extend (!bitAt v1 7) reg, ~~~(v2.extractLsb' 3 4), rm.toRm4 (!bitAt v1 6) (!bitAt v1 5)⟩

theorem decodeVex_eq_verdict (m : Mode) (ps : List RawPrefix) (rex : Option Byte) (v1 v2 : Byte) (bs : List Byte)
    (reg : BitVec 3) (rm : RmField) (tail : List Byte) (ha : addr16 m ps = false)
    (h1 : v1.extractLsb' 0 5 = 2#5) (h2 : v2.extractLsb' 0 2 = 1#2)
    (hmodrm : decodeModRM (!bitAt v1 6) (!bitAt v1 5) bs = some (reg, rm, tail)) :
    decodeVex m ps rex v1 v2 0x3F bs
      = verdict m (ps.length + (if rex.isSome then 1 else 0) + 4 + 1 + rm.len) (badBeforeVex ps rex)
          (if bitAt v2 2 then .vpmaxudVex256 (vexOps ps v1 v2 reg rm) else .vpmaxudVex128 (vexOps ps v1 v2 reg rm)) := by
  simp [decodeVex, vexOps, h1, h2, ha, hmodrm]

/-- The operands in the bytes of an EVEX encoding (R100 to R104). -/
def evexOps (ps : List RawPrefix) (p0 p1 p2 : Byte) (reg : BitVec 3) (rm : RmField) : EvexOps :=
  ⟨admitted ps, BitVec.ofBool (!bitAt p0 4) ++ extend (!bitAt p0 7) reg,
    BitVec.ofBool (!bitAt p2 3) ++ ~~~(p1.extractLsb' 3 4), rm.toRm5 (!bitAt p0 6) (!bitAt p0 5) (bitAt p2 4),
    p2.extractLsb' 0 3, bitAt p2 7⟩

theorem decodeEvex_eq_verdict (m : Mode) (ps : List RawPrefix) (rex : Option Byte) (p0 p1 p2 : Byte) (bs : List Byte)
    (reg : BitVec 3) (rm : RmField) (tail : List Byte) (i : Instr) (ha : addr16 m ps = false)
    (h0 : p0.extractLsb' 0 2 = 2#2) (h1 : p1.extractLsb' 0 2 = 1#2)
    (hmodrm : decodeModRM (!bitAt p0 6) (!bitAt p0 5) bs = some (reg, rm, tail))
    (hrow : evexRow (bitAt p1 7) (p2.extractLsb' 5 2) (evexOps ps p0 p1 p2 reg rm) = some i) :
    decodeEvex m ps rex p0 p1 p2 0x3F bs
      = verdict m (ps.length + (if rex.isSome then 1 else 0) + 5 + 1 + rm.len)
          (badBeforeVex ps rex || evexReserved p0 p1 p2 rm) i := by
  unfold evexOps at hrow
  simp [decodeEvex, h0, h1, ha, hmodrm, hrow]

/-- The extension bits R' and V' of an EVEX encoding, and bit 3 of its vvvv, are stored inverted (R101, R102). -/
theorem evexOps_bits (ps : List RawPrefix) (p0 p1 p2 : Byte) (reg : BitVec 3) (rm : RmField) :
    (evexOps ps p0 p1 p2 reg rm).d.getLsbD 4 = (!p0.getLsbD 4)
      ∧ (evexOps ps p0 p1 p2 reg rm).s1.getLsbD 4 = (!p2.getLsbD 3)
      ∧ (evexOps ps p0 p1 p2 reg rm).s1.getLsbD 3 = !p1.getLsbD 6 := by
  have htop : ∀ (e : Bool) (n : BitVec 4), (BitVec.ofBool e ++ n : BitVec 5).getLsbD 4 = e := by decide
  have hnext : ∀ (e : Bool) (n : BitVec 4), (BitVec.ofBool e ++ n : BitVec 5).getLsbD 3 = n.getLsbD 3 := by decide
  refine ⟨htop _ _, htop _ _, (hnext _ _).trans ?_⟩
  simp

/-- A VEX encoding of this group outside M64 that is not `#UD` and has its stored B or bit 3 of its stored vvvv 0 is refused. -/
theorem decodeVex_m32Extension (m : Mode) (ps : List RawPrefix) (v1 v2 : Byte) (rest : List Byte) (hm : m ≠ .m64)
    (hbad : badBeforeVex ps none = false) (ha : addr16 m ps = false) (hps : ps.length ≤ 4) (hrest : 6 ≤ rest.length)
    (h1 : v1.extractLsb' 0 5 = 2#5) (h2 : v2.extractLsb' 0 2 = 1#2) (hext : v1.getLsbD 5 = false ∨ v2.getLsbD 6 = false) :
    decodeVex m ps none v1 v2 0x3F rest = .refused .m32Extension := by
  obtain ⟨reg, rm, tail, hmodrm, -, hlen⟩ := decodeModRM_of_length (!bitAt v1 6) (!bitAt v1 5) rest hrest
  have hB : (vexOps ps v1 v2 reg rm).src.bBit = !v1.getLsbD 5 := rm.bBit_toRm4 _ _ (decodeModRM_bBit _ _ _ _ _ _ hmodrm)
  have hV : (vexOps ps v1 v2 reg rm).s1.getLsbD 3 = !v2.getLsbD 6 := by simp [vexOps]
  have hlow : (vexOps ps v1 v2 reg rm).lowRegs = false := by
    refine Bool.eq_false_iff.2 fun hlow => ?_
    obtain ⟨hs1, hsrc⟩ := VexOps.bits_of_lowRegs _ hlow
    rcases hext with h | h
    · simp only [hB, h, Bool.not_false, reduceCtorEq] at hsrc
    · simp only [hV, h, Bool.not_false, reduceCtorEq] at hs1
  rw [decodeVex_eq_verdict m ps none v1 v2 rest reg rm tail ha h1 h2 hmodrm, hbad]
  refine verdict_m32Extension m _ _ hm (by simp; omega) ?_
  cases bitAt v2 2 <;> exact hlow

/-- An EVEX encoding of this group outside M64 that is not `#UD` and has its stored B, R' or V' or bit 3 of its stored vvvv 0 is
refused. -/
theorem decodeEvex_m32Extension (m : Mode) (ps : List RawPrefix) (p0 p1 p2 : Byte) (bs : List Byte) (hm : m ≠ .m64)
    (hbad : badBeforeVex ps none = false) (ha : addr16 m ps = false) (hps : ps.length ≤ 4) (hbs : 6 ≤ bs.length)
    (h0 : p0.extractLsb' 0 2 = 2#2) (h1 : p1.extractLsb' 0 2 = 1#2) (hll : p2.extractLsb' 5 2 ≠ 3#2)
    (hres : ∀ x b reg rm tail, decodeModRM x b bs = some (reg, rm, tail) → evexReserved p0 p1 p2 rm = false)
    (hext : p0.getLsbD 5 = false ∨ p0.getLsbD 4 = false ∨ p2.getLsbD 3 = false ∨ p1.getLsbD 6 = false) :
    decodeEvex m ps none p0 p1 p2 0x3F bs = .refused .m32Extension := by
  obtain ⟨reg, rm, tail, hmodrm, -, hlen⟩ := decodeModRM_of_length (!bitAt p0 6) (!bitAt p0 5) bs hbs
  have hB : (evexOps ps p0 p1 p2 reg rm).src.bBit = !p0.getLsbD 5 :=
    rm.bBit_toRm5 _ _ _ (decodeModRM_bBit _ _ _ _ _ _ hmodrm)
  obtain ⟨hR, hV, hvvvv⟩ := evexOps_bits ps p0 p1 p2 reg rm
  have hlow : (evexOps ps p0 p1 p2 reg rm).lowRegs = false := by
    refine Bool.eq_false_iff.2 fun hlow => ?_
    obtain ⟨hd, hs1, hs1', hsrc⟩ := EvexOps.bits_of_lowRegs _ hlow
    rcases hext with h | h | h | h
    · simp only [hB, h, Bool.not_false, reduceCtorEq] at hsrc
    · simp only [hR, h, Bool.not_false, reduceCtorEq] at hd
    · simp only [hV, h, Bool.not_false, reduceCtorEq] at hs1
    · simp only [hvvvv, h, Bool.not_false, reduceCtorEq] at hs1'
  obtain ⟨i, hrow, hi⟩ := evexRow_of_ne_3 (bitAt p1 7) _ (evexOps ps p0 p1 p2 reg rm) hll
  rw [decodeEvex_eq_verdict m ps none p0 p1 p2 bs reg rm tail i ha h0 h1 hmodrm hrow, hbad, hres _ _ _ _ _ hmodrm]
  exact verdict_m32Extension m _ i hm (by simp; omega) (hi.trans hlow)

/-- ModRM names a register exactly when its mod field is 11b (R105). -/
theorem isReg_of_decodeModRM (x b : Bool) (modrm : Byte) (bs : List Byte) (reg : BitVec 3) (rm : RmField) (tail : List Byte)
    (h : decodeModRM x b (modrm :: bs) = some (reg, rm, tail)) : rm.isReg = true ↔ modrm.extractLsb' 6 2 = 3#2 := by
  simp only [decodeModRM] at h
  split at h
  · rename_i hmod
    cases h
    simp [RmField.isReg, hmod]
  · rename_i hmod
    have hmem : rm.isReg = false := by
      split at h
      · cases bs with
        | nil => cases h
        | cons sib bs =>
          obtain ⟨_, -, hrm⟩ := Option.map_eq_some_iff.1 h
          cases hrm; rfl
      · split at h <;>
        · obtain ⟨_, -, hrm⟩ := Option.map_eq_some_iff.1 h
          cases hrm; rfl
    simp [hmem, hmod]

/-- An EVEX encoding of this group with none of the reserved settings of R111. -/
theorem evexReserved_eq_false (p0 p1 p2 : Byte) (rm : RmField) (h0 : p0.extractLsb' 2 2 = 0#2) (h1 : p1.getLsbD 2 = true)
    (hz : ¬ (p2.getLsbD 7 = true ∧ p2.extractLsb' 0 3 = 0#3)) (hb : ¬ (p2.getLsbD 4 = true ∧ rm.isReg = true)) :
    evexReserved p0 p1 p2 rm = false := by
  rw [evexReserved, bitAt, bitAt, bitAt, h0, h1]
  simpa using ⟨by simpa using hz, by simpa using hb⟩

/-! ## What the decoder accepts outside M64 -/

/-- An accepted verdict outside M64 is on an instruction that uses no extension bit. -/
theorem lowRegs_of_verdict (m : Mode) (len : Nat) (ud : Bool) (i j : Instr) (hm : m ≠ .m64) (h : verdict m len ud i = .ok j) :
    j.lowRegs = true := by
  unfold verdict at h
  split at h
  · cases h
  · split at h
    · cases h
    · split at h
      · cases h
      · rename_i hlow
        cases h
        simpa [hm] using hlow

theorem lowRegs_of_decodeLegacy (m : Mode) (ps : List RawPrefix) (rex : Option Byte) (bs : List Byte) (i : Instr)
    (hm : m ≠ .m64) (h : decodeLegacy m ps rex bs = .ok i) : i.lowRegs = true := by
  simp only [decodeLegacy] at h
  split at h
  · cases h
  · split at h
    · cases h
    · split at h
      · cases h
      · split at h
        · cases h
        · exact lowRegs_of_verdict m _ _ _ i hm h

theorem lowRegs_of_decodeVex (m : Mode) (ps : List RawPrefix) (rex : Option Byte) (v1 v2 op : Byte) (bs : List Byte)
    (i : Instr) (hm : m ≠ .m64) (h : decodeVex m ps rex v1 v2 op bs = .ok i) : i.lowRegs = true := by
  simp only [decodeVex] at h
  split at h
  · cases h
  · split at h
    · cases h
    · split at h
      · cases h
      · exact lowRegs_of_verdict m _ _ _ i hm h

theorem lowRegs_of_decodeEvex (m : Mode) (ps : List RawPrefix) (rex : Option Byte) (p0 p1 p2 op : Byte) (bs : List Byte)
    (i : Instr) (hm : m ≠ .m64) (h : decodeEvex m ps rex p0 p1 p2 op bs = .ok i) : i.lowRegs = true := by
  simp only [decodeEvex] at h
  split at h
  · cases h
  · split at h
    · cases h
    · split at h
      · cases h
      · split at h
        · exact lowRegs_of_verdict m _ _ _ i hm h
        · split_ifs at h

theorem lowRegs_of_decodeFormat (m : Mode) (ps : List RawPrefix) (rex : Option Byte) (bs : List Byte) (i : Instr)
    (hm : m ≠ .m64) (h : decodeFormat m ps rex bs = .ok i) : i.lowRegs = true := by
  unfold decodeFormat at h
  split at h
  · cases h
  · split at h
    · split at h
      · split at h
        · exact lowRegs_of_decodeLegacy m _ _ _ i hm h
        · cases h
      · split at h <;> cases h
      · cases h
    · split at h
      · split at h
        · cases h
        · split at h
          · cases h
          · split at h
            · exact lowRegs_of_decodeVex m _ _ _ _ _ _ i hm h
            · cases h
      · split at h
        · split at h
          · cases h
          · split at h
            · cases h
            · split at h
              · exact lowRegs_of_decodeEvex m _ _ _ _ _ _ _ i hm h
              · cases h
        · cases h

/-- An instruction decoded in M32 uses no extension bit (R99, R103; REX bytes are no prefixes there). -/
theorem lowRegs_of_decode_m32 (bytes : List Byte) (i : Instr) (h : decode .m32 bytes = .ok i) : i.lowRegs = true := by
  simp only [decode, Mode.covered, Bool.not_true, Bool.false_eq_true, if_false, reduceCtorEq, false_and] at h
  split at h
  · cases h
  · exact lowRegs_of_decodeFormat .m32 _ _ _ i (by decide) h

/-! ## The statement -/

/-- R99: in M32 a VEX encoding whose stored B or bit 3 of vvvv is 0 is refused for it. -/
theorem decode_m32_vex_extension (ps : List Prefix) (v1 v2 : Byte) (rest : List Byte) (hps : PlainPrefixes .m32 ps)
    (hrest : 6 ≤ rest.length) (h3 : v1.extractLsb' 6 2 = 3#2) (h1 : v1.extractLsb' 0 5 = 2#5)
    (h2 : v2.extractLsb' 0 2 = 1#2) (hext : v1.getLsbD 5 = false ∨ v2.getLsbD 6 = false) :
    decode .m32 (ps.map Prefix.byte ++ 0xC4 :: v1 :: v2 :: 0x3F :: rest) = .refused .m32Extension := by
  obtain ⟨hlen, hop, haddr⟩ := hps
  rw [decode_m32_prefixes _ _ _ (isSome_rawPrefix_map_byte ps) (by decide), filterMap_rawPrefix_map_byte,
    decodeFormat_vex _ _ _ _ _ _ _ (.inr h3)]
  exact decodeVex_m32Extension .m32 _ v1 v2 rest (by decide) (badBeforeVex_map_admitted ps hop)
    (addr16_map_admitted .m32 ps (haddr rfl)) (by simpa using hlen) hrest h1 h2 hext

/-- R103: in M32 an EVEX encoding with no reserved setting whose stored B, R', V' or bit 3 of vvvv is 0 is refused for it. -/
theorem decode_m32_evex_extension (ps : List Prefix) (p0 p1 p2 modrm : Byte) (rest : List Byte)
    (hps : PlainPrefixes .m32 ps) (hrest : 5 ≤ rest.length) (h3 : p0.extractLsb' 6 2 = 3#2)
    (h0 : p0.extractLsb' 0 4 = 2#4) (h1 : p1.extractLsb' 0 3 = 5#3) (hll : p2.extractLsb' 5 2 ≠ 3#2)
    (hz : ¬ (p2.getLsbD 7 = true ∧ p2.extractLsb' 0 3 = 0#3))
    (hb : ¬ (p2.getLsbD 4 = true ∧ modrm.extractLsb' 6 2 = 3#2))
    (hext : p0.getLsbD 5 = false ∨ p0.getLsbD 4 = false ∨ p2.getLsbD 3 = false ∨ p1.getLsbD 6 = false) :
    decode .m32 (ps.map Prefix.byte ++ 0x62 :: p0 :: p1 :: p2 :: 0x3F :: modrm :: rest) = .refused .m32Extension := by
  obtain ⟨hlen, hop, haddr⟩ := hps
  have hp0 : ∀ p : Byte, p.extractLsb' 0 4 = 2#4 → p.extractLsb' 2 2 = 0#2 ∧ p.extractLsb' 0 2 = 2#2 := by decide +kernel
  have hp1 : ∀ p : Byte, p.extractLsb' 0 3 = 5#3 → p.getLsbD 2 = true ∧ p.extractLsb' 0 2 = 1#2 := by decide +kernel
  obtain ⟨hreserved0, hmap⟩ := hp0 p0 h0
  obtain ⟨hreserved1, hpp⟩ := hp1 p1 h1
  rw [decode_m32_prefixes _ _ _ (isSome_rawPrefix_map_byte ps) (by decide), filterMap_rawPrefix_map_byte,
    decodeFormat_evex _ _ _ _ _ _ _ _ (.inr h3)]
  refine decodeEvex_m32Extension .m32 _ p0 p1 p2 (modrm :: rest) (by decide) (badBeforeVex_map_admitted ps hop)
    (addr16_map_admitted .m32 ps (haddr rfl)) (by simpa using hlen) (by simpa using hrest) hmap hpp hll ?_ hext
  intro x b reg rm tail hmodrm
  refine evexReserved_eq_false p0 p1 p2 rm hreserved0 hreserved1 hz ?_
  rwa [isReg_of_decodeModRM x b modrm rest reg rm tail hmodrm]

/-- R108, R111: in M32 an encoding of this group with 67h among its prefixes is refused for its address size. -/
theorem decode_m32_addr16 (ps rest : List Byte) (hps : PrefixBytes ps) (h67 : 0x67 ∈ ps) :
    (0x66 ∈ ps → 0xF2 ∉ ps → 0xF3 ∉ ps → decode .m32 (ps ++ 0x0F :: 0x38 :: 0x3F :: rest) = .refused .addrSize16)
      ∧ (∀ v1 v2 : Byte, v1.extractLsb' 6 2 = 3#2 → v1.extractLsb' 0 5 = 2#5 → v2.extractLsb' 0 2 = 1#2 →
          decode .m32 (ps ++ 0xC4 :: v1 :: v2 :: 0x3F :: rest) = .refused .addrSize16)
      ∧ (∀ p0 p1 p2 : Byte, p0.extractLsb' 6 2 = 3#2 → p0.extractLsb' 0 2 = 2#2 → p1.extractLsb' 0 2 = 1#2 →
          decode .m32 (ps ++ 0x62 :: p0 :: p1 :: p2 :: 0x3F :: rest) = .refused .addrSize16) := by
  have hsome := isSome_rawPrefix_of_prefixBytes ps hps
  have haddr := addr16_m32_of_mem ps h67
  refine ⟨fun h66 hF2 hF3 => ?_, fun v1 v2 h3 h1 h2 => ?_, fun p0 p1 p2 h3 h0 h1 => ?_⟩
  · have hop : hasOpSize (ps.filterMap rawPrefix) = true := by
      rw [hasOpSize, contains_filterMap_rawPrefix ps _ 0x66 rawPrefix_opSize]
      simpa using h66
    have hrep : hasRep (ps.filterMap rawPrefix) = false := by
      rw [hasRep, contains_filterMap_rawPrefix ps _ 0xF2 rawPrefix_repne,
        contains_filterMap_rawPrefix ps _ 0xF3 rawPrefix_rep]
      simpa using ⟨hF2, hF3⟩
    rw [decode_m32_prefixes ps _ _ hsome (by decide), decodeFormat_legacy, decodeLegacy_addr16 _ _ _ _ hop hrep haddr]
  · rw [decode_m32_prefixes ps _ _ hsome (by decide), decodeFormat_vex _ _ _ _ _ _ _ (.inr h3),
      decodeVex_addr16 _ _ _ _ _ _ h1 h2 haddr]
  · rw [decode_m32_prefixes ps _ _ hsome (by decide), decodeFormat_evex _ _ _ _ _ _ _ _ (.inr h3),
      decodeEvex_addr16 _ _ _ _ _ _ _ h0 h1 haddr]

/-- R99, R103, R114: in M32 bytes that announce VEX, EVEX or REX in M64 only are no instruction of this spec. -/
theorem decode_m32_notInSpec (ps rest : List Byte) (b : Byte) (hps : PrefixBytes ps) :
    (b.extractLsb' 6 2 ≠ 3#2 → decode .m32 (ps ++ 0xC4 :: b :: rest) = .refused .notInSpec
        ∧ decode .m32 (ps ++ 0x62 :: b :: rest) = .refused .notInSpec)
      ∧ (RexByte b → decode .m32 (ps ++ b :: rest) = .refused .notInSpec) := by
  have hsome := isSome_rawPrefix_of_prefixBytes ps hps
  refine ⟨fun h3 => ⟨?_, ?_⟩, fun hb => ?_⟩
  · rw [decode_m32_prefixes ps _ _ hsome (by decide), decodeFormat_not_vex _ _ _ _ _ _ (by decide) (.inl rfl) h3]
  · rw [decode_m32_prefixes ps _ _ hsome (by decide), decodeFormat_not_vex _ _ _ _ _ _ (by decide) (.inr rfl) h3]
  · have hrex : isRex b = true := by simpa [isRex, RexByte] using hb
    rw [decode_m32_prefixes ps _ _ hsome (rawPrefix_of_isRex b hrex),
      decodeFormat_other _ _ _ _ _ (ne_format_bytes_of_isRex b hrex)]

/-- Settles O5: an accepted verdict of M32 is on low registers only, and each refused encoding has its branch of the decoder. -/
theorem m32NamesEightRegisters : Obligations.M32NamesEightRegisters :=
  ⟨fun bytes i h => ⟨i.dest_lt_8_of_lowRegs (lowRegs_of_decode_m32 bytes i h), lowRegs_of_decode_m32 bytes i h⟩,
    decode_m32_vex_extension, decode_m32_evex_extension, decode_m32_addr16, decode_m32_notInSpec⟩

end Sys2Proof
end

section
/-! SUPPORT. Enabled instructions, form by form, and what the access check of a memory operand makes of them. -/

namespace Sys2Proof.Machine

open Sys2Proof.Claims

/-! ## The forms, as families -/

/-- `mk` is one of the two rows of form 1 (`40_pmaxud_legacy_sse.md` R140). -/
inductive LegacyForm : (LegacyOps → Instr) → Prop where
  | pmaxud : LegacyForm .pmaxud
  | pmaxudRex (w : Bool) : LegacyForm (.pmaxudRex w)

/-- `mk` is the VEX form of vector length `vl`, which needs the feature flag `feature` (`41_vpmaxud_vex.md` R150, R151). -/
inductive VexForm : Nat → (Features → Bool) → (VexOps → Instr) → Prop where
  | vpmaxud128 : VexForm 128 Features.avx .vpmaxudVex128
  | vpmaxud256 : VexForm 256 Features.avx2 .vpmaxudVex256

/-- `mk` is the EVEX form of element width `w` and vector length `vl` (`42_vpmaxud_evex.md` R161 to R163, `43_vpmaxuq_evex.md`
R176 to R178). -/
inductive EvexForm : Nat → Nat → (EvexOps → Instr) → Prop where
  | vpmaxud128 : EvexForm 32 128 .vpmaxudEvex128
  | vpmaxud256 : EvexForm 32 256 .vpmaxudEvex256
  | vpmaxud512 : EvexForm 32 512 .vpmaxudEvex512
  | vpmaxuq128 : EvexForm 64 128 .vpmaxuqEvex128
  | vpmaxuq256 : EvexForm 64 256 .vpmaxuqEvex256
  | vpmaxuq512 : EvexForm 64 512 .vpmaxuqEvex512

namespace LegacyForm

variable {mk : LegacyOps → Instr}

theorem vl_eq (h : LegacyForm mk) (o : LegacyOps) : (mk o).vl = 128 := by cases h <;> rfl

theorem udFor_eq (h : LegacyForm mk) (o : LegacyOps) (s : State) : s.udFor (mk o) = s.env.legacyUd := by
  cases h <;> rfl

theorem access_eq (h : LegacyForm mk) (o : LegacyOps) (s : State) :
    s.access (mk o) = s.plainAccess o.prefixes 128 (mk o).ilen true o.src := by cases h <;> rfl

end LegacyForm

namespace VexForm

variable {vl : Nat} {feature : Features → Bool} {mk : VexOps → Instr}

theorem dest_eq (h : VexForm vl feature mk) (o : VexOps) : (mk o).dest = o.d.setWidth 5 := by cases h <;> rfl

theorem vl_eq (h : VexForm vl feature mk) (o : VexOps) : (mk o).vl = vl := by cases h <;> rfl

theorem udFor_eq (h : VexForm vl feature mk) (o : VexOps) (s : State) :
    s.udFor (mk o) = s.env.vexUd (feature s.env.features) := by cases h <;> rfl

theorem destValue_eq (h : VexForm vl feature mk) (o : VexOps) (s : State) : s.destValue (mk o) = s.vexValue vl o := by
  cases h <;> rfl

theorem vl_le_512 (h : VexForm vl feature mk) : vl ≤ 512 := by cases h <;> decide

end VexForm

namespace EvexForm

variable {w vl : Nat} {mk : EvexOps → Instr}

theorem dest_eq (h : EvexForm w vl mk) (o : EvexOps) : (mk o).dest = o.d := by cases h <;> rfl

theorem ilen_eq (h : EvexForm w vl mk) (o : EvexOps) : (mk o).ilen = o.len := by cases h <;> rfl

theorem vl_eq (h : EvexForm w vl mk) (o : EvexOps) : (mk o).vl = vl := by cases h <;> rfl

theorem udFor_eq (h : EvexForm w vl mk) (o : EvexOps) (s : State) :
    s.udFor (mk o) = (s.env.evexUd vl || (o.z && o.aaa == 0#3)) := by cases h <;> rfl

theorem access_eq (h : EvexForm w vl mk) (o : EvexOps) (s : State) : s.access (mk o) = s.maskedAccess w vl o := by
  cases h <;> rfl

theorem destValue_eq (h : EvexForm w vl mk) (o : EvexOps) (s : State) : s.destValue (mk o) = s.evexValue w vl o := by
  cases h <;> rfl

theorem width_pos (h : EvexForm w vl mk) : 0 < w / 8 ∧ 0 < w := by cases h <;> decide

/-- The elements fill the vector length, which is at most 512 bits. -/
theorem elements_fill (h : EvexForm w vl mk) : vl / w * w = vl ∧ vl ≤ 512 := by cases h <;> decide

/-- The elements' bytes fill the operand's. -/
theorem bytes_fill (h : EvexForm w vl mk) : vl / w * (w / 8) = vl / 8 := by cases h <;> decide

end EvexForm

/-! ## Enabled, as the statements write it -/

theorem State.enabled_of_covered (s : State) (i : Instr) (hc : Covered s) (hv : i.vl ≤ s.env.maxvl.bits)
    (hu : s.udFor i = false) (ht : s.env.cr0.getLsbD 3 = false) : s.enabled i :=
  ⟨(covered_iff s).1 hc, hv, hu, ht⟩

theorem LegacyForm.enabled {mk : LegacyOps → Instr} (h : LegacyForm mk) (o : LegacyOps) (s : State)
    (hr : LegacyReady s) : s.enabled (mk o) := by
  obtain ⟨hc, hem, hts, hfx, hsse⟩ := hr
  have hvl : 128 ≤ s.env.maxvl.bits := by cases s.env.maxvl <;> decide
  refine s.enabled_of_covered _ hc (h.vl_eq o ▸ hvl) ?_ hts
  simp only [h.udFor_eq, Env.legacyUd, Env.em, Env.osfxsr, hem, hfx, hsse, Bool.not_true, Bool.or_false]

theorem VexForm.enabled {vl : Nat} {feature : Features → Bool} {mk : VexOps → Instr} (h : VexForm vl feature mk)
    (o : VexOps) (s : State) (hr : VexReady s vl (feature s.env.features)) : s.enabled (mk o) := by
  obtain ⟨hc, hvl, hts, hxs, h1, h2, hf⟩ := hr
  refine s.enabled_of_covered _ hc (h.vl_eq o ▸ hvl) ?_ hts
  simp [h.udFor_eq, Env.vexUd, Env.osxsave, Env.avxState, hxs, h1, h2, hf]

theorem EvexForm.enabled {w vl : Nat} {mk : EvexOps → Instr} (h : EvexForm w vl mk) (o : EvexOps) (s : State)
    (hr : EvexReady s vl o) : s.enabled (mk o) := by
  obtain ⟨hc, hvl, hts, hxs, h1, h2, h5, h6, h7, hf, hfvl, hz⟩ := hr
  refine s.enabled_of_covered _ hc (h.vl_eq o ▸ hvl) ?_ hts
  have hlen : (decide (vl < 512) && !s.env.features.avx512vl) = false := by
    by_cases hlt : vl < 512
    · simp [hfvl hlt]
    · simp [hlt]
  have hmask : (o.z && o.aaa == 0#3) = false := by
    cases hoz : o.z with
    | false => rfl
    | true => simpa using hz hoz
  simp [h.udFor_eq, Env.evexUd, Env.osxsave, Env.avxState, Env.avx512State, hxs, h1, h2, h5, h6, h7, hf, hlen, hmask]

/-! ## What the access check answers, and an enabled instruction with it -/

theorem segFault_eq (sg : Seg) : segFault sg = if sg = .ss then .ss else .gp := by cases sg <;> rfl

/-- Where a memory fault applies the access check raises one that applies, whatever devices the operand meets (log 22). -/
theorem State.checkAccess_of_memFaults_ne_nil (s : State) (m : MemAccess)
    (h : s.env.memFaults m.seg m.ea m.offs m.aligned ≠ []) :
    ∃ f ∈ s.env.memFaults m.seg m.ea m.offs m.aligned, s.checkAccess m.seg m.ea m.offs m.aligned = .fault f := by
  cases hp : pickFault s.tick (s.env.memFaults m.seg m.ea m.offs m.aligned) with
  | none => exact absurd ((pickFault_none _ _).1 hp) h
  | some f => exact ⟨f, pickFault_mem _ _ _ hp, by simp [State.checkAccess, hp, takeException]⟩

/-- A source whose access is readable has its elements read. -/
theorem SourceAnswers.next_of_readable {α : Type} {s : State} {acc : Option MemAccess}
    {r : Host.Outcome α Fault Refusal} (h : SourceAnswers s acc r) (hr : ∀ m, acc = some m → s.readable m) :
    ∃ b, r = .next b := by
  rcases h with ⟨b, hb, -⟩ | ⟨m, -, ha, -, -, hn⟩ | ⟨m, ha, -, hn, -⟩
  · exact ⟨b, hb⟩
  · exact absurd (hr m ha) hn
  · exact absurd (hr m ha) hn

/-- A legacy or VEX source in memory answers as its access check does. -/
theorem State.plainSource_eq_checkAccess (s : State) (ps : List Prefix) (vl len : Nat) (al : Bool) (src : Rm4)
    (m : MemAccess) (h : s.plainAccess ps vl len al src = some m) :
    s.plainSource ps vl len al src = andThen (s.checkAccess m.seg m.ea m.offs m.aligned) fun _ =>
      .next fun j => s.memElem 32 (m.seg, m.ea) (j * 4) := by
  cases src with
  | reg x n => cases h
  | mem a => cases h; rfl

/-- So does an EVEX source in memory. -/
theorem State.maskedSource_eq_checkAccess (s : State) (w vl : Nat) (o : EvexOps) (m : MemAccess)
    (h : s.maskedAccess w vl o = some m) :
    s.maskedSource o.prefixes w vl o.len o.aaa o.src = andThen (s.checkAccess m.seg m.ea m.offs m.aligned) fun _ =>
      .next fun j => s.memElem w (m.seg, m.ea) (if o.src.bcst then 0 else j * (w / 8)) := by
  unfold State.maskedAccess at h
  cases hsrc : o.src with
  | reg n => rw [hsrc] at h; cases h
  | mem bcst a => rw [hsrc] at h; cases h; rfl

/-- With a memory source the new value of the destination is there exactly when the access check lets the operand be read. -/
theorem State.destValue_eq_checkAccess (s : State) (i : Instr) (m : MemAccess) (h : s.access i = some m) :
    ∃ val, s.destValue i = andThen (s.checkAccess m.seg m.ea m.offs m.aligned) fun _ => .next val := by
  have legacy (len : Nat) (o : LegacyOps) (h : s.plainAccess o.prefixes 128 len true o.src = some m) :
      ∃ val, s.legacyValue len o = andThen (s.checkAccess m.seg m.ea m.offs m.aligned) fun _ => .next val :=
    ⟨_, by rw [State.legacyValue, s.plainSource_eq_checkAccess _ _ _ _ _ m h, andThen_assoc]; rfl⟩
  have vex (vl : Nat) (o : VexOps) (h : s.plainAccess o.prefixes vl o.len false o.src = some m) :
      ∃ val, s.vexValue vl o = andThen (s.checkAccess m.seg m.ea m.offs m.aligned) fun _ => .next val :=
    ⟨_, by rw [State.vexValue, s.plainSource_eq_checkAccess _ _ _ _ _ m h, andThen_assoc]; rfl⟩
  have evex (w vl : Nat) (o : EvexOps) (h : s.maskedAccess w vl o = some m) :
      ∃ val, s.evexValue w vl o = andThen (s.checkAccess m.seg m.ea m.offs m.aligned) fun _ => .next val :=
    ⟨_, by rw [State.evexValue, s.maskedSource_eq_checkAccess w vl o m h, andThen_assoc]; rfl⟩
  cases i with
  | pmaxud o => exact legacy _ o h
  | pmaxudRex w o => exact legacy _ o h
  | vpmaxudVex128 o => exact vex 128 o h
  | vpmaxudVex256 o => exact vex 256 o h
  | vpmaxudEvex128 o => exact evex 32 128 o h
  | vpmaxudEvex256 o => exact evex 32 256 o h
  | vpmaxudEvex512 o => exact evex 32 512 o h
  | vpmaxuqEvex128 o => exact evex 64 128 o h
  | vpmaxuqEvex256 o => exact evex 64 256 o h
  | vpmaxuqEvex512 o => exact evex 64 512 o h

/-- An enabled instruction with a memory source answers as its access check does. -/
theorem exec_eq_checkAccess (i : Instr) (s : State) (m : MemAccess) (hen : s.enabled i) (ha : s.access i = some m) :
    ∃ val, exec i s = andThen (s.checkAccess m.seg m.ea m.offs m.aligned) fun _ =>
      .next ((s.setV i.dest val).retire i.ilen) := by
  obtain ⟨hm, hv, hu, ht⟩ := hen
  obtain ⟨val, hval⟩ := s.destValue_eq_checkAccess i m ha
  exact ⟨val, by rw [exec_eq, State.guarded_of_enabled _ _ _ _ hm hv hu ht, hval, andThen_assoc]; rfl⟩

/-- It raises a fault that applies, if any does. -/
theorem exec_of_memFaults_ne_nil (i : Instr) (s : State) (m : MemAccess) (hen : s.enabled i) (ha : s.access i = some m)
    (h : s.env.memFaults m.seg m.ea m.offs m.aligned ≠ []) :
    ∃ f ∈ s.env.memFaults m.seg m.ea m.offs m.aligned, exec i s = .fault f := by
  obtain ⟨f, hf, hcheck⟩ := s.checkAccess_of_memFaults_ne_nil m h
  obtain ⟨val, hexec⟩ := exec_eq_checkAccess i s m hen ha
  exact ⟨f, hf, by rw [hexec, hcheck]; rfl⟩

/-- On an operand that is not readable it faults or is refused for a device. -/
theorem exec_of_not_readable (i : Instr) (s : State) (m : MemAccess) (hen : s.enabled i) (ha : s.access i = some m)
    (h : ¬ s.readable m) : (∃ f, exec i s = .fault f) ∨ exec i s = .refused .device := by
  obtain ⟨val, hexec⟩ := exec_eq_checkAccess i s m hen ha
  rw [hexec]
  rcases s.checkAccess_cases m with ⟨-, hr⟩ | ⟨f, hcheck, -⟩ | ⟨hcheck, -⟩
  · exact absurd hr h
  · exact .inl ⟨f, by rw [hcheck]; rfl⟩
  · exact .inr (by rw [hcheck]; rfl)

end Sys2Proof.Machine
end

section
/-! SUPPORT. The bytes an operand accesses and the elements they make (`20_memory.md` R63, R69), what memory outside the
accessed bytes reaches, and the flat Translate. -/

namespace Sys2Proof.Machine

open Sys2Proof.Claims

/-! ## The accessed bytes (`20_memory.md` R69) -/

theorem State.active_iff (s : State) (aaa : BitVec 3) (j : Nat) : s.active aaa j = true ↔ Active s aaa j := by
  simp [State.active, Active]

/-- Of a full operand the bytes of the active elements are accessed, and all of them without fault suppression. -/
theorem State.mem_accessed_full (s : State) (w kl : Nat) (aaa : BitVec 3) (i : Nat) :
    i ∈ s.accessed w kl aaa false ↔
      ∃ j, (j < kl ∧ (s.active aaa j = true ∨ s.env.faultSuppression = false)) ∧ ∃ k, k < w / 8 ∧ j * (w / 8) + k = i := by
  simp [State.accessed]

/-- Of a broadcast operand every byte is accessed if any element is active or there is no fault suppression, else none. -/
theorem State.mem_accessed_bcst (s : State) (w kl : Nat) (aaa : BitVec 3) (i : Nat) :
    i ∈ s.accessed w kl aaa true ↔
      i < w / 8 ∧ ∃ j, j < kl ∧ (s.active aaa j = true ∨ s.env.faultSuppression = false) := by
  have hany : ((List.range kl).filter fun j => s.active aaa j || !s.env.faultSuppression).isEmpty = false ↔
      ∃ j, j < kl ∧ (s.active aaa j = true ∨ s.env.faultSuppression = false) := by
    simp [or_iff_not_imp_left]
  rw [← hany]
  cases h : ((List.range kl).filter fun j => s.active aaa j || !s.env.faultSuppression).isEmpty <;>
    simp [State.accessed, h]

/-- An element of a full operand that is accessed has all its bytes accessed. -/
theorem State.mem_accessed (s : State) (w kl : Nat) (aaa : BitVec 3) (bcst : Bool) (j k : Nat) (hj : j < kl)
    (ha : s.active aaa j = true ∨ s.env.faultSuppression = false) (hk : k < w / 8) :
    (if bcst then 0 else j * (w / 8)) + k ∈ s.accessed w kl aaa bcst := by
  cases bcst with
  | false => exact (s.mem_accessed_full w kl aaa _).2 ⟨j, ⟨hj, ha⟩, k, hk, rfl⟩
  | true => exact (s.mem_accessed_bcst w kl aaa _).2 ⟨by simpa using hk, j, hj, ha⟩

/-- Under an empty writemask with fault suppression no byte is accessed. -/
theorem State.not_mem_accessed_of_inactive (s : State) (w kl : Nat) (aaa : BitVec 3) (bcst : Bool)
    (hfs : s.env.faultSuppression = true) (h : ∀ j, j < kl → ¬ Active s aaa j) (i : Nat) :
    i ∉ s.accessed w kl aaa bcst := by
  have none_accessed : ¬ ∃ j, j < kl ∧ (s.active aaa j = true ∨ s.env.faultSuppression = false) := by
    rintro ⟨j, hj, ha | hf⟩
    · exact h j hj ((s.active_iff aaa j).1 ha)
    · rw [hfs] at hf; cases hf
  cases bcst with
  | false =>
    rw [State.mem_accessed_full]
    rintro ⟨j, hj, -⟩
    exact none_accessed ⟨j, hj⟩
  | true =>
    rw [State.mem_accessed_bcst]
    rintro ⟨-, hj⟩
    exact none_accessed hj

/-- Without fault suppression every byte of the operand, full or broadcast, is accessed. -/
theorem EvexForm.mem_accessed_of_unsuppressed {w vl : Nat} {mk : EvexOps → Instr} (h : EvexForm w vl mk) (s : State)
    (aaa : BitVec 3) (bcst : Bool) (hfs : s.env.faultSuppression = false) (i : Nat) (hi : i < dispScale w vl bcst) :
    i ∈ s.accessed w (vl / w) aaa bcst := by
  obtain ⟨hb, -⟩ := h.width_pos
  cases bcst with
  | false =>
    have hj : i / (w / 8) < vl / w := (Nat.div_lt_iff_lt_mul hb).2 (h.bytes_fill ▸ hi)
    have hmem := s.mem_accessed w (vl / w) aaa false _ _ hj (.inr hfs) (Nat.mod_lt i hb)
    rwa [if_neg Bool.false_ne_true, Nat.mul_comm, Nat.div_add_mod] at hmem
  | true =>
    have hpos : 0 < vl / w := by cases h <;> decide
    simpa using s.mem_accessed w (vl / w) aaa true 0 i hpos (.inr hfs) hi

theorem EvexForm.access_mem {w vl : Nat} {mk : EvexOps → Instr} (hform : EvexForm w vl mk) (o : EvexOps) (s : State)
    (bcst : Bool) (a : Addr) (sg : Seg) (ea : Word) (hsrc : o.src = .mem bcst a)
    (href : s.memRef o.prefixes (dispScale w vl bcst) (mk o).ilen a = (sg, ea)) :
    s.access (mk o) = some ⟨sg, ea, s.accessed w (vl / w) o.aaa bcst, false⟩ := by
  rw [hform.ilen_eq] at href
  simp [hform.access_eq, State.maskedAccess, hsrc, href]

/-! ## The elements in the bytes (`20_memory.md` R63) -/

/-- Byte `i` of an element is bits `8i+7 : 8i`. -/
theorem State.littleEndian_memElem (s : State) (w : Nat) (r : Seg × Word) (off : Nat) (h8 : 8 ∣ w) (hw : w ≤ 512) :
    LittleEndian w (s.operandByte r.1 r.2) off (s.memElem w r off) := by
  intro k hk
  have hlt : k < w / 8 * 8 := by rwa [Nat.div_mul_cancel h8]
  have h512 : k < 512 := Nat.lt_of_lt_of_le hk hw
  simp only [State.memElem, BitVec.getLsbD_setWidth, getLsbD_pack 8 _ _ (by decide : 0 < 8), hk, hlt, h512, decide_true,
    Bool.true_and]

theorem littleEndian_congr {w : Nat} {f g : Nat → Byte} {off : Nat} {e : BitVec w}
    (hfg : ∀ k, k < w → f (off + k / 8) = g (off + k / 8)) (h : LittleEndian w f off e) : LittleEndian w g off e := by
  intro k hk
  rw [h k hk, hfg k hk]

/-- An element depends on its bytes only. -/
theorem State.memElem_congr (s s' : State) (w : Nat) (r : Seg × Word) (off : Nat)
    (h : ∀ k, k < w / 8 → s'.operandByte r.1 r.2 (off + k) = s.operandByte r.1 r.2 (off + k)) :
    s'.memElem w r off = s.memElem w r off := by
  rw [State.memElem, State.memElem, pack_congr 8 (w / 8) _ _ h]

/-! ## The result under an empty writemask -/

/-- With no active element the result is the old destination below VL, or 0 under zeroing-masking, and 0 above. -/
theorem State.getLsbD_pack_maskedMax_of_inactive (s : State) (w n : Nat) (o : EvexOps) (b : Nat → BitVec w) (hw : 0 < w)
    (hn : n * w ≤ 512) (h : ∀ j, j < n → ¬ Active s o.aaa j) (k : Nat) :
    (pack w n (s.maskedMax w o b)).getLsbD k = (decide (k < n * w) && !o.z && (s.readV o.d).getLsbD k) := by
  rw [getLsbD_pack w n _ hw]
  by_cases hk : k < n * w
  · have hj : k / w < n := (Nat.div_lt_iff_lt_mul hw).2 hk
    have hinactive : s.active o.aaa (k / w) = false := by
      simpa [← State.active_iff] using h _ hj
    have hbit : (elem w (s.readV o.d) (k / w)).getLsbD (k % w) = (s.readV o.d).getLsbD k := by
      rw [elem, BitVec.getLsbD_extractLsb', decide_eq_true (Nat.mod_lt k hw), Bool.true_and, Nat.mul_comm, Nat.div_add_mod]
    have h512 : k < 512 := Nat.lt_of_lt_of_le hk hn
    cases hz : o.z <;> simp [State.maskedMax, hinactive, hk, h512, hz, hbit]
  · simp [hk]

/-! ## VEX forms complete with their result -/

theorem maxOf_eq_umax {w : Nat} (a b : BitVec w) : maxOf a b = umax a b := by
  simp only [maxOf, umax, GT.gt, BitVec.lt_def]

/-- The write of a VEX form's new value leaves R150's and R151's result, for a source whose elements are as `p` says. -/
theorem State.vexResult_retire_setV (s : State) (vl len : Nat) (d s1 : BitVec 5) (b : Nat → BitVec 32)
    (p : Nat → BitVec 32 → Prop) (hvl : vl ≤ 512) (hp : ∀ j, j < vl / 32 → p j (b j)) :
    VexResult vl s ((s.setV d (pack 32 (vl / 32) fun j => umax (elem 32 (s.readV s1) j) (b j))).retire len) d s1 p := by
  have hfill : vl / 32 * 32 ≤ vl := Nat.div_mul_le_self vl 32
  refine ⟨fun j hj => ⟨b j, hp j hj, ?_⟩, fun k hk => ?_⟩
  · rw [State.readV_retire, State.readV_setV_same, elem_pack 32 _ _ (by decide) (hfill.trans hvl) j hj, maxOf_eq_umax]
  · rw [State.readV_retire, State.readV_setV_same, pack_zero_above 32 _ _ (by decide) k (hfill.trans hk)]

/-- A readable legacy or VEX source in memory gives the elements in its bytes. -/
theorem State.plainSource_of_readable (s : State) (ps : List Prefix) (vl len : Nat) (al : Bool) (src : Rm4) (m : MemAccess)
    (ha : s.plainAccess ps vl len al src = some m) (hr : s.readable m) :
    s.plainSource ps vl len al src = .next fun j => s.memElem 32 (m.seg, m.ea) (j * 4) := by
  rw [s.plainSource_eq_checkAccess ps vl len al src m ha, s.checkAccess_of_readable m hr]
  rfl

/-- A VEX form that is ready and whose source has the elements `b` completes with the result of R150, R151 inside the frame. -/
theorem VexForm.exec_of_source {vl : Nat} {feature : Features → Bool} {mk : VexOps → Instr} (hform : VexForm vl feature mk)
    (o : VexOps) (s : State) (b : Nat → BitVec 32) (p : Nat → BitVec 32 → Prop)
    (hready : VexReady s vl (feature s.env.features)) (hsrc : s.plainSource o.prefixes vl o.len false o.src = .next b)
    (hp : ∀ j, j < vl / 32 → p j (b j)) :
    ∃ t, exec (mk o) s = .next t ∧ VexResult vl s t (o.d.setWidth 5) (o.s1.setWidth 5) p
      ∧ OnlyWrites s t (o.d.setWidth 5) (mk o).ilen := by
  have hval : s.destValue (mk o)
      = .next (pack 32 (vl / 32) fun j => umax (elem 32 (s.readV (o.s1.setWidth 5)) j) (b j)) := by
    rw [hform.destValue_eq, State.vexValue, hsrc]; rfl
  refine ⟨_, (exec_eq_next_iff _ _ _).2 ⟨hform.enabled o s hready, _, hval, rfl⟩, ?_⟩
  rw [hform.dest_eq]
  exact ⟨s.vexResult_retire_setV vl _ _ _ b p hform.vl_le_512 hp, s.onlyWrites_retire_setV _ _ _⟩

/-! ## Memory that differs outside the accessed bytes -/

section
variable (s : State) (m' : List Host.Cell)

/-- With the memory `m'` in its place, the bytes of the access read as before. -/
def State.SameBytes (acc : Option MemAccess) : Prop :=
  ∀ m, acc = some m → ∀ j ∈ m.offs,
    ({ s with mem := m' } : State).operandByte m.seg m.ea j = s.operandByte m.seg m.ea j

variable {s m'}

/-- Whatever reads only the elements below VL of a legacy or VEX source does not tell the two memories apart. -/
theorem State.SameBytes.andThen_plainSource {β : Type} {ps : List Prefix} {vl len : Nat} {al : Bool} {src : Rm4}
    (h : s.SameBytes m' (s.plainAccess ps vl len al src)) (f : (Nat → BitVec 32) → Host.Outcome β Fault Refusal)
    (hf : ∀ b b', (∀ j, j < vl / 32 → b' j = b j) → f b' = f b) :
    andThen (({ s with mem := m' } : State).plainSource ps vl len al src) f = andThen (s.plainSource ps vl len al src) f := by
  cases src with
  | reg x n => rfl
  | mem a =>
    have helem (j : Nat) (hj : j < vl / 32) : ({ s with mem := m' } : State).memElem 32 (s.memRef ps 1 len a) (j * 4)
        = s.memElem 32 (s.memRef ps 1 len a) (j * 4) :=
      State.memElem_congr _ _ 32 _ _ fun k hk => h _ rfl _ (List.mem_range.2 (by omega))
    simp only [State.plainSource, andThen_assoc]
    exact congrArg (andThen _) (funext fun _ => hf _ _ helem)

/-- Whatever reads only the active elements of an EVEX source does not tell the two memories apart. -/
theorem State.SameBytes.andThen_maskedSource {β : Type} {w vl : Nat} {o : EvexOps}
    (h : s.SameBytes m' (s.maskedAccess w vl o)) (f : (Nat → BitVec w) → Host.Outcome β Fault Refusal)
    (hf : ∀ b b', (∀ j, j < vl / w → s.active o.aaa j = true → b' j = b j) → f b' = f b) :
    andThen (({ s with mem := m' } : State).maskedSource o.prefixes w vl o.len o.aaa o.src) f
      = andThen (s.maskedSource o.prefixes w vl o.len o.aaa o.src) f := by
  unfold State.maskedAccess at h
  cases hsrc : o.src with
  | reg n => rfl
  | mem bcst a =>
    rw [hsrc] at h
    have helem (j : Nat) (hj : j < vl / w) (ha : s.active o.aaa j = true) :
        ({ s with mem := m' } : State).memElem w (s.memRef o.prefixes (dispScale w vl bcst) o.len a)
            (if bcst then 0 else j * (w / 8))
          = s.memElem w (s.memRef o.prefixes (dispScale w vl bcst) o.len a) (if bcst then 0 else j * (w / 8)) :=
      State.memElem_congr _ _ w _ _ fun k hk => h _ rfl _ (s.mem_accessed w (vl / w) o.aaa bcst j k hj (.inl ha) hk)
    simp only [State.maskedSource, andThen_assoc]
    exact congrArg (andThen _) (funext fun _ => hf _ _ helem)

theorem State.SameBytes.legacyValue_eq {len : Nat} {o : LegacyOps}
    (h : s.SameBytes m' (s.plainAccess o.prefixes 128 len true o.src)) :
    ({ s with mem := m' } : State).legacyValue len o = s.legacyValue len o :=
  h.andThen_plainSource _ fun _ _ hb => by rw [pack_congr 32 4 _ _ fun j hj => by rw [hb j hj]]

theorem State.SameBytes.vexValue_eq {vl : Nat} {o : VexOps}
    (h : s.SameBytes m' (s.plainAccess o.prefixes vl o.len false o.src)) :
    ({ s with mem := m' } : State).vexValue vl o = s.vexValue vl o :=
  h.andThen_plainSource _ fun _ _ hb => by rw [pack_congr 32 (vl / 32) _ _ fun j hj => by rw [hb j hj]]

theorem State.SameBytes.evexValue_eq {w vl : Nat} {o : EvexOps} (h : s.SameBytes m' (s.maskedAccess w vl o)) :
    ({ s with mem := m' } : State).evexValue w vl o = s.evexValue w vl o := by
  refine h.andThen_maskedSource _ fun b b' hb => congrArg _ (pack_congr w (vl / w) _ _ fun j hj => ?_)
  show s.maskedMax w o b' j = s.maskedMax w o b j
  unfold State.maskedMax
  split
  · next ha => rw [hb j hj ha]
  · rfl

/-- The new value of the destination depends on the accessed bytes of memory only. -/
theorem State.SameBytes.destValue_eq {i : Instr} (h : s.SameBytes m' (s.access i)) :
    ({ s with mem := m' } : State).destValue i = s.destValue i := by
  cases i with
  | pmaxud o => exact State.SameBytes.legacyValue_eq h
  | pmaxudRex w o => exact State.SameBytes.legacyValue_eq h
  | vpmaxudVex128 o => exact State.SameBytes.vexValue_eq h
  | vpmaxudVex256 o => exact State.SameBytes.vexValue_eq h
  | vpmaxudEvex128 o => exact State.SameBytes.evexValue_eq h
  | vpmaxudEvex256 o => exact State.SameBytes.evexValue_eq h
  | vpmaxudEvex512 o => exact State.SameBytes.evexValue_eq h
  | vpmaxuqEvex128 o => exact State.SameBytes.evexValue_eq h
  | vpmaxuqEvex256 o => exact State.SameBytes.evexValue_eq h
  | vpmaxuqEvex512 o => exact State.SameBytes.evexValue_eq h

end

/-! ## The flat Translate -/

/-- The flat Translate gives every linear byte the physical byte of its address. -/
theorem Flat64.lookup_eq (s : State) (h : Flat64 s) (a : Nat) : s.env.xlate.lookup a = .ram a := by
  obtain ⟨-, hregions, hsup, husr, -⟩ := h
  simp [Translate.lookup, hregions, hsup, husr]

/-- In M64 the segment an operand with a base has without an override adds nothing. -/
theorem segBase_defaultSeg (e : Env) (hm : e.mode = .m64) (x : Bool) (b : BitVec 4) (d : Disp) :
    e.segBase (defaultSeg (.base x b d)) = 0 := by
  simp only [defaultSeg]
  split <;> simp [Env.segBase, hm]

/-- Below 2^47 an operand byte in a segment without a base is at its effective address plus its offset, passes the segment's check
and is memory's. -/
theorem Flat64.operand (s : State) (h : Flat64 s) (sg : Seg) (ea : Word) (i : Nat) (hsg : s.env.segBase sg = 0)
    (hlt : ea.toNat + i < 2 ^ 47) :
    ByteReadable s sg ea i ∧ s.operandByte sg ea i = Memory.read s.mem (ea.toNat + i) := by
  have ⟨hm, _, _, _, hshared⟩ := h
  have hlin : s.env.linear sg ea i = ea.toNat + i := by
    have hwrap : ea.toNat + i < 2 ^ 64 := by omega
    simpa [Env.linear, Env.linearSize, hsg, hm] using hwrap
  have hseg : s.env.segOk sg ea i = true := by
    simp only [Env.segOk, hm, hlin, canonical, hlt, if_true, decide_true, Bool.true_or]
  have hlook := Flat64.lookup_eq s h (s.env.linear sg ea i)
  refine ⟨⟨hseg, _, hlook⟩, ?_⟩
  simp only [State.operandByte, hlook]
  simp [State.oracleRead, Env.sharedAt, hshared, hlin]

/-- In M64, without prefixes and displacement, the effective address is what the base register holds. -/
theorem State.memRef_base (s : State) (hm : s.env.mode = .m64) (n len : Nat) (x : Bool) (b : BitVec 4) :
    s.memRef [] n len (.base x b .none) = (defaultSeg (.base x b .none), s.readX b) := by
  simp [State.memRef, segOf, State.effAddr, wideAddr, hm, keep, dispValue]

/-- Below 2^47 the 16-byte operand at the base register's address is read. -/
theorem Flat64.plainSource_base (s : State) (h : Flat64 s) (len : Nat) (x : Bool) (b : BitVec 4)
    (hlt : (s.readX b).toNat + 16 ≤ 2 ^ 47) :
    s.plainSource [] 128 len false (.mem (.base x b .none))
      = .next fun j => s.memElem 32 (defaultSeg (.base x b .none), s.readX b) (j * 4) := by
  have ⟨hm, _⟩ := h
  refine s.plainSource_of_readable [] 128 len false _
    ⟨defaultSeg (.base x b .none), s.readX b, List.range (128 / 8), false⟩
    (by rw [State.plainAccess, s.memRef_base hm]) ⟨fun i hi => ?_, nofun⟩
  have hi16 : i < 16 := List.mem_range.1 hi
  have hbelow : (s.readX b).toNat + i < 2 ^ 47 := by omega
  exact (Flat64.operand s h _ _ i (segBase_defaultSeg s.env hm x b .none) hbelow).1

end Sys2Proof.Machine
end

section
/-! SUPPORT. The statements of the memory family, with the forms they are made of. -/

namespace Sys2Proof.Machine

open Sys2Proof.Claims

/-! ## The statements' forms -/

theorem misalignedForm {mk : LegacyOps → Instr} (hform : LegacyForm mk) : MisalignedForm mk := by
  intro o s a sg ea hsrc hready href hread hmis
  have ha : s.access (mk o) = some ⟨sg, ea, List.range 16, true⟩ := by
    rw [hform.access_eq, hsrc, State.plainAccess, href]
  have hne : s.env.memFaults sg ea (List.range 16) true ≠ [] := fun hnil =>
    hmis (((Env.memFaults_nil _ _ _ _ _).1 hnil).2 rfl)
  obtain ⟨f, hf, hexec⟩ := exec_of_memFaults_ne_nil _ s _ (hform.enabled o s hready) ha hne
  have readable (j : Nat) (hj : j ∈ List.range 16) : ByteReadable s sg ea j := hread j (List.mem_range.1 hj)
  rcases Env.mem_memFaults _ _ _ _ _ f hf with ⟨-, j, hj, hseg⟩ | ⟨rfl, -⟩ | ⟨j, hj, -, c, hlook, -⟩
  · rw [(readable j hj).1] at hseg; cases hseg
  · exact hexec
  · obtain ⟨-, p, hp⟩ := readable j hj
    rw [hp] at hlook; cases hlook

/-- Without fault suppression one unreadable byte of the operand stops an EVEX form. -/
theorem EvexForm.exec_of_unsuppressed {w vl : Nat} {mk : EvexOps → Instr} (hform : EvexForm w vl mk) (o : EvexOps)
    (s : State) (bcst : Bool) (a : Addr) (sg : Seg) (ea : Word) (hsrc : o.src = .mem bcst a) (hready : EvexReady s vl o)
    (hfs : s.env.faultSuppression = false)
    (href : s.memRef o.prefixes (dispScale w vl bcst) (mk o).ilen a = (sg, ea))
    (hbad : ∃ i, i < dispScale w vl bcst ∧ ¬ ByteReadable s sg ea i) :
    (∃ f, exec (mk o) s = .fault f) ∨ exec (mk o) s = .refused .device := by
  obtain ⟨i, hi, hbyte⟩ := hbad
  refine exec_of_not_readable _ s _ (hform.enabled o s hready) (hform.access_mem o s bcst a sg ea hsrc href) ?_
  rintro ⟨hread, -⟩
  exact hbyte (hread i (hform.mem_accessed_of_unsuppressed s o.aaa bcst hfs i hi))

theorem EvexForm.unsuppressedForm {w vl : Nat} {mk : EvexOps → Instr} (hform : EvexForm w vl mk) :
    UnsuppressedForm vl mk :=
  fun o s a sg ea => hform.exec_of_unsuppressed o s false a sg ea

theorem EvexForm.unsuppressedBroadcastForm {w vl : Nat} {mk : EvexOps → Instr} (hform : EvexForm w vl mk) :
    UnsuppressedBroadcastForm w vl mk :=
  fun o s a sg ea => hform.exec_of_unsuppressed o s true a sg ea

theorem EvexForm.emptyMaskForm {w vl : Nat} {mk : EvexOps → Instr} (hform : EvexForm w vl mk) : EmptyMaskForm w vl mk := by
  intro o s bcst a hsrc hready hfs hinactive
  obtain ⟨hfill, h512⟩ := hform.elements_fill
  have hread : ∀ m, s.maskedAccess w vl o = some m → s.readable m := by
    rw [← hform.access_eq, hform.access_mem o s bcst a _ _ hsrc rfl]
    rintro _ ⟨⟩
    exact ⟨fun i hi => absurd hi (s.not_mem_accessed_of_inactive w (vl / w) o.aaa bcst hfs hinactive i), nofun⟩
  obtain ⟨b, hb⟩ := (s.maskedSource_cases w vl o).next_of_readable hread
  have hval : s.destValue (mk o) = .next (pack w (vl / w) (s.maskedMax w o b)) := by
    rw [hform.destValue_eq, State.evexValue, hb]; rfl
  refine ⟨_, (exec_eq_next_iff _ _ _).2 ⟨hform.enabled o s hready, _, hval, rfl⟩,
    hform.dest_eq o ▸ s.onlyWrites_retire_setV _ _ _, fun k => ?_⟩
  rw [hform.dest_eq, State.readV_retire, State.readV_setV_same,
    s.getLsbD_pack_maskedMax_of_inactive w _ o b hform.width_pos.2 (hfill.le.trans h512) hinactive, hfill]

/-! ## The statements -/

/-- Settles O20: below 2^47 the operand's bytes are memory's at the base register's address, and the elements are made of
them. -/
theorem flatMemoryOperand : Obligations.FlatMemoryOperand := by
  intro d s1 x w b s hready hflat hlt
  have ⟨hm, _⟩ := hflat
  have elements (j : Nat) (hj : j < 4) : LittleEndian 32 (fun i => Memory.read s.mem ((s.readX b).toNat + i)) (j * 4)
      (s.memElem 32 (defaultSeg (.base x b .none), s.readX b) (j * 4)) := by
    refine littleEndian_congr (fun k hk => ?_) (s.littleEndian_memElem 32 _ (j * 4) (by decide) (by decide))
    exact (Flat64.operand s hflat _ (s.readX b) _ (segBase_defaultSeg s.env hm x b .none) (by omega)).2
  obtain ⟨t, hexec, hresult, -⟩ := VexForm.vpmaxud128.exec_of_source ⟨[], w, d, s1, .mem (.base x b .none)⟩ s _ _ hready
    (Flat64.plainSource_base s hflat _ x b hlt) elements
  exact ⟨t, hexec, hresult⟩

/-- Settles O27: the checks do not read memory, and the new value of the destination reads the accessed bytes only. -/
theorem onlyAccessedBytesMatter : Obligations.OnlyAccessedBytesMatter := by
  intro i s m' h
  have hud : ({ s with mem := m' } : State).udFor i = s.udFor i := by cases i <;> rfl
  exact exec_eq_mapNext i s { s with mem := m' } (fun t => { t with mem := m' }) (fun _ _ _ => rfl) hud
    (State.SameBytes.destValue_eq h) (fun _ => rfl)

/-- Settles O37: the misalignment is the one fault that applies. -/
theorem misalignedOperandOfFormOne : Obligations.MisalignedOperandOfFormOne :=
  ⟨misalignedForm .pmaxud, fun w => misalignedForm (.pmaxudRex w)⟩

/-- Settles O38: the segment's fault is the only kind that applies, and the access check puts it before a device. -/
theorem illegalAddressFault : Obligations.IllegalAddressFault := by
  rintro i s m hc hvl hud hts ha hal ⟨k, hk, hbad⟩ hmap
  have hne : s.env.memFaults m.seg m.ea m.offs m.aligned ≠ [] := by
    intro hnil
    obtain ⟨hbytes, -⟩ := (Env.memFaults_nil _ _ _ _ _).1 hnil
    rw [(hbytes k hk).1] at hbad; cases hbad
  obtain ⟨f, hf, hexec⟩ := exec_of_memFaults_ne_nil i s m (s.enabled_of_covered i hc hvl hud hts) ha hne
  rcases Env.mem_memFaults _ _ _ _ _ f hf with ⟨rfl, -⟩ | ⟨-, hmust, hmis⟩ | ⟨j, hj, hseg, c, hlook, -⟩
  · rw [hexec, segFault_eq]
  · exact absurd (hal hmust) hmis
  · exact absurd hlook (hmap j hj hseg c)

/-- Settles O43: no byte is accessed, so the source is read, and no element of it reaches the result. -/
theorem emptyMaskAccessesNoMemory : Obligations.EmptyMaskAccessesNoMemory := by
  open EvexForm in
  exact ⟨vpmaxud128.emptyMaskForm, vpmaxud256.emptyMaskForm, vpmaxud512.emptyMaskForm,
    vpmaxuq128.emptyMaskForm, vpmaxuq256.emptyMaskForm, vpmaxuq512.emptyMaskForm⟩

/-- Settles O44: without fault suppression every byte of the operand is accessed, and one that cannot be read stops the form. -/
theorem unsuppressedReadsWholeOperand : Obligations.UnsuppressedReadsWholeOperand := by
  open EvexForm in
  exact ⟨⟨vpmaxud128.unsuppressedForm, vpmaxud256.unsuppressedForm, vpmaxud512.unsuppressedForm,
      vpmaxuq128.unsuppressedForm, vpmaxuq256.unsuppressedForm, vpmaxuq512.unsuppressedForm⟩,
    vpmaxud128.unsuppressedBroadcastForm, vpmaxud256.unsuppressedBroadcastForm, vpmaxud512.unsuppressedBroadcastForm,
    vpmaxuq128.unsuppressedBroadcastForm, vpmaxuq256.unsuppressedBroadcastForm, vpmaxuq512.unsuppressedBroadcastForm⟩

/-- Settles O52: the next state of a step is an instruction's, which writes a vector register, the pc and the counter only. -/
theorem stepWritesNoMemoryAndNoEnv : Obligations.StepWritesNoMemoryAndNoEnv := by
  intro s t h
  obtain ⟨-, i, -, -, hexec⟩ := step_next s t h
  obtain ⟨val, rfl⟩ := exec_next_shape i s t hexec
  exact ⟨rfl, rfl, fun _ => rfl, rfl, rfl⟩

end Sys2Proof.Machine
end

section
/-! SUPPORT. ModRM, SIB and displacement, read and written: the decoder reads exactly what the encoder writes. -/

namespace Sys2Proof

/-! ## The fields of a byte and of a register number -/

@[simp] theorem extractLsb'_6_2_pack233 (a : BitVec 2) (b c : BitVec 3) : (pack233 a b c).extractLsb' 6 2 = a := by
  revert a b c; decide

@[simp] theorem extractLsb'_3_3_pack233 (a : BitVec 2) (b c : BitVec 3) : (pack233 a b c).extractLsb' 3 3 = b := by
  revert a b c; decide

@[simp] theorem extractLsb'_0_3_pack233 (a : BitVec 2) (b c : BitVec 3) : (pack233 a b c).extractLsb' 0 3 = c := by
  revert a b c; decide

theorem exists_eq_pack233 (m : Byte) : ∃ a b c, m = pack233 a b c :=
  ⟨m.extractLsb' 6 2, m.extractLsb' 3 3, m.extractLsb' 0 3, by revert m; decide +kernel⟩

@[simp] theorem low3_extend (e : Bool) (n : BitVec 3) : low3 (extend e n) = n := by revert e n; decide

@[simp] theorem ext3_extend (e : Bool) (n : BitVec 3) : ext3 (extend e n) = e := getLsbD_extend_3 e n

@[simp] theorem extend_ext3_low3 (n : BitVec 4) : extend (ext3 n) (low3 n) = n := by revert n; decide

/-! ## Displacements (`30_encoding.md` R107) -/

theorem le32Bytes_le32 (b0 b1 b2 b3 : Byte) : le32Bytes (le32 b0 b1 b2 b3) = [b0, b1, b2, b3] := by
  simp only [le32Bytes, le32, List.cons.injEq, and_true]
  refine ⟨?_, ?_, ?_, ?_⟩ <;> ext k hk <;> simp <;> grind

theorem le32_extractLsb' (v : BitVec 32) :
    le32 (v.extractLsb' 0 8) (v.extractLsb' 8 8) (v.extractLsb' 16 8) (v.extractLsb' 24 8) = v := by
  ext k hk
  simp [le32]
  grind

theorem takeDisp32_eq_some (bs : List Byte) (v : BitVec 32) (rest : List Byte) :
    takeDisp32 bs = some (v, rest) ↔ bs = le32Bytes v ++ rest := by
  constructor
  · intro h
    unfold takeDisp32 at h
    split at h
    · cases h
      rw [le32Bytes_le32]
      rfl
    · cases h
  · rintro rfl
    simp [takeDisp32, le32Bytes, le32_extractLsb']

theorem Disp.mod_ne_3 (d : Disp) : d.mod ≠ 3#2 := by cases d <;> simp [Disp.mod]

theorem takeDisp_2 (bs : List Byte) : takeDisp 2#2 bs = (takeDisp32 bs).map fun r => (.disp32 r.1, r.2) := by
  rw [takeDisp.eq_def, if_neg (by decide), if_neg (by decide), takeDisp32.eq_def]
  split <;> rfl

/-- A displacement with a base is read exactly where the encoder writes it. -/
theorem takeDisp_eq_some (mod : BitVec 2) (hmod : mod ≠ 3#2) (bs : List Byte) (d : Disp) (rest : List Byte) :
    takeDisp mod bs = some (d, rest) ↔ d.mod = mod ∧ bs = d.bytes ++ rest := by
  have hmods : mod = 0#2 ∨ mod = 1#2 ∨ mod = 2#2 := by revert mod; decide
  rcases hmods with rfl | rfl | rfl
  · cases d <;> simp [takeDisp, Disp.mod, Disp.bytes]
  · cases bs <;> cases d <;> simp [takeDisp, Disp.mod, Disp.bytes]
  · rw [takeDisp_2]
    cases d <;> simp [Disp.mod, Disp.bytes, takeDisp32_eq_some]

/-! ## ModRM:r/m operands (`30_encoding.md` R105, R106) -/

/-- ModRM and what follows it, of the r/m operand the decoder has parsed. -/
def RmField.bytes (reg : BitVec 3) : RmField → List Byte
  | .reg rm => [pack233 3 reg rm]
  | .mem a => a.bytes reg

/-- The operand is one that ModRM can say beside the extension bits X and B. -/
def RmField.fits (x b : Bool) : RmField → Prop
  | .reg _ => True
  | .mem a => a.wf = true ∧ a.xBit = x ∧ a.bBit = b

/-- rm = 100 announces a SIB byte, and mod = 00 with rm = 101 no base (R105). -/
theorem Addr.wf_base (x : Bool) (b : BitVec 4) (d : Disp) :
    (Addr.base x b d).wf = true ↔ low3 b ≠ 4#3 ∧ ¬ (d.mod = 0#2 ∧ low3 b = 5#3) := by
  cases d <;> simp [Addr.wf, Disp.absent, Disp.mod]

/-- mod = 00 with base = 101 announces no base (R106). -/
theorem Addr.wf_sib (scale : BitVec 2) (index b : BitVec 4) (d : Disp) :
    (Addr.sib scale index b d).wf = true ↔ ¬ (d.mod = 0#2 ∧ low3 b = 5#3) := by
  cases d <;> simp [Addr.wf, Disp.absent, Disp.mod]

/-- The operand of a SIB byte is written as it was read. -/
theorem bytes_of_decodeSib (x b : Bool) (mod : BitVec 2) (hmod : mod ≠ 3#2) (sib : Byte) (bs : List Byte) (a : Addr)
    (rest : List Byte) (h : decodeSib x b mod sib bs = some (a, rest)) (reg : BitVec 3) :
    (RmField.mem a).fits x b ∧ pack233 mod reg 4 :: sib :: bs = a.bytes reg ++ rest := by
  obtain ⟨scale, index, base, rfl⟩ := exists_eq_pack233 sib
  simp only [decodeSib, extractLsb'_6_2_pack233, extractLsb'_3_3_pack233, extractLsb'_0_3_pack233] at h
  split at h
  · rename_i hnone
    obtain ⟨rfl, rfl⟩ := hnone
    obtain ⟨⟨d, rest'⟩, hd, hr⟩ := Option.map_eq_some_iff.1 h
    cases hr
    rw [takeDisp32_eq_some] at hd
    simp [RmField.fits, Addr.wf, Addr.xBit, Addr.bBit, Addr.bytes, hd]
  · rename_i hbase
    obtain ⟨⟨d, rest'⟩, hd, hr⟩ := Option.map_eq_some_iff.1 h
    cases hr
    rw [takeDisp_eq_some mod hmod] at hd
    obtain ⟨rfl, rfl⟩ := hd
    exact ⟨⟨(Addr.wf_sib _ _ _ d).2 (by simpa using hbase), ext3_extend x index, ext3_extend b base⟩, by simp [Addr.bytes]⟩

/-- What ModRM announces is written as it was read. -/
theorem bytes_of_decodeModRM (x b : Bool) (bs : List Byte) (reg : BitVec 3) (rm : RmField) (rest : List Byte)
    (h : decodeModRM x b bs = some (reg, rm, rest)) : rm.fits x b ∧ bs = rm.bytes reg ++ rest := by
  cases bs with
  | nil => cases h
  | cons m bs =>
    obtain ⟨mod, reg', rm', rfl⟩ := exists_eq_pack233 m
    simp only [decodeModRM, extractLsb'_6_2_pack233, extractLsb'_3_3_pack233, extractLsb'_0_3_pack233] at h
    split at h
    · rename_i hmod
      cases h
      exact ⟨trivial, by simp [RmField.bytes, hmod]⟩
    · rename_i hmod
      split at h
      · rename_i hrm
        cases bs with
        | nil => cases h
        | cons sib bs =>
          obtain ⟨⟨a, rest'⟩, ha, hr⟩ := Option.map_eq_some_iff.1 h
          cases hr
          subst hrm
          exact bytes_of_decodeSib x b mod hmod sib bs a _ ha reg
      · rename_i hrm
        split at h
        · rename_i hnone
          obtain ⟨rfl, rfl⟩ := hnone
          obtain ⟨⟨d, rest'⟩, hd, hr⟩ := Option.map_eq_some_iff.1 h
          cases hr
          rw [takeDisp32_eq_some] at hd
          exact ⟨⟨rfl, rfl, rfl⟩, by simp [RmField.bytes, Addr.bytes, hd]⟩
        · rename_i hbase
          obtain ⟨⟨d, rest'⟩, hd, hr⟩ := Option.map_eq_some_iff.1 h
          cases hr
          rw [takeDisp_eq_some mod hmod] at hd
          obtain ⟨rfl, rfl⟩ := hd
          exact ⟨⟨(Addr.wf_base x _ d).2 (by simpa using ⟨hrm, by simpa using hbase⟩), rfl, ext3_extend b rm'⟩,
            by simp [RmField.bytes, Addr.bytes]⟩

/-- What the encoder writes for a memory operand is read as that operand. -/
theorem decodeModRM_bytes_mem (reg : BitVec 3) (a : Addr) (ha : a.wf = true) (rest : List Byte) :
    decodeModRM a.xBit a.bBit (a.bytes reg ++ rest) = some (reg, .mem a, rest) := by
  have hdisp (d : Disp) : takeDisp d.mod (d.bytes ++ rest) = some (d, rest) :=
    (takeDisp_eq_some d.mod d.mod_ne_3 _ _ _).2 ⟨rfl, rfl⟩
  have hdisp32 (d : BitVec 32) : takeDisp32 (le32Bytes d ++ rest) = some (d, rest) := (takeDisp32_eq_some _ _ _).2 rfl
  cases a with
  | base x b d =>
    obtain ⟨h4, hno⟩ := (Addr.wf_base x b d).1 ha
    simp [decodeModRM, Addr.bytes, Addr.xBit, Addr.bBit, d.mod_ne_3, h4, hno, hdisp]
  | sib scale index b d =>
    have hno := (Addr.wf_sib scale index b d).1 ha
    simp [decodeModRM, decodeSib, Addr.bytes, Addr.xBit, Addr.bBit, d.mod_ne_3, hno, hdisp]
  | sibNoBase b scale index d => simp [decodeModRM, decodeSib, Addr.bytes, Addr.xBit, Addr.bBit, hdisp32]
  | disp32 x b d => simp [decodeModRM, Addr.bytes, Addr.xBit, Addr.bBit, hdisp32]

end Sys2Proof
end

section
/-! SUPPORT. What the formats share, read and written: the second source, its extension bits, the prefixes; and the verdict. -/

namespace Sys2Proof

/-! ## Second sources -/

/-- The r/m field of a legacy or VEX second source. -/
def Rm4.field : Rm4 → RmField
  | .reg _ n => .reg (low3 n)
  | .mem a => .mem a

/-- The r/m field of an EVEX second source. -/
def Rm5.field : Rm5 → RmField
  | .reg n => .reg (n.extractLsb' 0 3)
  | .mem _ a => .mem a

@[simp] theorem Rm4.toRm4_field (r : Rm4) : r.field.toRm4 r.xBit r.bBit = r := by
  cases r with
  | reg x n => simp [Rm4.field, RmField.toRm4, Rm4.xBit, Rm4.bBit]
  | mem a => rfl

@[simp] theorem Rm5.toRm5_field (r : Rm5) : r.field.toRm5 r.xBit r.bBit r.bcst = r := by
  cases r with
  | reg n =>
    have hn : ∀ n : BitVec 5, (BitVec.ofBool (n.getLsbD 4) ++ extend (n.getLsbD 3) (n.extractLsb' 0 3) : BitVec 5) = n := by
      decide
    exact congrArg Rm5.reg (hn n)
  | mem bcst a => rfl

@[simp] theorem Rm4.len_field (r : Rm4) : r.field.len = r.len := by cases r <;> rfl

@[simp] theorem Rm5.len_field (r : Rm5) : r.field.len = r.len := by cases r <;> rfl

theorem Rm4.decodeModRM_bytes (reg : BitVec 3) (r : Rm4) (h : r.wf = true) (rest : List Byte) :
    decodeModRM r.xBit r.bBit (r.bytes reg ++ rest) = some (reg, r.field, rest) := by
  cases r with
  | reg x n => simp [decodeModRM, Rm4.bytes, Rm4.field]
  | mem a => exact decodeModRM_bytes_mem reg a h rest

theorem Rm5.decodeModRM_bytes (reg : BitVec 3) (r : Rm5) (h : r.wf = true) (rest : List Byte) :
    decodeModRM r.xBit r.bBit (r.bytes reg ++ rest) = some (reg, r.field, rest) := by
  cases r with
  | reg n => simp [decodeModRM, Rm5.bytes, Rm5.field]
  | mem bcst a => exact decodeModRM_bytes_mem reg a h rest

/-- A legacy or VEX second source as it was read: the bits and bytes it is written with (R93, R98). -/
theorem RmField.toRm4_of_fits (x b : Bool) (rm : RmField) (h : rm.fits x b) :
    (rm.toRm4 x b).wf = true ∧ (rm.toRm4 x b).xBit = x ∧ (rm.toRm4 x b).bBit = b
      ∧ ∀ reg, (rm.toRm4 x b).bytes reg = rm.bytes reg := by
  cases rm with
  | reg n => exact ⟨rfl, rfl, ext3_extend b n, fun reg => by simp [RmField.toRm4, Rm4.bytes, RmField.bytes]⟩
  | mem a =>
    obtain ⟨hwf, hx, hb⟩ := h
    exact ⟨hwf, hx, hb, fun _ => rfl⟩

/-- An EVEX second source as it was read, EVEX.b being 0 with a register (R102, R104, R111). -/
theorem RmField.toRm5_of_fits (x b bcst : Bool) (rm : RmField) (h : rm.fits x b) (hb : (bcst && rm.isReg) = false) :
    (rm.toRm5 x b bcst).wf = true ∧ (rm.toRm5 x b bcst).xBit = x ∧ (rm.toRm5 x b bcst).bBit = b
      ∧ (rm.toRm5 x b bcst).bcst = bcst ∧ ∀ reg, (rm.toRm5 x b bcst).bytes reg = rm.bytes reg := by
  cases rm with
  | reg n =>
    have hbits : ∀ (x b : Bool) (n : BitVec 3), (BitVec.ofBool x ++ extend b n : BitVec 5).getLsbD 4 = x
        ∧ (BitVec.ofBool x ++ extend b n : BitVec 5).getLsbD 3 = b
        ∧ (BitVec.ofBool x ++ extend b n : BitVec 5).extractLsb' 0 3 = n := by decide
    obtain ⟨hx, hb', hn⟩ := hbits x b n
    exact ⟨rfl, hx, hb', by simp [RmField.isReg] at hb; exact hb.symm,
      fun reg => congrArg (fun n => [pack233 3 reg n]) hn⟩
  | mem a =>
    obtain ⟨hwf, hx, hb⟩ := h
    exact ⟨hwf, hx, hb, rfl, fun _ => rfl⟩

/-! ## Extension bits -/

theorem Addr.lowRegs_eq (a : Addr) : a.lowRegs = (!a.xBit && !a.bBit) := by
  cases a <;> simp [Addr.lowRegs, Addr.xBit, Addr.bBit, ult_8_iff4, ext3, Bool.and_comm]

/-- A second source of form 1 or VEX uses no extension bit exactly if X and B are 0. -/
theorem Rm4.lowRegs_eq (r : Rm4) : r.lowRegs = (!r.xBit && !r.bBit) := by
  cases r with
  | reg x n => simp [Rm4.lowRegs, Rm4.xBit, Rm4.bBit, ult_8_iff4, ext3]
  | mem a => exact a.lowRegs_eq

theorem Rm5.lowRegs_eq (r : Rm5) : r.lowRegs = (!r.xBit && !r.bBit) := by
  cases r with
  | reg n => simp [Rm5.lowRegs, Rm5.xBit, Rm5.bBit, ult_8_iff5, Bool.and_comm]
  | mem _ a => exact a.lowRegs_eq

theorem LegacyOps.lowRegs_iff (o : LegacyOps) :
    o.lowRegs = true ↔ ext3 o.d = false ∧ o.src.xBit = false ∧ o.src.bBit = false := by
  simp [LegacyOps.lowRegs, ult_8_iff4, Rm4.lowRegs_eq, ext3]

/-! ## Prefixes -/

/-- Without LOCK, F2h and F3h the prefixes scanned are admitted ones. -/
theorem exists_eq_map_admitted (ps : List RawPrefix) (hlock : hasLock ps = false) (hrep : hasRep ps = false) :
    ∃ qs : List Prefix, ps = qs.map RawPrefix.admitted := by
  induction ps with
  | nil => exact ⟨[], rfl⟩
  | cons p ps ih =>
    cases p with
    | admitted p =>
      obtain ⟨qs, hqs⟩ := ih (by simpa [hasLock] using hlock) (by simpa [hasRep] using hrep)
      exact ⟨p :: qs, by rw [hqs, List.map_cons]⟩
    | lock => simp [hasLock] at hlock
    | repne | rep => simp [hasRep] at hrep

theorem admitted_map_admitted (qs : List Prefix) : admitted (qs.map RawPrefix.admitted) = qs := by
  induction qs with
  | nil => rfl
  | cons q qs ih => simp [admitted, ih]

theorem hasLock_map_admitted (qs : List Prefix) : hasLock (qs.map RawPrefix.admitted) = false := by simp [hasLock]

theorem hasRep_map_admitted (qs : List Prefix) : hasRep (qs.map RawPrefix.admitted) = false := by simp [hasRep]

theorem hasOpSize_map_admitted (qs : List Prefix) : hasOpSize (qs.map RawPrefix.admitted) = qs.contains .opSize := by
  rw [Bool.eq_iff_iff]; simp [hasOpSize]

theorem addr16_eq_not_addrSizeOk (m : Mode) (qs : List Prefix) :
    addr16 m (qs.map RawPrefix.admitted) = !addrSizeOk m qs := by
  rw [Bool.eq_iff_iff]; simp [addr16, addrSizeOk]

theorem rawPrefix_admitted (p : Prefix) (b : Byte) : rawPrefix b = some (.admitted p) ↔ b = p.byte := by
  cases p with
  | seg sg => cases sg <;> revert b <;> decide +kernel
  | addrSize => exact rawPrefix_addrSize b
  | opSize => exact rawPrefix_opSize b

/-- What may stand before VEX and EVEX is admitted prefixes without 66h, and no REX byte (R99, R103). -/
theorem of_badBeforeVex_eq_false (ps : List RawPrefix) (rex : Option Byte) (h : badBeforeVex ps rex = false) :
    rex = none ∧ ∃ qs : List Prefix, ps = qs.map RawPrefix.admitted ∧ Prefix.opSize ∉ qs := by
  simp only [badBeforeVex, Bool.or_eq_false_iff] at h
  obtain ⟨⟨⟨hlock, hrep⟩, hop⟩, hrex⟩ := h
  obtain ⟨qs, rfl⟩ := exists_eq_map_admitted ps hlock hrep
  exact ⟨by simpa using hrex, qs, rfl, by simpa [hasOpSize_map_admitted] using hop⟩

/-- Admitted prefixes are written as they were scanned. -/
theorem eq_map_byte_append_of_scanPrefixes (bytes : List Byte) (qs : List Prefix)
    (h : (scanPrefixes bytes).1 = qs.map RawPrefix.admitted) :
    bytes = qs.map Prefix.byte ++ (scanPrefixes bytes).2 := by
  induction bytes generalizing qs with
  | nil => cases qs <;> simp_all [scanPrefixes]
  | cons b bs ih =>
    cases hb : rawPrefix b with
    | none => cases qs <;> simp_all [scanPrefixes]
    | some p =>
      simp only [scanPrefixes, hb] at h ⊢
      cases qs with
      | nil => cases h
      | cons q qs =>
        injection h with hp hqs
        subst hp
        rw [List.map_cons, List.cons_append, ← ih qs hqs, ← (rawPrefix_admitted q b).1 hb]

/-! ## The verdict -/

theorem verdict_eq_ok (m : Mode) (len : Nat) (ud : Bool) (i j : Instr) :
    verdict m len ud i = .ok j ↔ len ≤ 15 ∧ ud = false ∧ (m = .m64 ∨ i.lowRegs = true) ∧ i = j := by
  unfold verdict
  split_ifs with hlen hud hlow
  · simp; omega
  · simp [hud]
  · simp_all
  · by_cases hm : m = .m64 <;> simp_all

end Sys2Proof
end

section
/-! SUPPORT. VEX encodings, read and written: the bytes V1 and V2, and both directions of the round trip. -/

namespace Sys2Proof

/-! ## VEX (`30_encoding.md` R96 to R99) -/

/-- The row of VEX.L = `l`. -/
def vexRow (l : Bool) (o : VexOps) : Instr := if l then .vpmaxudVex256 o else .vpmaxudVex128 o

theorem vexRow_facts (l : Bool) (o : VexOps) :
    encode (vexRow l o) = o.encode l ∧ (vexRow l o).ilen = o.len ∧ (vexRow l o).lowRegs = o.lowRegs
      ∧ ∀ m, (vexRow l o).operandsOk m = o.wf m := by
  cases l <;> exact ⟨rfl, rfl, rfl, fun _ => rfl⟩

theorem VexOps.wf_iff (m : Mode) (o : VexOps) :
    o.wf m = true ↔ Prefix.opSize ∉ o.prefixes ∧ addrSizeOk m o.prefixes = true ∧ o.src.wf = true
      ∧ (m = .m64 ∨ o.lowRegs = true) := by
  simp [VexOps.wf, and_assoc]

theorem VexOps.v1_fields (o : VexOps) :
    bitAt o.v1 7 = (!ext3 o.d) ∧ bitAt o.v1 6 = (!o.src.xBit) ∧ bitAt o.v1 5 = (!o.src.bBit)
      ∧ o.v1.extractLsb' 0 5 = 2#5 := by
  have h : ∀ r x b : Bool, let v : Byte := BitVec.ofBool r ++ BitVec.ofBool x ++ BitVec.ofBool b ++ 2#5
      bitAt v 7 = r ∧ bitAt v 6 = x ∧ bitAt v 5 = b ∧ v.extractLsb' 0 5 = 2#5 := by decide
  exact h _ _ _

theorem VexOps.v2_fields (l : Bool) (o : VexOps) :
    bitAt (o.v2 l) 7 = o.w ∧ (o.v2 l).extractLsb' 3 4 = ~~~o.s1 ∧ bitAt (o.v2 l) 2 = l
      ∧ (o.v2 l).extractLsb' 0 2 = 1#2 := by
  have h : ∀ (w l : Bool) (n : BitVec 4), let v : Byte := BitVec.ofBool w ++ n ++ BitVec.ofBool l ++ 1#2
      bitAt v 7 = w ∧ v.extractLsb' 3 4 = n ∧ bitAt v 2 = l ∧ v.extractLsb' 0 2 = 1#2 := by decide
  exact h _ _ _

/-- V1 has R and X both 1 when the form uses no extension bit, as outside M64 (R99). -/
theorem VexOps.v1_of_lowRegs (o : VexOps) (h : o.lowRegs = true) : o.v1.extractLsb' 6 2 = 3#2 := by
  simp only [VexOps.lowRegs, Bool.and_eq_true, ult_8_iff4, Rm4.lowRegs_eq, Bool.not_eq_true'] at h
  obtain ⟨⟨hd, -⟩, hx, hb⟩ := h
  rw [VexOps.v1, ext3, hd, hx, hb]
  rfl

/-- The operands of a VEX form are read from the bytes they are written in. -/
theorem vexOps_encode (l : Bool) (o : VexOps) :
    vexOps (o.prefixes.map RawPrefix.admitted) o.v1 (o.v2 l) (low3 o.d) o.src.field = o := by
  obtain ⟨hr, hx, hb, -⟩ := o.v1_fields
  obtain ⟨hw, hv, -, -⟩ := o.v2_fields l
  simp [vexOps, hr, hx, hb, hw, hv, admitted_map_admitted]

theorem decode_encode_vex (m : Mode) (hm : m.covered = true) (l : Bool) (o : VexOps) (hwf : o.wf m = true)
    (hlen : o.len ≤ 15) (rest : List Byte) : decode m (o.encode l ++ rest) = .ok (vexRow l o) := by
  obtain ⟨hop, haddr, hsrc, hlow⟩ := (o.wf_iff m).1 hwf
  obtain ⟨-, hx, hb, hmap⟩ := o.v1_fields
  obtain ⟨-, -, hl, hpp⟩ := o.v2_fields l
  have hmodrm := o.src.decodeModRM_bytes (low3 o.d) hsrc rest
  rw [← Bool.not_not o.src.xBit, ← Bool.not_not o.src.bBit, ← hx, ← hb] at hmodrm
  simp only [VexOps.encode, List.append_assoc, List.cons_append, List.nil_append]
  rw [decode_prefixes m _ _ _ hm (isSome_rawPrefix_map_byte _) (by decide) (by decide), filterMap_rawPrefix_map_byte,
    decodeFormat_vex _ _ _ _ _ _ _ (hlow.imp_right o.v1_of_lowRegs),
    decodeVex_eq_verdict _ _ _ _ _ _ _ _ _ (by simp [addr16_eq_not_addrSizeOk, haddr]) hmap hpp hmodrm,
    vexOps_encode, hl, badBeforeVex_map_admitted _ hop, verdict_eq_ok]
  obtain ⟨-, -, hlows, -⟩ := vexRow_facts l o
  exact ⟨by simpa [VexOps.len] using hlen, rfl, hlow.imp_right hlows.trans, rfl⟩

theorem decodeVex_ok_inv (m : Mode) (ps : List RawPrefix) (rex : Option Byte) (v1 v2 op : Byte) (bs : List Byte)
    (i : Instr) (h : decodeVex m ps rex v1 v2 op bs = .ok i) :
    op = 0x3F ∧ v1.extractLsb' 0 5 = 2#5 ∧ v2.extractLsb' 0 2 = 1#2 ∧ addr16 m ps = false
      ∧ ∃ reg rm tail, decodeModRM (!bitAt v1 6) (!bitAt v1 5) bs = some (reg, rm, tail) := by
  simp only [decodeVex] at h
  split at h
  · cases h
  · split at h
    · cases h
    · split at h
      · cases h
      · rename_i hbytes ha _ reg rm tail hmodrm
        simp only [ne_eq, not_or, not_not] at hbytes
        obtain ⟨hop, h1, h2⟩ := hbytes
        exact ⟨hop, h1, h2, by simpa using ha, reg, rm, tail, hmodrm⟩

/-- V1 and V2 are written as they were read. -/
theorem vexOps_bytes (ps : List RawPrefix) (v1 v2 : Byte) (reg : BitVec 3) (rm : RmField)
    (h1 : v1.extractLsb' 0 5 = 2#5) (h2 : v2.extractLsb' 0 2 = 1#2) (hrm : rm.fits (!bitAt v1 6) (!bitAt v1 5)) :
    (vexOps ps v1 v2 reg rm).v1 = v1 ∧ (vexOps ps v1 v2 reg rm).v2 (bitAt v2 2) = v2 := by
  obtain ⟨-, hx, hb, -⟩ := rm.toRm4_of_fits _ _ hrm
  have hv1 : ∀ v : Byte, v.extractLsb' 0 5 = 2#5 →
      BitVec.ofBool (bitAt v 7) ++ BitVec.ofBool (bitAt v 6) ++ BitVec.ofBool (bitAt v 5) ++ 2#5 = v := by decide +kernel
  have hv2 : ∀ v : Byte, v.extractLsb' 0 2 = 1#2 →
      BitVec.ofBool (bitAt v 7) ++ v.extractLsb' 3 4 ++ BitVec.ofBool (bitAt v 2) ++ 1#2 = v := by decide +kernel
  constructor
  · simpa only [VexOps.v1, vexOps, ext3_extend, hx, hb, Bool.not_not] using hv1 v1 h1
  · simpa only [VexOps.v2, vexOps, BitVec.not_not] using hv2 v2 h2

theorem encode_of_decodeVex (m : Mode) (ps : List RawPrefix) (rex : Option Byte) (v1 v2 op : Byte) (bs : List Byte)
    (i : Instr) (h : decodeVex m ps rex v1 v2 op bs = .ok i) :
    i.operandsOk m = true ∧ i.ilen ≤ 15 ∧ rex = none ∧ ∃ (qs : List Prefix) (tail : List Byte),
      ps = qs.map RawPrefix.admitted ∧ encode i ++ tail = qs.map Prefix.byte ++ 0xC4 :: v1 :: v2 :: op :: bs := by
  obtain ⟨rfl, h1, h2, ha, reg, rm, tail, hmodrm⟩ := decodeVex_ok_inv m ps rex v1 v2 op bs i h
  rw [decodeVex_eq_verdict m ps rex v1 v2 bs reg rm tail ha h1 h2 hmodrm, verdict_eq_ok] at h
  obtain ⟨hlen, hbad, hlow, rfl⟩ := h
  obtain ⟨rfl, qs, rfl, hop⟩ := of_badBeforeVex_eq_false ps rex hbad
  obtain ⟨hrm, rfl⟩ := bytes_of_decodeModRM _ _ _ _ _ _ hmodrm
  obtain ⟨hv1, hv2⟩ := vexOps_bytes (qs.map RawPrefix.admitted) v1 v2 reg rm h1 h2 hrm
  obtain ⟨hsrc, -, -, hbytes⟩ := rm.toRm4_of_fits _ _ hrm
  obtain ⟨henc, hilen, hlows, hok⟩ := vexRow_facts (bitAt v2 2) (vexOps (qs.map RawPrefix.admitted) v1 v2 reg rm)
  simp only [vexRow] at henc hilen hlows hok
  refine ⟨?_, ?_, rfl, qs, tail, rfl, ?_⟩
  · rw [hlows] at hlow
    rw [addr16_eq_not_addrSizeOk, Bool.not_eq_false'] at ha
    rw [hok, VexOps.wf_iff]
    refine ⟨?_, ?_, hsrc, hlow⟩ <;> simpa [vexOps, admitted_map_admitted]
  · rw [hilen]
    simpa [VexOps.len, vexOps, admitted_map_admitted] using hlen
  · rw [henc, VexOps.encode, hv1, hv2]
    simp [vexOps, admitted_map_admitted, hbytes]

end Sys2Proof
end

section
/-! SUPPORT. EVEX encodings, read and written: the bytes P0, P1 and P2, and both directions of the round trip. -/

namespace Sys2Proof

/-! ## EVEX (`30_encoding.md` R100 to R104) -/

theorem evexRow_facts (w : Bool) (ll : BitVec 2) (o : EvexOps) (i : Instr) (h : evexRow w ll o = some i) :
    encode i = o.encode w ll ∧ i.ilen = o.len ∧ i.lowRegs = o.lowRegs ∧ ∀ m, i.operandsOk m = o.wf m := by
  have hll : ll = 0#2 ∨ ll = 1#2 ∨ ll = 2#2 ∨ ll = 3#2 := by clear h; revert ll; decide
  rcases hll with rfl | rfl | rfl | rfl <;> cases w <;> cases h <;> exact ⟨rfl, rfl, rfl, fun _ => rfl⟩

theorem EvexOps.wf_iff (m : Mode) (o : EvexOps) :
    o.wf m = true ↔ Prefix.opSize ∉ o.prefixes ∧ addrSizeOk m o.prefixes = true ∧ o.src.wf = true
      ∧ (o.z && o.aaa == 0#3) = false ∧ (m = .m64 ∨ o.lowRegs = true) := by
  cases h : o.z <;> simp [EvexOps.wf, h, and_assoc]

theorem EvexOps.p0_fields (o : EvexOps) :
    bitAt o.p0 7 = (!o.d.getLsbD 3) ∧ bitAt o.p0 6 = (!o.src.xBit) ∧ bitAt o.p0 5 = (!o.src.bBit)
      ∧ bitAt o.p0 4 = (!o.d.getLsbD 4) ∧ o.p0.extractLsb' 2 2 = 0#2 ∧ o.p0.extractLsb' 0 2 = 2#2 := by
  have h : ∀ r x b r' : Bool,
      let p : Byte := BitVec.ofBool r ++ BitVec.ofBool x ++ BitVec.ofBool b ++ BitVec.ofBool r' ++ 0#2 ++ 2#2
      bitAt p 7 = r ∧ bitAt p 6 = x ∧ bitAt p 5 = b ∧ bitAt p 4 = r' ∧ p.extractLsb' 2 2 = 0#2
        ∧ p.extractLsb' 0 2 = 2#2 := by decide
  exact h _ _ _ _

theorem EvexOps.p1_fields (w : Bool) (o : EvexOps) :
    bitAt (o.p1 w) 7 = w ∧ (o.p1 w).extractLsb' 3 4 = ~~~(o.s1.extractLsb' 0 4) ∧ bitAt (o.p1 w) 2 = true
      ∧ (o.p1 w).extractLsb' 0 2 = 1#2 := by
  have h : ∀ (w : Bool) (n : BitVec 4), let p : Byte := BitVec.ofBool w ++ n ++ 1#1 ++ 1#2
      bitAt p 7 = w ∧ p.extractLsb' 3 4 = n ∧ bitAt p 2 = true ∧ p.extractLsb' 0 2 = 1#2 := by decide
  exact h _ _

theorem EvexOps.p2_fields (ll : BitVec 2) (o : EvexOps) :
    bitAt (o.p2 ll) 7 = o.z ∧ (o.p2 ll).extractLsb' 5 2 = ll ∧ bitAt (o.p2 ll) 4 = o.src.bcst
      ∧ bitAt (o.p2 ll) 3 = (!o.s1.getLsbD 4) ∧ (o.p2 ll).extractLsb' 0 3 = o.aaa := by
  have h : ∀ (z b v : Bool) (ll : BitVec 2) (a : BitVec 3),
      let p : Byte := BitVec.ofBool z ++ ll ++ BitVec.ofBool b ++ BitVec.ofBool v ++ a
      bitAt p 7 = z ∧ p.extractLsb' 5 2 = ll ∧ bitAt p 4 = b ∧ bitAt p 3 = v ∧ p.extractLsb' 0 3 = a := by decide +kernel
  exact h _ _ _ _ _

/-- P0 has R and X both 1 when the form uses no extension bit, as outside M64 (R103). -/
theorem EvexOps.p0_of_lowRegs (o : EvexOps) (h : o.lowRegs = true) : o.p0.extractLsb' 6 2 = 3#2 := by
  simp only [EvexOps.lowRegs, Bool.and_eq_true, ult_8_iff5, Rm5.lowRegs_eq, Bool.not_eq_true'] at h
  obtain ⟨⟨⟨hd, hd'⟩, -⟩, hx, hb⟩ := h
  rw [EvexOps.p0, hd, hd', hx, hb]
  rfl

/-- The operands of an EVEX form are read from the bytes they are written in. -/
theorem evexOps_encode (w : Bool) (ll : BitVec 2) (o : EvexOps) :
    evexOps (o.prefixes.map RawPrefix.admitted) o.p0 (o.p1 w) (o.p2 ll) (o.d.extractLsb' 0 3) o.src.field = o := by
  obtain ⟨hr, hx, hb, hr', -, -⟩ := o.p0_fields
  obtain ⟨-, hv, -, -⟩ := o.p1_fields w
  obtain ⟨hz, -, hbcst, hv', haaa⟩ := o.p2_fields ll
  have hd : ∀ d : BitVec 5, (BitVec.ofBool (d.getLsbD 4) ++ extend (d.getLsbD 3) (d.extractLsb' 0 3) : BitVec 5) = d := by
    decide
  have hs : ∀ n : BitVec 5, (BitVec.ofBool (n.getLsbD 4) ++ n.extractLsb' 0 4 : BitVec 5) = n := by decide
  simp only [evexOps, hr, hx, hb, hr', hv, hz, hbcst, hv', haaa, admitted_map_admitted, Bool.not_not, BitVec.not_not,
    Rm5.toRm5_field, hd, hs]

/-- What the encoder writes has none of the reserved settings of R111. -/
theorem evexReserved_encode (w : Bool) (ll : BitVec 2) (o : EvexOps) (h : (o.z && o.aaa == 0#3) = false) :
    evexReserved o.p0 (o.p1 w) (o.p2 ll) o.src.field = false := by
  obtain ⟨-, -, -, -, h0, -⟩ := o.p0_fields
  obtain ⟨-, -, h1, -⟩ := o.p1_fields w
  obtain ⟨hz, -, hbcst, -, haaa⟩ := o.p2_fields ll
  have hreg : (o.src.bcst && o.src.field.isReg) = false := by
    cases o.src with
    | reg n => rfl
    | mem b a => exact Bool.and_false b
  simp [evexReserved, h0, h1, hz, haaa, hbcst, h, hreg]

theorem decode_encode_evex (m : Mode) (hm : m.covered = true) (w : Bool) (ll : BitVec 2) (o : EvexOps) (i : Instr)
    (hi : evexRow w ll o = some i) (hwf : o.wf m = true) (hlen : o.len ≤ 15) (rest : List Byte) :
    decode m (o.encode w ll ++ rest) = .ok i := by
  obtain ⟨hop, haddr, hsrc, hz, hlow⟩ := (o.wf_iff m).1 hwf
  obtain ⟨-, hx, hb, -, -, hmap⟩ := o.p0_fields
  obtain ⟨hw, -, -, hpp⟩ := o.p1_fields w
  obtain ⟨-, hll, -⟩ := o.p2_fields ll
  have hmodrm := o.src.decodeModRM_bytes (o.d.extractLsb' 0 3) hsrc rest
  rw [← Bool.not_not o.src.xBit, ← Bool.not_not o.src.bBit, ← hx, ← hb] at hmodrm
  simp only [EvexOps.encode, List.append_assoc, List.cons_append, List.nil_append]
  rw [decode_prefixes m _ _ _ hm (isSome_rawPrefix_map_byte _) (by decide) (by decide), filterMap_rawPrefix_map_byte,
    decodeFormat_evex _ _ _ _ _ _ _ _ (hlow.imp_right o.p0_of_lowRegs),
    decodeEvex_eq_verdict _ _ _ _ _ _ _ _ _ _ i (by simp [addr16_eq_not_addrSizeOk, haddr]) hmap hpp hmodrm
      (by rw [evexOps_encode, hw, hll, hi]),
    badBeforeVex_map_admitted _ hop, evexReserved_encode w ll o hz, verdict_eq_ok]
  obtain ⟨-, -, hlows, -⟩ := evexRow_facts w ll o i hi
  exact ⟨by simpa [EvexOps.len] using hlen, rfl, hlow.imp_right hlows.trans, rfl⟩

theorem decodeEvex_ok_inv (m : Mode) (ps : List RawPrefix) (rex : Option Byte) (p0 p1 p2 op : Byte) (bs : List Byte)
    (i : Instr) (h : decodeEvex m ps rex p0 p1 p2 op bs = .ok i) :
    op = 0x3F ∧ p0.extractLsb' 0 2 = 2#2 ∧ p1.extractLsb' 0 2 = 1#2 ∧ addr16 m ps = false
      ∧ ∃ reg rm tail j, decodeModRM (!bitAt p0 6) (!bitAt p0 5) bs = some (reg, rm, tail)
        ∧ evexRow (bitAt p1 7) (p2.extractLsb' 5 2) (evexOps ps p0 p1 p2 reg rm) = some j := by
  simp only [decodeEvex] at h
  split at h
  · cases h
  · split at h
    · cases h
    · split at h
      · cases h
      · split at h
        · rename_i hbytes ha _ reg rm tail hmodrm _ j hrow
          simp only [ne_eq, not_or, not_not] at hbytes
          obtain ⟨hop, h0, h1⟩ := hbytes
          exact ⟨hop, h0, h1, by simpa using ha, reg, rm, tail, j, hmodrm, hrow⟩
        · split_ifs at h

/-- Without a reserved setting of R111, its bits and operands are ones the encoder writes. -/
theorem of_evexReserved_eq_false (p0 p1 p2 : Byte) (rm : RmField) (h : evexReserved p0 p1 p2 rm = false) :
    p0.extractLsb' 2 2 = 0#2 ∧ bitAt p1 2 = true ∧ (bitAt p2 7 && p2.extractLsb' 0 3 == 0#3) = false
      ∧ (bitAt p2 4 && rm.isReg) = false := by
  simp only [evexReserved, Bool.or_eq_false_iff] at h
  obtain ⟨⟨⟨h0, h1⟩, hz⟩, hb⟩ := h
  exact ⟨by simpa using h0, by simpa using h1, hz, hb⟩

/-- P0, P1 and P2 are written as they were read. -/
theorem evexOps_bytes (ps : List RawPrefix) (p0 p1 p2 : Byte) (reg : BitVec 3) (rm : RmField)
    (h0 : p0.extractLsb' 0 2 = 2#2) (h1 : p1.extractLsb' 0 2 = 1#2) (hres : evexReserved p0 p1 p2 rm = false)
    (hrm : rm.fits (!bitAt p0 6) (!bitAt p0 5)) :
    (evexOps ps p0 p1 p2 reg rm).p0 = p0 ∧ (evexOps ps p0 p1 p2 reg rm).p1 (bitAt p1 7) = p1
      ∧ (evexOps ps p0 p1 p2 reg rm).p2 (p2.extractLsb' 5 2) = p2
      ∧ (evexOps ps p0 p1 p2 reg rm).d.extractLsb' 0 3 = reg := by
  obtain ⟨h00, h11, -, hb⟩ := of_evexReserved_eq_false p0 p1 p2 rm hres
  obtain ⟨-, hx, hb, hbcst, -⟩ := rm.toRm5_of_fits _ _ _ hrm hb
  have hd : ∀ (r' r : Bool) (n : BitVec 3), let d : BitVec 5 := BitVec.ofBool r' ++ extend r n
      d.getLsbD 3 = r ∧ d.getLsbD 4 = r' ∧ d.extractLsb' 0 3 = n := by decide
  have hs : ∀ (v : Bool) (n : BitVec 4), let s : BitVec 5 := BitVec.ofBool v ++ n
      s.getLsbD 4 = v ∧ s.extractLsb' 0 4 = n := by decide
  have hp0 : ∀ p : Byte, p.extractLsb' 0 2 = 2#2 → p.extractLsb' 2 2 = 0#2 →
      BitVec.ofBool (bitAt p 7) ++ BitVec.ofBool (bitAt p 6) ++ BitVec.ofBool (bitAt p 5) ++ BitVec.ofBool (bitAt p 4)
        ++ 0#2 ++ 2#2 = p := by decide +kernel
  have hp1 : ∀ p : Byte, p.extractLsb' 0 2 = 1#2 → bitAt p 2 = true →
      BitVec.ofBool (bitAt p 7) ++ p.extractLsb' 3 4 ++ 1#1 ++ 1#2 = p := by decide +kernel
  have hp2 : ∀ p : Byte, BitVec.ofBool (bitAt p 7) ++ p.extractLsb' 5 2 ++ BitVec.ofBool (bitAt p 4)
      ++ BitVec.ofBool (bitAt p 3) ++ p.extractLsb' 0 3 = p := by decide +kernel
  obtain ⟨hd3, hd4, hd0⟩ := hd (!bitAt p0 4) (!bitAt p0 7) reg
  obtain ⟨hs4, hs0⟩ := hs (!bitAt p2 3) (~~~(p1.extractLsb' 3 4))
  refine ⟨?_, ?_, ?_, hd0⟩
  · simpa only [EvexOps.p0, evexOps, hd3, hd4, hx, hb, Bool.not_not] using hp0 p0 h0 h00
  · simpa only [EvexOps.p1, evexOps, hs0, BitVec.not_not] using hp1 p1 h1 h11
  · simpa only [EvexOps.p2, evexOps, hs4, hbcst, Bool.not_not] using hp2 p2

theorem encode_of_decodeEvex (m : Mode) (ps : List RawPrefix) (rex : Option Byte) (p0 p1 p2 op : Byte) (bs : List Byte)
    (i : Instr) (h : decodeEvex m ps rex p0 p1 p2 op bs = .ok i) :
    i.operandsOk m = true ∧ i.ilen ≤ 15 ∧ rex = none ∧ ∃ (qs : List Prefix) (tail : List Byte),
      ps = qs.map RawPrefix.admitted ∧ encode i ++ tail = qs.map Prefix.byte ++ 0x62 :: p0 :: p1 :: p2 :: op :: bs := by
  obtain ⟨rfl, h0, h1, ha, reg, rm, tail, j, hmodrm, hrow⟩ := decodeEvex_ok_inv m ps rex p0 p1 p2 op bs i h
  rw [decodeEvex_eq_verdict m ps rex p0 p1 p2 bs reg rm tail j ha h0 h1 hmodrm hrow, verdict_eq_ok,
    Bool.or_eq_false_iff] at h
  obtain ⟨hlen, ⟨hbad, hres⟩, hlow, rfl⟩ := h
  obtain ⟨rfl, qs, rfl, hop⟩ := of_badBeforeVex_eq_false ps rex hbad
  obtain ⟨hrm, rfl⟩ := bytes_of_decodeModRM _ _ _ _ _ _ hmodrm
  obtain ⟨-, -, hz, hb⟩ := of_evexReserved_eq_false p0 p1 p2 rm hres
  obtain ⟨hp0, hp1, hp2, hd⟩ := evexOps_bytes (qs.map RawPrefix.admitted) p0 p1 p2 reg rm h0 h1 hres hrm
  obtain ⟨hsrc, -, -, -, hbytes⟩ := rm.toRm5_of_fits _ _ _ hrm hb
  obtain ⟨henc, hilen, hlows, hok⟩ := evexRow_facts _ _ _ j hrow
  refine ⟨?_, ?_, rfl, qs, tail, rfl, ?_⟩
  · rw [hlows] at hlow
    rw [addr16_eq_not_addrSizeOk, Bool.not_eq_false'] at ha
    rw [hok, EvexOps.wf_iff]
    refine ⟨?_, ?_, hsrc, hz, hlow⟩ <;> simpa [evexOps, admitted_map_admitted]
  · rw [hilen]
    simpa [EvexOps.len, evexOps, admitted_map_admitted] using hlen
  · rw [henc, EvexOps.encode, hp0, hp1, hp2, hd]
    simp [evexOps, admitted_map_admitted, hbytes]

end Sys2Proof
end

section
/-! SUPPORT. Form 1, read and written; then the statements of the encoding family on the round trip. -/

namespace Sys2Proof

/-! ## Form 1 (`30_encoding.md` R91 to R93) -/

/-- The row of form 1 with the REX byte `rex` or without one. -/
def legacyRow (rex : Option Byte) (o : LegacyOps) : Instr :=
  if rex.isSome then .pmaxudRex (bitAt (rex.getD 0) 3) o else .pmaxud o

theorem legacyRow_facts (rex : Option Byte) (o : LegacyOps) :
    (legacyRow rex o).ilen = o.len rex.isSome ∧ (legacyRow rex o).lowRegs = o.lowRegs := by
  cases rex <;> exact ⟨rfl, rfl⟩

theorem LegacyOps.wf_iff (m : Mode) (o : LegacyOps) :
    o.wf m = true ↔ Prefix.opSize ∈ o.prefixes ∧ addrSizeOk m o.prefixes = true ∧ o.src.wf = true := by
  simp [LegacyOps.wf, and_assoc]

/-- The operands in the bytes of form 1 with the REX byte `r`, 0 where there is none (R93). -/
def legacyOps (ps : List RawPrefix) (r : Byte) (reg : BitVec 3) (rm : RmField) : LegacyOps :=
  ⟨admitted ps, extend (bitAt r 2) reg, rm.toRm4 (bitAt r 1) (bitAt r 0)⟩

theorem decodeLegacy_eq_verdict (m : Mode) (ps : List RawPrefix) (rex : Option Byte) (bs : List Byte) (reg : BitVec 3)
    (rm : RmField) (tail : List Byte) (hop : hasOpSize ps = true) (hrep : hasRep ps = false) (ha : addr16 m ps = false)
    (hmodrm : decodeModRM (bitAt (rex.getD 0) 1) (bitAt (rex.getD 0) 0) bs = some (reg, rm, tail)) :
    decodeLegacy m ps rex bs
      = verdict m (ps.length + (if rex.isSome then 1 else 0) + 3 + 1 + rm.len) (hasLock ps)
          (legacyRow rex (legacyOps ps (rex.getD 0) reg rm)) := by
  simp only [decodeLegacy, hop, hrep, ha, hmodrm, legacyOps, legacyRow, RmField.len_toRm4, Bool.not_true,
    Bool.false_eq_true, if_false]

theorem rexByte_fields (w r x b : Bool) :
    bitAt (rexByte w r x b) 3 = w ∧ bitAt (rexByte w r x b) 2 = r ∧ bitAt (rexByte w r x b) 1 = x
      ∧ bitAt (rexByte w r x b) 0 = b ∧ isRex (rexByte w r x b) = true := by
  revert w r x b; decide

/-- A REX byte is written as it was read. -/
theorem rexByte_of_isRex (c : Byte) (h : isRex c = true) :
    rexByte (bitAt c 3) (bitAt c 2) (bitAt c 1) (bitAt c 0) = c := by
  revert c; decide +kernel

/-- The operands of form 1 are read from the bytes they are written in, beside a REX byte with their extension bits. -/
theorem legacyOps_encode (o : LegacyOps) (r : Byte) (hr : bitAt r 2 = ext3 o.d) (hx : bitAt r 1 = o.src.xBit)
    (hb : bitAt r 0 = o.src.bBit) : legacyOps (o.prefixes.map RawPrefix.admitted) r (low3 o.d) o.src.field = o := by
  simp [legacyOps, hr, hx, hb, admitted_map_admitted]

theorem decodeLegacy_encode (m : Mode) (rex : Option Byte) (o : LegacyOps) (rest : List Byte) (hwf : o.wf m = true)
    (hlen : o.len rex.isSome ≤ 15) (hlow : m = .m64 ∨ o.lowRegs = true) (hr : bitAt (rex.getD 0) 2 = ext3 o.d)
    (hx : bitAt (rex.getD 0) 1 = o.src.xBit) (hb : bitAt (rex.getD 0) 0 = o.src.bBit) :
    decodeLegacy m (o.prefixes.map RawPrefix.admitted) rex (o.src.bytes (low3 o.d) ++ rest) = .ok (legacyRow rex o) := by
  obtain ⟨hop, haddr, hsrc⟩ := (o.wf_iff m).1 hwf
  have hmodrm := o.src.decodeModRM_bytes (low3 o.d) hsrc rest
  rw [← hx, ← hb] at hmodrm
  rw [decodeLegacy_eq_verdict _ _ _ _ _ _ _ (by simp [hasOpSize_map_admitted, hop]) (hasRep_map_admitted _)
    (by simp [addr16_eq_not_addrSizeOk, haddr]) hmodrm, legacyOps_encode o _ hr hx hb, hasLock_map_admitted, verdict_eq_ok]
  exact ⟨by simpa [LegacyOps.len] using hlen, rfl, hlow.imp_right (legacyRow_facts rex o).2.trans, rfl⟩

theorem decode_encode_pmaxud (m : Mode) (hm : m.covered = true) (o : LegacyOps) (hwf : o.wf m = true)
    (hlow : o.lowRegs = true) (hlen : o.len false ≤ 15) (rest : List Byte) :
    decode m (o.encode [] ++ rest) = .ok (.pmaxud o) := by
  obtain ⟨hr, hx, hb⟩ := o.lowRegs_iff.1 hlow
  simp only [LegacyOps.encode, List.append_assoc, List.cons_append, List.nil_append]
  rw [decode_prefixes m _ _ _ hm (isSome_rawPrefix_map_byte _) (by decide) (by decide), filterMap_rawPrefix_map_byte,
    decodeFormat_legacy]
  exact decodeLegacy_encode m none o rest hwf hlen (.inr hlow) hr.symm hx.symm hb.symm

theorem decode_encode_pmaxudRex (w : Bool) (o : LegacyOps) (hwf : o.wf .m64 = true) (hlen : o.len true ≤ 15)
    (rest : List Byte) :
    decode .m64 (o.encode [rexByte w (ext3 o.d) o.src.xBit o.src.bBit] ++ rest) = .ok (.pmaxudRex w o) := by
  obtain ⟨hw, hr, hx, hb, hrex⟩ := rexByte_fields w (ext3 o.d) o.src.xBit o.src.bBit
  simp only [LegacyOps.encode, List.append_assoc, List.cons_append, List.nil_append]
  rw [decode_prefixes_rex _ _ _ _ (isSome_rawPrefix_map_byte _) hrex, if_neg (by decide), filterMap_rawPrefix_map_byte,
    decodeFormat_legacy,
    decodeLegacy_encode .m64 (some (rexByte w (ext3 o.d) o.src.xBit o.src.bBit)) o rest hwf hlen (.inl rfl) hr hx hb]
  simp only [legacyRow, Option.isSome_some, if_true, Option.getD_some, hw]

theorem decodeLegacy_ok_inv (m : Mode) (ps : List RawPrefix) (rex : Option Byte) (bs : List Byte) (i : Instr)
    (h : decodeLegacy m ps rex bs = .ok i) :
    hasOpSize ps = true ∧ hasRep ps = false ∧ addr16 m ps = false
      ∧ ∃ reg rm tail, decodeModRM (bitAt (rex.getD 0) 1) (bitAt (rex.getD 0) 0) bs = some (reg, rm, tail) := by
  simp only [decodeLegacy] at h
  split at h
  · cases h
  · split at h
    · cases h
    · split at h
      · cases h
      · split at h
        · cases h
        · rename_i hop hrep ha _ reg rm tail hmodrm
          exact ⟨by simpa using hop, by simpa using hrep, by simpa using ha, reg, rm, tail, hmodrm⟩

/-- Form 1 as it was read is written with the same REX byte, or without one. -/
theorem legacyRow_encode (m : Mode) (rex : Option Byte) (hrex : ∀ r, rex = some r → m = .m64 ∧ isRex r = true)
    (o : LegacyOps) (hwf : o.wf m = true) (hr : ext3 o.d = bitAt (rex.getD 0) 2) (hx : o.src.xBit = bitAt (rex.getD 0) 1)
    (hb : o.src.bBit = bitAt (rex.getD 0) 0) :
    (legacyRow rex o).operandsOk m = true ∧ encode (legacyRow rex o) = o.encode rex.toList := by
  cases rex with
  | none =>
    have hlow : o.lowRegs = true := o.lowRegs_iff.2 ⟨hr, hx, hb⟩
    exact ⟨by simp [legacyRow, Instr.operandsOk, hwf, hlow], rfl⟩
  | some r =>
    obtain ⟨rfl, hr'⟩ := hrex r rfl
    rw [Option.getD_some] at hr hx hb
    exact ⟨by simp [legacyRow, Instr.operandsOk, hwf], by simp [legacyRow, encode, hr, hx, hb, rexByte_of_isRex r hr']⟩

theorem encode_of_decodeLegacy (m : Mode) (ps : List RawPrefix) (rex : Option Byte) (bs : List Byte) (i : Instr)
    (hrex : ∀ r, rex = some r → m = .m64 ∧ isRex r = true) (h : decodeLegacy m ps rex bs = .ok i) :
    i.operandsOk m = true ∧ i.ilen ≤ 15 ∧ ∃ (qs : List Prefix) (tail : List Byte), ps = qs.map RawPrefix.admitted
      ∧ encode i ++ tail = qs.map Prefix.byte ++ (rex.toList ++ 0x0F :: 0x38 :: 0x3F :: bs) := by
  obtain ⟨hop, hrep, ha, reg, rm, tail, hmodrm⟩ := decodeLegacy_ok_inv m ps rex bs i h
  rw [decodeLegacy_eq_verdict m ps rex bs reg rm tail hop hrep ha hmodrm, verdict_eq_ok] at h
  obtain ⟨hlen, hlock, -, rfl⟩ := h
  obtain ⟨qs, rfl⟩ := exists_eq_map_admitted ps hlock hrep
  obtain ⟨hrm, rfl⟩ := bytes_of_decodeModRM _ _ _ _ _ _ hmodrm
  obtain ⟨hsrc, hx, hb, hbytes⟩ := rm.toRm4_of_fits _ _ hrm
  have hwf : (legacyOps (qs.map RawPrefix.admitted) (rex.getD 0) reg rm).wf m = true := by
    rw [addr16_eq_not_addrSizeOk, Bool.not_eq_false'] at ha
    rw [hasOpSize_map_admitted, List.contains_iff_mem] at hop
    rw [LegacyOps.wf_iff]
    refine ⟨?_, ?_, hsrc⟩ <;> simpa [legacyOps, admitted_map_admitted]
  obtain ⟨hok, henc⟩ := legacyRow_encode m rex hrex _ hwf (ext3_extend _ _) hx hb
  refine ⟨hok, ?_, qs, tail, rfl, ?_⟩
  · rw [(legacyRow_facts _ _).1]
    simpa [LegacyOps.len, legacyOps, admitted_map_admitted] using hlen
  · rw [henc]
    simp only [LegacyOps.encode, legacyOps, admitted_map_admitted, low3_extend, hbytes, List.append_assoc,
      List.cons_append, List.nil_append]

/-! ## The two directions -/

/-- The format of what decodes: the three the spec has, with the bytes each begins with (R114 step 3). -/
theorem decodeFormat_ok_inv (m : Mode) (ps : List RawPrefix) (rex : Option Byte) (bs : List Byte) (i : Instr)
    (h : decodeFormat m ps rex bs = .ok i) :
    (∃ rest, bs = 0x0F :: 0x38 :: 0x3F :: rest ∧ decodeLegacy m ps rex rest = .ok i)
      ∨ (∃ v1 v2 op rest, bs = 0xC4 :: v1 :: v2 :: op :: rest ∧ decodeVex m ps rex v1 v2 op rest = .ok i)
      ∨ ∃ p0 p1 p2 op rest, bs = 0x62 :: p0 :: p1 :: p2 :: op :: rest ∧ decodeEvex m ps rex p0 p1 p2 op rest = .ok i := by
  unfold decodeFormat at h
  split at h
  · cases h
  · split at h
    · rename_i hb
      subst hb
      split at h
      · split at h
        · rename_i rest hop
          obtain ⟨rfl, rfl⟩ := hop
          exact .inl ⟨rest, rfl, h⟩
        · cases h
      · split at h <;> cases h
      · cases h
    · split at h
      · rename_i hb
        subst hb
        split at h
        · cases h
        · split at h
          · cases h
          · split at h
            · exact .inr (.inl ⟨_, _, _, _, rfl, h⟩)
            · cases h
      · split at h
        · rename_i hb
          subst hb
          split at h
          · cases h
          · split at h
            · cases h
            · split at h
              · exact .inr (.inr ⟨_, _, _, _, _, rfl, h⟩)
              · cases h
        · cases h

theorem encode_of_decodeFormat (m : Mode) (ps : List RawPrefix) (rex : Option Byte) (bs : List Byte) (i : Instr)
    (hrex : ∀ r, rex = some r → m = .m64 ∧ isRex r = true) (h : decodeFormat m ps rex bs = .ok i) :
    i.operandsOk m = true ∧ i.ilen ≤ 15 ∧ ∃ (qs : List Prefix) (tail : List Byte), ps = qs.map RawPrefix.admitted
      ∧ encode i ++ tail = qs.map Prefix.byte ++ (rex.toList ++ bs) := by
  obtain ⟨rest, rfl, hlegacy⟩ | ⟨v1, v2, op, rest, rfl, hvex⟩ | ⟨p0, p1, p2, op, rest, rfl, hevex⟩ :=
    decodeFormat_ok_inv m ps rex bs i h
  · exact encode_of_decodeLegacy m ps rex rest i hrex hlegacy
  · obtain ⟨hok, hlen, rfl, hbytes⟩ := encode_of_decodeVex m ps rex v1 v2 op rest i hvex
    exact ⟨hok, hlen, hbytes⟩
  · obtain ⟨hok, hlen, rfl, hbytes⟩ := encode_of_decodeEvex m ps rex p0 p1 p2 op rest i hevex
    exact ⟨hok, hlen, hbytes⟩

theorem Instr.wf_iff (m : Mode) (i : Instr) :
    i.wf m = true ↔ (m.covered = true ∧ i.operandsOk m = true) ∧ i.ilen ≤ 15 := by
  simp only [Instr.wf, Bool.and_eq_true, decide_eq_true_eq]

/-- The prefixes, the REX byte and the format's bytes of what decodes, put together. -/
theorem encode_of_scanPrefixes (m : Mode) (bytes : List Byte) (rex : Option Byte) (bs : List Byte) (i : Instr)
    (hm : m.covered = true) (hrex : ∀ r, rex = some r → m = .m64 ∧ isRex r = true)
    (hbs : (scanPrefixes bytes).2 = rex.toList ++ bs) (h : decodeFormat m (scanPrefixes bytes).1 rex bs = .ok i) :
    i.wf m = true ∧ ∃ tail, bytes = encode i ++ tail := by
  obtain ⟨hok, hlen, qs, tail, hps, htail⟩ := encode_of_decodeFormat _ _ _ _ _ hrex h
  refine ⟨(i.wf_iff m).2 ⟨⟨hm, hok⟩, hlen⟩, tail, ?_⟩
  rw [eq_map_byte_append_of_scanPrefixes bytes qs hps, hbs, htail]

/-- What decodes is a well-formed instruction's encoding, and what follows it. -/
theorem encode_of_decode (m : Mode) (bytes : List Byte) (i : Instr) (h : decode m bytes = .ok i) :
    i.wf m = true ∧ ∃ tail, bytes = encode i ++ tail := by
  unfold decode at h
  split at h
  · cases h
  · rename_i hm
    rw [Bool.not_eq_true, Bool.not_eq_false'] at hm
    split at h
    · cases h
    · rename_i b bs hbs
      split at h
      · rename_i hrex
        split at h
        · cases h
        · split at h
          · cases h
          · exact encode_of_scanPrefixes m bytes (some b) _ i hm (by simpa using hrex) hbs h
      · exact encode_of_scanPrefixes m bytes none _ i hm (by simp) hbs h

@[simp] theorem Addr.length_bytes (reg : BitVec 3) (a : Addr) : (a.bytes reg).length = 1 + a.len := by
  have hdisp : ∀ d : Disp, d.bytes.length = d.len := fun d => by cases d <;> rfl
  cases a <;> simp [Addr.bytes, Addr.len, hdisp, le32Bytes] <;> omega

@[simp] theorem Rm4.length_bytes (reg : BitVec 3) (r : Rm4) : (r.bytes reg).length = 1 + r.len := by
  cases r with
  | reg x n => rfl
  | mem a => exact a.length_bytes reg

@[simp] theorem Rm5.length_bytes (reg : BitVec 3) (r : Rm5) : (r.bytes reg).length = 1 + r.len := by
  cases r with
  | reg n => rfl
  | mem bcst a => exact a.length_bytes reg

/-- `ilen` is the number of bytes of the encoding (R113). -/
theorem length_encode (i : Instr) : (encode i).length = i.ilen := by
  have hvex : ∀ l (o : VexOps), (o.encode l).length = o.len := fun l o => by simp [VexOps.encode, VexOps.len]; omega
  have hevex : ∀ w ll (o : EvexOps), (o.encode w ll).length = o.len := fun w ll o => by
    simp [EvexOps.encode, EvexOps.len]; omega
  cases i with
  | pmaxud o => simp [encode, LegacyOps.encode, Instr.ilen, LegacyOps.len]; omega
  | pmaxudRex w o => simp [encode, LegacyOps.encode, Instr.ilen, LegacyOps.len]; omega
  | vpmaxudVex128 o | vpmaxudVex256 o => exact hvex _ o
  | vpmaxudEvex128 o | vpmaxudEvex256 o | vpmaxudEvex512 o => exact hevex _ _ o
  | vpmaxuqEvex128 o | vpmaxuqEvex256 o | vpmaxuqEvex512 o => exact hevex _ _ o

theorem LegacyOps.five_le_len (m : Mode) (o : LegacyOps) (h : o.wf m = true) (rex : Bool) : 5 ≤ o.len rex := by
  have hpos := List.length_pos_of_mem ((o.wf_iff m).1 h).1
  unfold LegacyOps.len
  omega

theorem VexOps.five_le_len (o : VexOps) : 5 ≤ o.len := by unfold VexOps.len; omega

theorem EvexOps.six_le_len (o : EvexOps) : 6 ≤ o.len := by unfold EvexOps.len; omega

theorem five_le_ilen (m : Mode) (i : Instr) (h : i.operandsOk m = true) : 5 ≤ i.ilen := by
  cases i with
  | pmaxud o => exact o.five_le_len m (Bool.and_elim_left h) false
  | pmaxudRex w o => exact o.five_le_len m (Bool.and_elim_left h) true
  | vpmaxudVex128 o | vpmaxudVex256 o => exact o.five_le_len
  | vpmaxudEvex128 o | vpmaxudEvex256 o | vpmaxudEvex512 o => exact Nat.le_of_succ_le o.six_le_len
  | vpmaxuqEvex128 o | vpmaxuqEvex256 o | vpmaxuqEvex512 o => exact Nat.le_of_succ_le o.six_le_len

/-- Settles O2: each format's bytes are read back to the operands they were written from, and the verdict on them is `ok`. -/
theorem decodeUndoesEncode : Obligations.DecodeUndoesEncode := by
  intro m i rest hwf
  obtain ⟨⟨hm, hok⟩, hlen⟩ := (i.wf_iff m).1 hwf
  cases i with
  | pmaxud o =>
    simp only [Instr.operandsOk, Bool.and_eq_true] at hok
    exact decode_encode_pmaxud m hm o hok.1 hok.2 hlen rest
  | pmaxudRex w o =>
    simp only [Instr.operandsOk, Bool.and_eq_true, decide_eq_true_eq] at hok
    obtain ⟨hwf, rfl⟩ := hok
    exact decode_encode_pmaxudRex w o hwf hlen rest
  | vpmaxudVex128 o => exact decode_encode_vex m hm false o hok hlen rest
  | vpmaxudVex256 o => exact decode_encode_vex m hm true o hok hlen rest
  | vpmaxudEvex128 o => exact decode_encode_evex m hm false 0 o _ rfl hok hlen rest
  | vpmaxudEvex256 o => exact decode_encode_evex m hm false 1 o _ rfl hok hlen rest
  | vpmaxudEvex512 o => exact decode_encode_evex m hm false 2 o _ rfl hok hlen rest
  | vpmaxuqEvex128 o => exact decode_encode_evex m hm true 0 o _ rfl hok hlen rest
  | vpmaxuqEvex256 o => exact decode_encode_evex m hm true 1 o _ rfl hok hlen rest
  | vpmaxuqEvex512 o => exact decode_encode_evex m hm true 2 o _ rfl hok hlen rest

/-- Settles O3: each branch of the decoder that answers an instruction has read the bytes the encoder writes for it. -/
theorem encodeUndoesDecode : Obligations.EncodeUndoesDecode := by
  intro m bytes i h
  obtain ⟨hwf, tail, rfl⟩ := encode_of_decode m bytes i h
  exact ⟨hwf, by simp [length_encode], by rw [← length_encode, List.take_left]⟩

/-- Settles O4: what decodes is well formed, form 1 has its 66h, and the rest of the lengths is counted by format. -/
theorem decodedLengthBounds : Obligations.DecodedLengthBounds := by
  intro m bytes i h
  obtain ⟨⟨-, hok⟩, hlen⟩ := (i.wf_iff m).1 (encode_of_decode m bytes i h).1
  refine ⟨five_le_ilen m i hok, hlen, ?_⟩
  rintro ⟨o, rfl | rfl | rfl | rfl | rfl | rfl⟩ <;> exact o.six_le_len

end Sys2Proof
end

section
/-! SUPPORT. Encodings the decoder refuses or makes `#UD`, past any prefix bytes and a REX byte; then the statements of the encoding
family on them, and its sample words. -/

namespace Sys2Proof

open Sys2Proof.Claims

/-! ## Past the prefix bytes and a REX byte (`30_encoding.md` R114 steps 1 and 2) -/

theorem isRex_of_rexByte (b : Byte) (h : RexByte b) : isRex b = true := by simpa [isRex, RexByte] using h

theorem covered_of_m64_or_m32 (m : Mode) (h : m = .m64 ∨ m = .m32) : m.covered = true := by rcases h with rfl | rfl <;> rfl

theorem decode_prefixBytes (m : Mode) (ps rex rest : List Byte) (c : Byte) (hm : m = .m64 ∨ m = .m32)
    (hps : PrefixBytes ps) (hrex : RexOrNone m rex) (hc : rawPrefix c = none) (hc' : isRex c = false) :
    decode m (ps ++ rex ++ c :: rest) = decodeFormat m (ps.filterMap rawPrefix) rex.head? (c :: rest) := by
  have hsome := isSome_rawPrefix_of_prefixBytes ps hps
  rcases hrex with rfl | ⟨rfl, b, hb, rfl⟩
  · rw [List.append_nil]
    exact decode_prefixes m ps c rest (covered_of_m64_or_m32 m hm) hsome hc hc'
  · rw [List.append_assoc, List.singleton_append, decode_prefixes_rex ps b c rest hsome (isRex_of_rexByte b hb)]
    simp [hc, hc']

theorem isSome_head_eq_length_of_rexOrNone (m : Mode) (rex : List Byte) (h : RexOrNone m rex) :
    (if rex.head?.isSome then 1 else 0) = rex.length := by
  rcases h with rfl | ⟨-, b, -, rfl⟩ <;> rfl

theorem hasLock_filterMap (ps : List Byte) : hasLock (ps.filterMap rawPrefix) = true ↔ 0xF0 ∈ ps := by
  rw [hasLock, contains_filterMap_rawPrefix ps _ 0xF0 rawPrefix_lock, List.contains_iff_mem]

theorem hasRep_filterMap (ps : List Byte) : hasRep (ps.filterMap rawPrefix) = true ↔ 0xF2 ∈ ps ∨ 0xF3 ∈ ps := by
  rw [hasRep, contains_filterMap_rawPrefix ps _ 0xF2 rawPrefix_repne, contains_filterMap_rawPrefix ps _ 0xF3 rawPrefix_rep,
    Bool.or_eq_true, List.contains_iff_mem, List.contains_iff_mem]

theorem hasOpSize_filterMap (ps : List Byte) : hasOpSize (ps.filterMap rawPrefix) = true ↔ 0x66 ∈ ps := by
  rw [hasOpSize, contains_filterMap_rawPrefix ps _ 0x66 rawPrefix_opSize, List.contains_iff_mem]

/-- Outside M32 67h gives no 16-bit address size, and in M32 only 67h does (R108). -/
theorem addr16_filterMap_eq_false (m : Mode) (ps : List Byte) (hm : m = .m64 ∨ m = .m32) (h : m = .m32 → 0x67 ∉ ps) :
    addr16 m (ps.filterMap rawPrefix) = false := by
  rw [addr16, contains_filterMap_rawPrefix ps _ 0x67 rawPrefix_addrSize]
  rcases hm with rfl | rfl
  · rfl
  · simpa using h rfl

theorem badBeforeVex_filterMap (ps rex : List Byte)
    (h : 0xF0 ∈ ps ∨ 0x66 ∈ ps ∨ 0xF2 ∈ ps ∨ 0xF3 ∈ ps ∨ rex ≠ []) :
    badBeforeVex (ps.filterMap rawPrefix) rex.head? = true := by
  simp only [badBeforeVex, Bool.or_eq_true, hasLock_filterMap, hasRep_filterMap, hasOpSize_filterMap]
  rcases h with h | h | h | h | h
  · exact .inl (.inl (.inl h))
  · exact .inl (.inr h)
  · exact .inl (.inl (.inr (.inl h)))
  · exact .inl (.inl (.inr (.inr h)))
  · cases rex with
    | nil => exact absurd rfl h
    | cons b bs => exact .inr rfl

/-! ## No instruction of this spec (R112) -/

theorem decodeLegacy_notInSpec (m : Mode) (ps : List RawPrefix) (rex : Option Byte) (bs : List Byte)
    (h : hasOpSize ps = false) : decodeLegacy m ps rex bs = .refused .notInSpec := by
  simp [decodeLegacy, h]

/-- Another opcode byte, map or pp after C4h, in M32 also where the byte after it announces no VEX. -/
theorem decodeFormat_vex_notInSpec (m : Mode) (ps : List RawPrefix) (rex : Option Byte) (v1 v2 op : Byte) (rest : List Byte)
    (h : op ≠ 0x3F ∨ v1.extractLsb' 0 5 ≠ 2#5 ∨ v2.extractLsb' 0 2 ≠ 1#2) :
    decodeFormat m ps rex (0xC4 :: v1 :: v2 :: op :: rest) = .refused .notInSpec := by
  by_cases h3 : m = .m64 ∨ v1.extractLsb' 6 2 = 3#2
  · rw [decodeFormat_vex m ps rex v1 v2 op rest h3, decodeVex, if_pos h]
  · rw [not_or] at h3
    exact decodeFormat_not_vex m ps rex 0xC4 v1 _ h3.1 (.inl rfl) h3.2

/-- Another opcode byte, map or pp after 62h, in M32 also where the byte after it announces no EVEX. -/
theorem decodeFormat_evex_notInSpec (m : Mode) (ps : List RawPrefix) (rex : Option Byte) (p0 p1 p2 op : Byte)
    (rest : List Byte) (h : op ≠ 0x3F ∨ p0.extractLsb' 0 2 ≠ 2#2 ∨ p1.extractLsb' 0 2 ≠ 1#2) :
    decodeFormat m ps rex (0x62 :: p0 :: p1 :: p2 :: op :: rest) = .refused .notInSpec := by
  by_cases h3 : m = .m64 ∨ p0.extractLsb' 6 2 = 3#2
  · rw [decodeFormat_evex m ps rex p0 p1 p2 op rest h3, decodeEvex, if_pos h]
  · rw [not_or] at h3
    exact decodeFormat_not_vex m ps rex 0x62 p0 _ h3.1 (.inr rfl) h3.2

/-! ## `#UD` (R72, R99, R103, R111) -/

theorem verdict_ud (m : Mode) (len : Nat) (i : Instr) (h : len ≤ 15) : verdict m len true i = .ud := by
  simp [verdict, Nat.not_lt.2 h]

theorem decodeVex_ud (m : Mode) (ps : List RawPrefix) (rex : Option Byte) (v1 v2 : Byte) (bs : List Byte)
    (ha : addr16 m ps = false) (h1 : v1.extractLsb' 0 5 = 2#5) (h2 : v2.extractLsb' 0 2 = 1#2)
    (hps : ps.length + (if rex.isSome then 1 else 0) ≤ 4) (hbs : 6 ≤ bs.length) (hbad : badBeforeVex ps rex = true) :
    decodeVex m ps rex v1 v2 0x3F bs = .ud := by
  obtain ⟨reg, rm, tail, hmodrm, -, hlen⟩ := decodeModRM_of_length (!bitAt v1 6) (!bitAt v1 5) bs hbs
  rw [decodeVex_eq_verdict m ps rex v1 v2 bs reg rm tail ha h1 h2 hmodrm, hbad]
  exact verdict_ud m _ _ (by omega)

/-- L'L = 11b selects no row (R111). -/
theorem decodeEvex_ud_of_ll (m : Mode) (ps : List RawPrefix) (rex : Option Byte) (p0 p1 p2 : Byte) (bs : List Byte)
    (reg : BitVec 3) (rm : RmField) (tail : List Byte) (ha : addr16 m ps = false)
    (h0 : p0.extractLsb' 0 2 = 2#2) (h1 : p1.extractLsb' 0 2 = 1#2)
    (hmodrm : decodeModRM (!bitAt p0 6) (!bitAt p0 5) bs = some (reg, rm, tail))
    (hlen : ps.length + (if rex.isSome then 1 else 0) + 5 + 1 + rm.len ≤ 15) (hll : p2.extractLsb' 5 2 = 3#2) :
    decodeEvex m ps rex p0 p1 p2 0x3F bs = .ud := by
  have hrow : ∀ w o, evexRow w 3#2 o = none := fun _ _ => rfl
  simp [decodeEvex, h0, h1, ha, hmodrm, hll, hrow, Nat.not_lt.2 hlen]

/-- An EVEX encoding of this group after a bad prefix or with a reserved setting. -/
theorem decodeEvex_ud (m : Mode) (ps : List RawPrefix) (rex : Option Byte) (p0 p1 p2 : Byte) (bs : List Byte)
    (ha : addr16 m ps = false) (h0 : p0.extractLsb' 0 2 = 2#2) (h1 : p1.extractLsb' 0 2 = 1#2)
    (hps : ps.length + (if rex.isSome then 1 else 0) ≤ 4) (hbs : 6 ≤ bs.length)
    (hud : ∀ x b reg rm tail, decodeModRM x b bs = some (reg, rm, tail) → p2.extractLsb' 5 2 ≠ 3#2 →
      (badBeforeVex ps rex || evexReserved p0 p1 p2 rm) = true) :
    decodeEvex m ps rex p0 p1 p2 0x3F bs = .ud := by
  obtain ⟨reg, rm, tail, hmodrm, -, hlen⟩ := decodeModRM_of_length (!bitAt p0 6) (!bitAt p0 5) bs hbs
  by_cases hll : p2.extractLsb' 5 2 = 3#2
  · exact decodeEvex_ud_of_ll m ps rex p0 p1 p2 bs reg rm tail ha h0 h1 hmodrm (by omega) hll
  · obtain ⟨i, hrow, -⟩ := evexRow_of_ne_3 (bitAt p1 7) _ (evexOps ps p0 p1 p2 reg rm) hll
    rw [decodeEvex_eq_verdict m ps rex p0 p1 p2 bs reg rm tail i ha h0 h1 hmodrm hrow, hud _ _ _ _ _ hmodrm hll]
    exact verdict_ud m _ i (by omega)

theorem decodeLegacy_ud (m : Mode) (ps : List RawPrefix) (rex : Option Byte) (bs : List Byte) (hop : hasOpSize ps = true)
    (hrep : hasRep ps = false) (ha : addr16 m ps = false) (hlock : hasLock ps = true)
    (hps : ps.length + (if rex.isSome then 1 else 0) ≤ 6) (hbs : 6 ≤ bs.length) :
    decodeLegacy m ps rex bs = .ud := by
  obtain ⟨reg, rm, tail, hmodrm, -, hlen⟩ := decodeModRM_of_length (bitAt (rex.getD 0) 1) (bitAt (rex.getD 0) 0) bs hbs
  rw [decodeLegacy_eq_verdict m ps rex bs reg rm tail hop hrep ha hmodrm, hlock]
  exact verdict_ud m _ _ (by omega)

theorem decodeLegacy_repPrefix (m : Mode) (ps : List RawPrefix) (rex : Option Byte) (bs : List Byte)
    (hop : hasOpSize ps = true) (hrep : hasRep ps = true) : decodeLegacy m ps rex bs = .refused .repPrefix := by
  simp [decodeLegacy, hop, hrep]

/-- The four reserved settings beside L'L = 11b, as R111 writes them. -/
theorem evexReserved_eq_true (p0 p1 p2 : Byte) (rm : RmField)
    (h : p0.extractLsb' 2 2 ≠ 0#2 ∨ p1.getLsbD 2 = false ∨ (p2.getLsbD 7 = true ∧ p2.extractLsb' 0 3 = 0#3)
      ∨ (p2.getLsbD 4 = true ∧ rm.isReg = true)) : evexReserved p0 p1 p2 rm = true := by
  simp only [evexReserved, bitAt, Bool.or_eq_true, Bool.and_eq_true, Bool.not_eq_true', bne_iff_ne, beq_iff_eq]
  rcases h with h | h | h | h
  · exact .inl (.inl (.inl h))
  · exact .inl (.inl (.inr h))
  · exact .inl (.inr h)
  · exact .inr h

/-! ## The statements -/

/-- Settles O6: each neighbouring encoding meets the refusal's branch of its format, whatever was scanned before it. -/
theorem neighboursAreRefused : Obligations.NeighboursAreRefused := by
  intro m ps rex rest hm hps hrex
  refine ⟨fun h66 => ?_, ?_, fun v1 v2 op h => ?_, fun p0 p1 p2 op h => ?_⟩
  · rw [decode_prefixBytes m ps rex _ _ hm hps hrex (by decide) (by decide), decodeFormat_legacy]
    exact decodeLegacy_notInSpec _ _ _ _ (Bool.eq_false_iff.2 fun h => h66 ((hasOpSize_filterMap ps).1 h))
  · rw [decode_prefixBytes m ps rex _ _ hm hps hrex (by decide) (by decide)]
    exact decodeFormat_other _ _ _ _ _ (by decide)
  · rw [decode_prefixBytes m ps rex _ _ hm hps hrex (by decide) (by decide)]
    exact decodeFormat_vex_notInSpec _ _ _ _ _ _ _ h
  · rw [decode_prefixBytes m ps rex _ _ hm hps hrex (by decide) (by decide)]
    exact decodeFormat_evex_notInSpec _ _ _ _ _ _ _ _ h

/-- Settles O7: L'L = 11b selects no row, and the four other settings are those the decoder tests, `rm` being a register exactly
when ModRM.mod is 11b. -/
theorem reservedEvexIsUndefined : Obligations.ReservedEvexIsUndefined := by
  intro m ps p0 p1 p2 modrm rest hm hps h3 h0 h1 hrest hres
  obtain ⟨hlen, -, haddr⟩ := hps
  have ha : addr16 m (ps.map RawPrefix.admitted) = false := by
    rcases hm with rfl | rfl
    · rfl
    · exact addr16_map_admitted .m32 ps (haddr rfl)
  rw [decode_prefixes m _ _ _ (covered_of_m64_or_m32 m hm) (isSome_rawPrefix_map_byte ps) (by decide) (by decide),
    filterMap_rawPrefix_map_byte, decodeFormat_evex _ _ _ _ _ _ _ _ (hm.imp_right h3)]
  refine decodeEvex_ud m _ none p0 p1 p2 _ ha h0 h1 (by simpa using hlen) (by simpa using hrest) ?_
  intro x b reg rm tail hmodrm hll
  rw [← isReg_of_decodeModRM x b modrm rest reg rm tail hmodrm] at hres
  rw [evexReserved_eq_true p0 p1 p2 rm (hres.imp_right (Or.imp_right fun h => h.resolve_left hll)), Bool.or_true]

/-- Settles O8: a bad prefix or a REX byte is `#UD` in both formats once the encoding is parsed and short enough. -/
theorem prefixBeforeVexIsUndefined : Obligations.PrefixBeforeVexIsUndefined := by
  intro m ps rex rest hm hps hrex hlen h67 hrest h
  have hbad := badBeforeVex_filterMap ps rex h
  have ha := addr16_filterMap_eq_false m ps hm h67
  have hlen' : (ps.filterMap rawPrefix).length + (if rex.head?.isSome then 1 else 0) ≤ 4 := by
    rwa [length_filterMap_rawPrefix ps (isSome_rawPrefix_of_prefixBytes ps hps), isSome_head_eq_length_of_rexOrNone m rex hrex]
  refine ⟨fun v1 v2 h3 h1 h2 => ?_, fun p0 p1 p2 h3 h0 h1 => ?_⟩
  · rw [decode_prefixBytes m ps rex _ _ hm hps hrex (by decide) (by decide),
      decodeFormat_vex _ _ _ _ _ _ _ (hm.imp_right h3)]
    exact decodeVex_ud m _ _ v1 v2 rest ha h1 h2 hlen' hrest hbad
  · rw [decode_prefixBytes m ps rex _ _ hm hps hrex (by decide) (by decide),
      decodeFormat_evex _ _ _ _ _ _ _ _ (hm.imp_right h3)]
    exact decodeEvex_ud m _ _ p0 p1 p2 rest ha h0 h1 hlen' hrest fun _ _ _ _ _ _ _ => by rw [hbad, Bool.true_or]

/-- Settles O9: LOCK makes a parsed form 1 `#UD`, F2h or F3h refuse it before it is parsed, and the byte after a REX byte is tested
before any format. -/
theorem prefixesOfFormOne : Obligations.PrefixesOfFormOne := by
  constructor
  · intro m ps rex rest hm hps hrex h66
    have hop := (hasOpSize_filterMap ps).2 h66
    rw [decode_prefixBytes m ps rex _ _ hm hps hrex (by decide) (by decide), decodeFormat_legacy]
    refine ⟨fun hlen h67 hrest hF0 hF2 hF3 => ?_, fun h => ?_⟩
    · have hrep : hasRep (ps.filterMap rawPrefix) = false :=
        Bool.eq_false_iff.2 fun h => ((hasRep_filterMap ps).1 h).elim hF2 hF3
      refine decodeLegacy_ud m _ _ rest hop hrep (addr16_filterMap_eq_false m ps hm h67) ((hasLock_filterMap ps).2 hF0) ?_ hrest
      rwa [length_filterMap_rawPrefix ps (isSome_rawPrefix_of_prefixBytes ps hps), isSome_head_eq_length_of_rexOrNone m rex hrex]
    · exact decodeLegacy_repPrefix m _ _ rest hop ((hasRep_filterMap ps).2 h)
  · intro ps rest rex b hps hrex hb
    have hafter : ((rawPrefix b).isSome || isRex b) = true := by
      rw [Bool.or_eq_true]
      exact hb.imp (fun h => isSome_rawPrefix_of_prefixBytes [b] h b (List.mem_singleton_self b)) (isRex_of_rexByte b)
    rw [decode_prefixes_rex ps rex b rest (isSome_rawPrefix_of_prefixBytes ps hps) (isRex_of_rexByte rex hrex), if_pos hafter]

/-- Settles O1: the decoder evaluated on each word. -/
theorem sampleWordsDecode : Obligations.SampleWordsDecode := by
  unfold Obligations.SampleWordsDecode
  decide

end Sys2Proof
end

section
/-! SUPPORT. The address of a memory operand as a number, and its segment; then the statements on them. -/

namespace Sys2Proof.Machine

open Sys2Proof.Claims

/-! ## The effective address as an integer (`30_encoding.md` R108) -/

/-- Keeping to the address size is the reduction modulo 2^A. -/
theorem toNat_keep_ofInt (wide : Bool) (z : Int) :
    ((keep wide (BitVec.ofInt 64 z)).toNat : Int) = z % 2 ^ (if wide then 64 else 32) := by
  cases wide
  · simp only [keep, Bool.false_eq_true, if_false, BitVec.toNat_setWidth, BitVec.toNat_ofInt]
    omega
  · simp only [keep, if_true, BitVec.toNat_ofInt]
    omega

/-- A register kept to the address size is its number modulo 2^A. -/
theorem keep_eq_ofInt (wide : Bool) (x : Word) :
    keep wide x = BitVec.ofInt 64 ((x.toNat : Int) % 2 ^ (if wide then 64 else 32)) := by
  have hx : x = BitVec.ofInt 64 x.toNat := by simp
  apply BitVec.eq_of_toNat_eq
  have h := toNat_keep_ofInt wide x.toNat
  rw [← hx] at h
  rw [← h]
  simp

theorem signExtend_eq_ofInt {w : Nat} (v : BitVec w) : v.signExtend 64 = BitVec.ofInt 64 v.toInt := rfl

/-- The displacement of a form with a base, disp8 multiplied by `n` (R109). -/
theorem dispValue_eq_ofInt (n : Nat) (d : Disp) : dispValue n d = BitVec.ofInt 64 (dispInt n d) := by
  cases d with
  | none => rfl
  | disp8 v => rw [dispValue, dispInt, BitVec.ofInt_mul, BitVec.ofInt_natCast, signExtend_eq_ofInt]
  | disp32 v => rfl

/-- The scaled index (R106). -/
theorem State.indexValue_eq_ofInt (s : State) (wide : Bool) (scale : BitVec 2) (index : BitVec 4) :
    s.indexValue wide scale index = BitVec.ofInt 64 (idxNat s (if wide then 64 else 32) scale index) := by
  unfold State.indexValue idxNat
  split
  · rfl
  · have hscale : BitVec.twoPow 64 scale.toNat = BitVec.ofInt 64 (2 ^ scale.toNat : Nat) := by
      rw [BitVec.ofInt_natCast]
      exact BitVec.eq_of_toNat_eq (by simp)
    rw [keep_eq_ofInt, BitVec.shiftLeft_eq_mul_twoPow, hscale, ← BitVec.ofInt_mul]
    simp

/-- R108: the sum modulo 2^A. -/
theorem State.toNat_effAddr (s : State) (wide : Bool) (n len : Nat) (a : Addr) :
    ((s.effAddr wide n len a).toNat : Int)
      = eaSum s (if wide then 64 else 32) n len a % 2 ^ (if wide then 64 else 32) := by
  have hpc : s.pc = BitVec.ofInt 64 s.pc.toNat := by simp
  rw [← toNat_keep_ofInt]
  cases a with
  | base x b d => rw [State.effAddr, eaSum, keep_eq_ofInt wide (s.readX b), dispValue_eq_ofInt, BitVec.ofInt_add]
  | sib scale index b d =>
    rw [State.effAddr, eaSum, keep_eq_ofInt wide (s.readX b), s.indexValue_eq_ofInt, dispValue_eq_ofInt, BitVec.ofInt_add,
      BitVec.ofInt_add]
  | sibNoBase b scale index d =>
    rw [State.effAddr, eaSum, s.indexValue_eq_ofInt, signExtend_eq_ofInt, BitVec.ofInt_add]
  | disp32 x b d =>
    rw [State.effAddr, eaSum]
    by_cases hm : s.env.mode = .m64
    · rw [if_pos hm, if_pos hm, BitVec.ofInt_add, BitVec.ofInt_add, ← hpc, BitVec.ofInt_natCast, signExtend_eq_ofInt]
    · rw [if_neg hm, if_neg hm, signExtend_eq_ofInt]

/-- A is 64 exactly in M64 without 67h. -/
theorem addrBits_eq (m : Mode) (ps : List Prefix) : addrBits m ps = if wideAddr m ps then 64 else 32 := by
  simp [addrBits, wideAddr]

/-! ## The segment (R92, R110) -/

theorem defaultSeg_eq_plainSegment (a : Addr) : defaultSeg a = plainSegment a := by
  cases a <;> simp [defaultSeg, plainSegment, baseNumber]

/-- The override in force after one more prefix. -/
def overrideAfter (m : Mode) (r : Option Seg) : Prefix → Option Seg
  | .seg sg => if overrides m sg then some sg else r
  | .addrSize => r
  | .opSize => r

theorem lastOverride_eq_foldl (m : Mode) (ps : List Prefix) : lastOverride m ps = ps.foldl (overrideAfter m) none := by
  unfold lastOverride
  congr 1
  funext r p
  cases p with
  | seg sg => cases sg <;> cases m <;> rfl
  | addrSize => rfl
  | opSize => rfl

/-- The segment of an operand is the one in force before the prefixes unless one of them takes its place. -/
theorem segOf_getD (m : Mode) (sg : Seg) (r : Option Seg) (ps : List Prefix) :
    segOf m (r.getD sg) ps = (ps.foldl (overrideAfter m) r).getD sg := by
  induction ps generalizing r with
  | nil => rfl
  | cons p ps ih =>
    cases p with
    | seg o =>
      rw [segOf, List.foldl_cons, ← ih, overrideAfter]
      split <;> rfl
    | addrSize => exact ih r
    | opSize => exact ih r

theorem segOf_eq_lastOverride (m : Mode) (sg : Seg) (ps : List Prefix) : segOf m sg ps = (lastOverride m ps).getD sg := by
  rw [lastOverride_eq_foldl]
  exact segOf_getD m sg none ps

/-! ## The statements -/

/-- Settles O21: register, index and displacement are integers modulo 2^64, and the address size keeps their sum modulo 2^A. -/
theorem effectiveAddressModulo : Obligations.EffectiveAddressModulo := by
  refine ⟨fun s wide n len a _ _ => s.toNat_effAddr wide n len a, fun s ps n len a _ _ => ?_⟩
  rw [addrBits_eq]
  exact s.toNat_effAddr (wideAddr s.env.mode ps) n len a

/-- Settles O22: by induction on the prefixes, each of which leaves or replaces the override in force. -/
theorem segmentOverrideSelection : Obligations.SegmentOverrideSelection := by
  refine ⟨segOf_eq_lastOverride, fun s ps n len a => ?_⟩
  rw [State.memRef, segOf_eq_lastOverride, defaultSeg_eq_plainSegment]

end Sys2Proof.Machine
end

section
/-! SUPPORT. Form 1 on a source that is read: the new value of its destination and its result; then the statements of its
family (`40_pmaxud_legacy_sse.md`). -/

namespace Sys2Proof.Machine

open Sys2Proof.Claims

/-! ## The new value of the destination (R140) -/

/-- Form 1's new value of a destination that holds `old`, on the source dwords `b`: the maxima below bit 128, `old` above. -/
def legacyMax (old : Vec) (b : Nat → BitVec 32) : Vec :=
  mergeLow 128 old (pack 32 4 fun j => umax (elem 32 old j) (b j))

theorem elem_legacyMax (old : Vec) (b : Nat → BitVec 32) (j : Nat) (hj : j < 4) :
    elem 32 (legacyMax old b) j = umax (elem 32 old j) (b j) := by
  rw [legacyMax, elem_mergeLow 32 128 _ _ j (by omega), elem_pack 32 4 _ (by decide) (by decide) j hj]

theorem getLsbD_legacyMax_of_lt (old : Vec) (b : Nat → BitVec 32) (k : Nat) (hk : k < 128) :
    (legacyMax old b).getLsbD k = (umax (elem 32 old (k / 32)) (b (k / 32))).getLsbD (k % 32) := by
  have h512 : k < 512 := by omega
  rw [legacyMax, getLsbD_mergeLow, if_pos hk, getLsbD_pack 32 4 _ (by decide)]
  simp [hk, h512]

theorem getLsbD_legacyMax_of_ge (old : Vec) (b : Nat → BitVec 32) (k : Nat) (hk : 128 ≤ k) :
    (legacyMax old b).getLsbD k = old.getLsbD k := by
  rw [legacyMax, getLsbD_mergeLow, if_neg (Nat.not_lt.2 hk)]

/-- Bit `k` of a vector is a bit of its element `k / w`. -/
theorem getLsbD_elem_div_mod (w : Nat) (v : Vec) (k : Nat) (hw : 0 < w) :
    (elem w v (k / w)).getLsbD (k % w) = v.getLsbD k := by
  rw [elem, BitVec.getLsbD_extractLsb', decide_eq_true (Nat.mod_lt k hw), Bool.true_and, Nat.mul_comm, Nat.div_add_mod]

/-- A destination whose dwords are already the maxima keeps its value. -/
theorem legacyMax_eq_self (old : Vec) (b : Nat → BitVec 32)
    (h : ∀ j, j < 4 → umax (elem 32 old j) (b j) = elem 32 old j) : legacyMax old b = old := by
  apply BitVec.eq_of_getLsbD_eq
  intro k _
  by_cases hk : k < 128
  · rw [getLsbD_legacyMax_of_lt old b k hk, h (k / 32) (by omega), getLsbD_elem_div_mod 32 old k (by decide)]
  · exact getLsbD_legacyMax_of_ge old b k (Nat.le_of_not_lt hk)

/-! ## Form 1 completes with its result -/

section
variable {mk : LegacyOps → Instr}

theorem LegacyForm.dest_eq (h : LegacyForm mk) (o : LegacyOps) : (mk o).dest = o.d.setWidth 5 := by cases h <;> rfl

theorem LegacyForm.destValue_eq (h : LegacyForm mk) (o : LegacyOps) (s : State) :
    s.destValue (mk o) = s.legacyValue (mk o).ilen o := by cases h <;> rfl

/-- A row of form 1 that is ready and whose source has the dwords `b` writes the maxima and retires. -/
theorem LegacyForm.exec_of_source (hform : LegacyForm mk) (o : LegacyOps) (s : State) (b : Nat → BitVec 32)
    (hready : LegacyReady s) (hsrc : s.plainSource o.prefixes 128 (mk o).ilen true o.src = .next b) :
    exec (mk o) s
      = .next ((s.setV (o.d.setWidth 5) (legacyMax (s.readV (o.d.setWidth 5)) b)).retire (mk o).ilen) := by
  have hval : s.destValue (mk o) = .next (legacyMax (s.readV (o.d.setWidth 5)) b) := by
    rw [hform.destValue_eq, State.legacyValue, hsrc]; rfl
  exact (exec_eq_next_iff _ _ _).2 ⟨hform.enabled o s hready, _, hval, by rw [hform.dest_eq]⟩

/-- The write of form 1's new value leaves R140's result, for a source whose dwords are as `p` says. -/
theorem State.legacyResult_retire_setV (s : State) (len : Nat) (d : BitVec 5) (b : Nat → BitVec 32)
    (p : Nat → BitVec 32 → Prop) (hp : ∀ j, j < 4 → p j (b j)) :
    LegacyResult s ((s.setV d (legacyMax (s.readV d) b)).retire len) d p := by
  refine ⟨fun j hj => ⟨b j, hp j hj, ?_⟩, fun k hk => ?_⟩
  · rw [State.readV_retire, State.readV_setV_same, elem_legacyMax _ _ j hj, maxOf_eq_umax]
  · rw [State.readV_retire, State.readV_setV_same, getLsbD_legacyMax_of_ge _ _ k hk]

theorem LegacyForm.registerForm (hform : LegacyForm mk) : LegacyRegisterForm mk := by
  intro o s x n hsrc hready
  have hread : s.plainSource o.prefixes 128 (mk o).ilen true o.src = .next (elem 32 (s.readV (n.setWidth 5))) := by
    rw [hsrc]; rfl
  exact ⟨_, hform.exec_of_source o s _ hready hread, s.legacyResult_retire_setV _ _ _ _ fun _ _ => rfl,
    s.onlyWrites_retire_setV _ _ _⟩

theorem LegacyForm.memoryForm (hform : LegacyForm mk) : LegacyMemoryForm mk := by
  intro o s a sg ea hsrc hready href hbytes haligned
  have haccess : s.plainAccess o.prefixes 128 (mk o).ilen true o.src = some ⟨sg, ea, List.range 16, true⟩ := by
    rw [hsrc, State.plainAccess, href]
  have hreadable : s.readable ⟨sg, ea, List.range 16, true⟩ :=
    ⟨fun i hi => hbytes i (List.mem_range.1 hi), fun _ => haligned⟩
  have hread := s.plainSource_of_readable _ _ _ _ _ _ haccess hreadable
  exact ⟨_, hform.exec_of_source o s _ hready hread,
    s.legacyResult_retire_setV _ _ _ _ fun j _ => s.littleEndian_memElem 32 (sg, ea) (j * 4) (by decide) (by decide),
    s.onlyWrites_retire_setV _ _ _⟩

end

/-! ## Form 1 on registers (R142) -/

/-- The state that form 1 on the registers `d`, `n` leaves, in an instruction of `len` bytes. -/
def State.afterLegacyReg (s : State) (d n : BitVec 5) (len : Nat) : State :=
  (s.setV d (legacyMax (s.readV d) (elem 32 (s.readV n)))).retire len

theorem exec_pmaxud_reg (ps : List Prefix) (x : Bool) (d n : BitVec 4) (s : State) (hready : LegacyReady s) :
    exec (.pmaxud ⟨ps, d, .reg x n⟩) s
      = .next (s.afterLegacyReg (d.setWidth 5) (n.setWidth 5) (Instr.pmaxud ⟨ps, d, .reg x n⟩).ilen) :=
  LegacyForm.pmaxud.exec_of_source _ s _ hready rfl

section
variable (s : State) (d n : BitVec 5) (len : Nat)

theorem State.legacyReady_afterLegacyReg : LegacyReady (s.afterLegacyReg d n len) ↔ LegacyReady s := Iff.rfl

theorem State.readV_afterLegacyReg_same :
    (s.afterLegacyReg d n len).readV d = legacyMax (s.readV d) (elem 32 (s.readV n)) := by
  rw [State.afterLegacyReg, State.readV_retire, State.readV_setV_same]

theorem State.readV_afterLegacyReg_other (r : BitVec 5) (h : r ≠ d) : (s.afterLegacyReg d n len).readV r = s.readV r := by
  rw [State.afterLegacyReg, State.readV_retire, State.readV_setV_other _ _ _ _ h]

/-- The destination's dwords are then their own maxima with the source's, also where source and destination are one register. -/
theorem State.umax_elem_afterLegacyReg (j : Nat) (hj : j < 4) :
    umax (elem 32 ((s.afterLegacyReg d n len).readV d) j) (elem 32 ((s.afterLegacyReg d n len).readV n) j)
      = elem 32 ((s.afterLegacyReg d n len).readV d) j := by
  by_cases h : n = d
  · rw [h, umax_self]
  · rw [State.readV_afterLegacyReg_same, State.readV_afterLegacyReg_other _ _ _ _ _ h, elem_legacyMax _ _ j hj, umax_umax]

/-- So a second execution leaves every vector register as the first left it. -/
theorem State.readV_afterLegacyReg_twice (r : BitVec 5) :
    ((s.afterLegacyReg d n len).afterLegacyReg d n len).readV r = (s.afterLegacyReg d n len).readV r := by
  by_cases h : r = d
  · rw [h, State.readV_afterLegacyReg_same _ d n len]
    exact legacyMax_eq_self _ _ (s.umax_elem_afterLegacyReg d n len)
  · exact State.readV_afterLegacyReg_other _ d n len r h

end

/-! ## The statements -/

/-- Settles O10: the register's dwords are the source. -/
theorem pmaxudRegisterSource : Obligations.PmaxudRegisterSource :=
  ⟨LegacyForm.pmaxud.registerForm, fun w => (LegacyForm.pmaxudRex w).registerForm⟩

/-- Settles O11: the aligned readable operand passes the access check, and the source is the dwords in its bytes. -/
theorem pmaxudMemorySource : Obligations.PmaxudMemorySource :=
  ⟨LegacyForm.pmaxud.memoryForm, fun w => (LegacyForm.pmaxudRex w).memoryForm⟩

/-- Settles O30: bits 127:0 are those of the maxima, which do not depend on the operands' order. -/
theorem pmaxudCommutes : Obligations.PmaxudCommutes := by
  intro ps ps' x x' a b s hready
  refine ⟨_, _, exec_pmaxud_reg ps x a b s hready, exec_pmaxud_reg ps' x' b a s hready, fun k hk => ?_⟩
  rw [State.readV_afterLegacyReg_same, State.readV_afterLegacyReg_same, getLsbD_legacyMax_of_lt _ _ k hk,
    getLsbD_legacyMax_of_lt _ _ k hk, umax_comm]

/-- Settles O31: the first execution leaves the maxima, so the second writes back what the destination holds. -/
theorem pmaxudIdempotent : Obligations.PmaxudIdempotent := by
  intro ps x d n s hready
  exact ⟨_, _, exec_pmaxud_reg ps x d n s hready,
    exec_pmaxud_reg ps x d n _ ((s.legacyReady_afterLegacyReg _ _ _).2 hready), s.readV_afterLegacyReg_twice _ _ _⟩

end Sys2Proof.Machine
end

section
/-! SUPPORT. The VEX forms on a register and on a readable memory operand; then the statements of their family
(`41_vpmaxud_vex.md`). -/

namespace Sys2Proof.Machine

open Sys2Proof.Claims

namespace VexForm

variable {vl : Nat} {feature : Features → Bool} {mk : VexOps → Instr}

theorem ilen_eq (h : VexForm vl feature mk) (o : VexOps) : (mk o).ilen = o.len := by cases h <;> rfl

theorem registerForm (hform : VexForm vl feature mk) : VexRegisterForm vl feature mk := by
  intro o s x n hsrc hready
  have hread : s.plainSource o.prefixes vl o.len false o.src = .next (elem 32 (s.readV (n.setWidth 5))) := by
    rw [hsrc]; rfl
  exact hform.exec_of_source o s _ _ hready hread fun _ _ => rfl

/-- The access asks for no alignment, so readable bytes are all it takes. -/
theorem memoryForm (hform : VexForm vl feature mk) : VexMemoryForm vl feature mk := by
  intro o s a sg ea hsrc hready href hbytes
  rw [hform.ilen_eq] at href
  have haccess : s.plainAccess o.prefixes vl o.len false o.src = some ⟨sg, ea, List.range (vl / 8), false⟩ := by
    rw [hsrc, State.plainAccess, href]
  have hreadable : s.readable ⟨sg, ea, List.range (vl / 8), false⟩ :=
    ⟨fun i hi => hbytes i (List.mem_range.1 hi), nofun⟩
  have hread := s.plainSource_of_readable _ _ _ _ _ _ haccess hreadable
  exact hform.exec_of_source o s _ _ hready hread fun j _ =>
    s.littleEndian_memElem 32 (sg, ea) (j * 4) (by decide) (by decide)

end VexForm

/-! ## The statements -/

/-- Settles O12: the register's dwords are the source. -/
theorem vexRegisterSource : Obligations.VexRegisterSource :=
  ⟨VexForm.vpmaxud128.registerForm, VexForm.vpmaxud256.registerForm⟩

/-- Settles O13: the readable operand passes the access check at any alignment, and the source is the dwords in its bytes. -/
theorem vexMemorySource : Obligations.VexMemorySource :=
  ⟨VexForm.vpmaxud128.memoryForm, VexForm.vpmaxud256.memoryForm⟩

end Sys2Proof.Machine
end

section
/-! SUPPORT. The EVEX forms on a register, a full and a broadcast memory operand, what they read of their writemask, and the
unmasked ones beside VEX; then the statements of their family (`42_vpmaxud_evex.md`, `43_vpmaxuq_evex.md`). -/

namespace Sys2Proof.Machine

open Sys2Proof.Claims

/-! ## The result, element by element (R160) -/

section
variable (s : State) (w : Nat) (o : EvexOps) (b : Nat → BitVec w) (j : Nat)

theorem State.maskedMax_of_active (h : Active s o.aaa j) :
    s.maskedMax w o b j = umax (elem w (s.readV o.s1) j) (b j) :=
  if_pos ((s.active_iff o.aaa j).2 h)

theorem State.maskedMax_of_inactive (h : ¬ Active s o.aaa j) :
    s.maskedMax w o b j = if o.z then 0 else elem w (s.readV o.d) j :=
  if_neg fun ha => h ((s.active_iff o.aaa j).1 ha)

end

/-- The write of an EVEX form's new value leaves R160's result, for a source whose elements are as `p` says. -/
theorem EvexForm.evexResult_retire_setV {w vl : Nat} {mk : EvexOps → Instr} (hform : EvexForm w vl mk) (s : State)
    (len : Nat) (o : EvexOps) (b : Nat → BitVec w) (p : Nat → BitVec w → Prop) (hp : ∀ j, j < vl / w → p j (b j)) :
    EvexResult w vl s ((s.setV o.d (pack w (vl / w) (s.maskedMax w o b))).retire len) o p := by
  obtain ⟨hfill, h512⟩ := hform.elements_fill
  have hw : 0 < w := hform.width_pos.2
  rw [EvexResult, State.readV_retire, State.readV_setV_same]
  refine ⟨fun j hj => ?_, fun k hk => pack_zero_above w _ _ hw k (hfill.le.trans hk)⟩
  rw [elem_pack w _ _ hw (hfill.le.trans h512) j hj]
  refine ⟨fun ha => ⟨b j, hp j hj, ?_⟩, fun hi hz => ?_, fun hi hz => ?_⟩
  · rw [s.maskedMax_of_active w o b j ha, maxOf_eq_umax]
  · rw [s.maskedMax_of_inactive w o b j hi, hz, if_neg Bool.false_ne_true]
  · rw [s.maskedMax_of_inactive w o b j hi, hz, if_pos rfl]

/-! ## EVEX forms complete with their result -/

/-- A readable EVEX source in memory gives the elements in its bytes, a broadcast one its one element for every `j`. -/
theorem State.maskedSource_of_readable (s : State) (w vl : Nat) (o : EvexOps) (m : MemAccess)
    (ha : s.maskedAccess w vl o = some m) (hr : s.readable m) :
    s.maskedSource o.prefixes w vl o.len o.aaa o.src
      = .next fun j => s.memElem w (m.seg, m.ea) (if o.src.bcst then 0 else j * (w / 8)) := by
  rw [s.maskedSource_eq_checkAccess w vl o m ha, s.checkAccess_of_readable m hr]
  rfl

namespace EvexForm

variable {w vl : Nat} {mk : EvexOps → Instr}

/-- The elements are whole bytes, and none is longer than a register. -/
theorem width_in_bytes (h : EvexForm w vl mk) : 8 ∣ w ∧ w ≤ 512 := by cases h <;> decide

/-- An EVEX form that is ready and whose source has the elements `b` completes with the result of R160 inside the frame. -/
theorem exec_of_source (hform : EvexForm w vl mk) (o : EvexOps) (s : State) (b : Nat → BitVec w)
    (p : Nat → BitVec w → Prop) (hready : EvexReady s vl o)
    (hsrc : s.maskedSource o.prefixes w vl o.len o.aaa o.src = .next b) (hp : ∀ j, j < vl / w → p j (b j)) :
    ∃ t, exec (mk o) s = .next t ∧ EvexResult w vl s t o p ∧ OnlyWrites s t o.d (mk o).ilen := by
  have hval : s.destValue (mk o) = .next (pack w (vl / w) (s.maskedMax w o b)) := by
    rw [hform.destValue_eq, State.evexValue, hsrc]; rfl
  refine ⟨_, (exec_eq_next_iff _ _ _).2 ⟨hform.enabled o s hready, _, hval, rfl⟩, ?_⟩
  rw [hform.dest_eq]
  exact ⟨hform.evexResult_retire_setV s _ o b p hp, s.onlyWrites_retire_setV _ _ _⟩

theorem registerForm (hform : EvexForm w vl mk) : EvexRegisterForm w vl mk := by
  intro o s n hsrc hready
  have hread : s.maskedSource o.prefixes w vl o.len o.aaa o.src = .next (elem w (s.readV n)) := by
    rw [hsrc]; rfl
  exact hform.exec_of_source o s _ _ hready hread fun _ _ => rfl

/-- Readable accessed bytes are all a memory operand takes: each element is the little-endian value in its bytes, a broadcast
one in those at the operand's start. -/
theorem exec_of_accessed (hform : EvexForm w vl mk) (o : EvexOps) (s : State) (bcst : Bool) (a : Addr) (sg : Seg)
    (ea : Word) (hsrc : o.src = .mem bcst a) (hready : EvexReady s vl o)
    (href : s.memRef o.prefixes (dispScale w vl bcst) (mk o).ilen a = (sg, ea))
    (hbytes : ∀ i ∈ s.accessed w (vl / w) o.aaa bcst, ByteReadable s sg ea i) :
    ∃ t, exec (mk o) s = .next t
      ∧ EvexResult w vl s t o (fun j => LittleEndian w (s.operandByte sg ea) (if bcst then 0 else j * (w / 8)))
      ∧ OnlyWrites s t o.d (mk o).ilen := by
  have haccess : s.maskedAccess w vl o = some ⟨sg, ea, s.accessed w (vl / w) o.aaa bcst, false⟩ := by
    rw [← hform.access_eq, hform.access_mem o s bcst a sg ea hsrc href]
  have hbcst : o.src.bcst = bcst := by rw [hsrc]; rfl
  have hread := s.maskedSource_of_readable w vl o _ haccess ⟨hbytes, nofun⟩
  rw [hbcst] at hread
  obtain ⟨h8, hw⟩ := hform.width_in_bytes
  exact hform.exec_of_source o s _ _ hready hread fun j _ => s.littleEndian_memElem w (sg, ea) _ h8 hw

/-- A byte accessed of a full operand is one of an element that is active or read for want of fault suppression. -/
theorem memoryForm (hform : EvexForm w vl mk) : EvexMemoryForm w vl mk := by
  intro o s a sg ea hsrc hready href hbytes
  refine hform.exec_of_accessed o s false a sg ea hsrc hready href fun i hi => ?_
  obtain ⟨j, ⟨hj, ha⟩, k, hk, rfl⟩ := (s.mem_accessed_full w (vl / w) o.aaa i).1 hi
  exact hbytes j hj (ha.imp_left (s.active_iff o.aaa j).1) k hk

/-- A byte accessed of a broadcast operand is there for some element that is active or read for want of fault suppression. -/
theorem broadcastForm (hform : EvexForm w vl mk) : EvexBroadcastForm w vl mk := by
  intro o s a sg ea hsrc hready href hbytes
  refine hform.exec_of_accessed o s true a sg ea hsrc hready href fun i hi => ?_
  obtain ⟨hlt, j, hj, ha⟩ := (s.mem_accessed_bcst w (vl / w) o.aaa i).1 hi
  exact hbytes (ha.imp_left fun hact => ⟨j, hj, (s.active_iff o.aaa j).1 hact⟩) i hlt

end EvexForm

/-! ## Opmask registers that agree below KL (R35, R160) -/

section
variable (s : State) (k' : Vector Word 8)

/-- With the opmask registers `k'` in their place, the elements below `kl` are active as before. -/
def State.SameActive (aaa : BitVec 3) (kl : Nat) : Prop :=
  ∀ j, j < kl → ({ s with k := k' } : State).active aaa j = s.active aaa j

variable {s k'}

theorem State.SameActive.accessed_eq {aaa : BitVec 3} {kl : Nat} (h : s.SameActive k' aaa kl) (w : Nat) (bcst : Bool) :
    ({ s with k := k' } : State).accessed w kl aaa bcst = s.accessed w kl aaa bcst := by
  have hfilter : (List.range kl).filter (fun j => ({ s with k := k' } : State).active aaa j || !s.env.faultSuppression)
      = (List.range kl).filter fun j => s.active aaa j || !s.env.faultSuppression :=
    List.filter_congr fun j hj => by rw [h j (List.mem_range.1 hj)]
  simp only [State.accessed, hfilter]

/-- The source reads the writemask only for which bytes are accessed. -/
theorem State.SameActive.maskedSource_eq {aaa : BitVec 3} {w vl : Nat} (h : s.SameActive k' aaa (vl / w))
    (ps : List Prefix) (len : Nat) (src : Rm5) :
    ({ s with k := k' } : State).maskedSource ps w vl len aaa src = s.maskedSource ps w vl len aaa src := by
  cases src with
  | reg n => rfl
  | mem bcst a =>
    simp only [State.maskedSource, h.accessed_eq w bcst]
    rfl

theorem State.SameActive.evexValue_eq {w vl : Nat} {o : EvexOps} (h : s.SameActive k' o.aaa (vl / w)) :
    ({ s with k := k' } : State).evexValue w vl o = s.evexValue w vl o := by
  have hmax (b : Nat → BitVec w) (j : Nat) (hj : j < vl / w) :
      ({ s with k := k' } : State).maskedMax w o b j = s.maskedMax w o b j := by
    simp only [State.maskedMax, h j hj]
    rfl
  rw [State.evexValue, State.evexValue, h.maskedSource_eq]
  exact congrArg (andThen _) (funext fun b => congrArg _ (pack_congr w _ _ _ (hmax b)))

end

theorem EvexForm.highMaskBitsForm {w vl : Nat} {mk : EvexOps → Instr} (hform : EvexForm w vl mk) :
    HighMaskBitsForm (vl / w) mk := by
  intro o s k' h
  refine exec_eq_mapNext (mk o) s { s with k := k' } (fun t => { t with k := k' }) (fun _ _ _ => rfl) ?_ ?_ fun _ => rfl
  · rw [hform.udFor_eq, hform.udFor_eq]
  · rw [hform.destValue_eq, hform.destValue_eq]
    exact State.SameActive.evexValue_eq h

/-! ## Unmasked EVEX beside VEX (R167) -/

/-- Without a writemask every element is active, so the new value is that of the VEX form on the same registers. -/
theorem State.evexValue_of_unmasked (s : State) (vl : Nat) (o : VexOps) (o' : EvexOps) (x : Bool) (n : BitVec 4)
    (hsrc : o.src = .reg x n) (hsrc' : o'.src = .reg (n.setWidth 5)) (hs1 : o'.s1 = o.s1.setWidth 5)
    (haaa : o'.aaa = 0#3) : s.evexValue 32 vl o' = s.vexValue vl o := by
  have hmax : s.maskedMax 32 o' (elem 32 (s.readV (n.setWidth 5)))
      = fun j => umax (elem 32 (s.readV (o.s1.setWidth 5)) j) (elem 32 (s.readV (n.setWidth 5)) j) :=
    funext fun j => hs1 ▸ s.maskedMax_of_active 32 o' _ j (.inl haaa)
  rw [State.evexValue, State.vexValue, hsrc, hsrc']
  exact congrArg (fun f => Host.Outcome.next (pack 32 (vl / 32) f)) hmax

theorem vexAgreesForm {vl : Nat} {feature : Features → Bool} {mkV : VexOps → Instr} {mkE : EvexOps → Instr}
    (hV : VexForm vl feature mkV) (hE : EvexForm 32 vl mkE) : VexAgreesForm vl feature mkV mkE := by
  intro o o' x n s hsrc hsrc' hd hs1 haaa hvex hevex
  obtain ⟨t, hexec, -⟩ := hV.registerForm o s x n hsrc hvex
  obtain ⟨-, val, hval, rfl⟩ := (exec_eq_next_iff _ _ _).1 hexec
  have hval' : s.destValue (mkE o') = .next val := by
    rw [hE.destValue_eq, s.evexValue_of_unmasked vl o o' x n hsrc hsrc' hs1 haaa, ← hV.destValue_eq, hval]
  refine ⟨_, _, hexec, (exec_eq_next_iff _ _ _).2 ⟨hE.enabled o' s hevex, val, hval', rfl⟩, fun r => ?_⟩
  rw [State.readV_retire, State.readV_retire, hV.dest_eq, hE.dest_eq, hd]

/-! ## The statements -/

/-- Settles O14: the register's dwords are the source. -/
theorem evexDwordRegisterSource : Obligations.EvexDwordRegisterSource := by
  open EvexForm in
  exact ⟨vpmaxud128.registerForm, vpmaxud256.registerForm, vpmaxud512.registerForm⟩

/-- Settles O15: the accessed bytes of the operand are those of the accessed dwords, which make its elements. -/
theorem evexDwordMemorySource : Obligations.EvexDwordMemorySource := by
  open EvexForm in
  exact ⟨vpmaxud128.memoryForm, vpmaxud256.memoryForm, vpmaxud512.memoryForm⟩

/-- Settles O16: the one dword in memory is every element, and is accessed if some element is. -/
theorem evexDwordBroadcastSource : Obligations.EvexDwordBroadcastSource := by
  open EvexForm in
  exact ⟨vpmaxud128.broadcastForm, vpmaxud256.broadcastForm, vpmaxud512.broadcastForm⟩

/-- Settles O17: the register's qwords are the source. -/
theorem evexQwordRegisterSource : Obligations.EvexQwordRegisterSource := by
  open EvexForm in
  exact ⟨vpmaxuq128.registerForm, vpmaxuq256.registerForm, vpmaxuq512.registerForm⟩

/-- Settles O18: the accessed bytes of the operand are those of the accessed qwords, which make its elements. -/
theorem evexQwordMemorySource : Obligations.EvexQwordMemorySource := by
  open EvexForm in
  exact ⟨vpmaxuq128.memoryForm, vpmaxuq256.memoryForm, vpmaxuq512.memoryForm⟩

/-- Settles O19: the one qword in memory is every element, and is accessed if some element is. -/
theorem evexQwordBroadcastSource : Obligations.EvexQwordBroadcastSource := by
  open EvexForm in
  exact ⟨vpmaxuq128.broadcastForm, vpmaxuq256.broadcastForm, vpmaxuq512.broadcastForm⟩

/-- Settles O29: the writemask reaches the accessed bytes and the new value through the activity of the elements below KL only. -/
theorem highMaskBitsIgnored : Obligations.HighMaskBitsIgnored := by
  open EvexForm in
  exact ⟨vpmaxud128.highMaskBitsForm, vpmaxud256.highMaskBitsForm, vpmaxud512.highMaskBitsForm,
    vpmaxuq128.highMaskBitsForm, vpmaxuq256.highMaskBitsForm, vpmaxuq512.highMaskBitsForm⟩

/-- Settles O32: both forms complete, and write one value to one register. -/
theorem unmaskedEvexAgreesWithVex : Obligations.UnmaskedEvexAgreesWithVex :=
  ⟨vexAgreesForm .vpmaxud128 .vpmaxud128, vexAgreesForm .vpmaxud256 .vpmaxud256⟩

end Sys2Proof.Machine
end

section
/-! SUPPORT. The exceptions and refusals of an instruction: which check raises each, and which accesses can fault; then the
statements of the exceptions family. -/

namespace Sys2Proof.Machine

open Sys2Proof.Claims

/-! ## The checks before the operands (`60_exceptions.md` R199 steps 1 to 3, R210) -/

theorem exec_of_not_covered (i : Instr) (s : State) (hc : ¬ Covered s) : exec i s = .refused .mode := by
  rw [covered_iff, Bool.not_eq_true] at hc
  simp [exec_eq, State.guarded, hc]

theorem step_of_not_covered (s : State) (hc : ¬ Covered s) : step s = .refused .mode := by
  rw [covered_iff, Bool.not_eq_true] at hc
  simp [step, hc]

theorem exec_of_udFor (i : Instr) (s : State) (hc : Covered s) (hv : i.vl ≤ s.env.maxvl.bits) (hu : s.udFor i = true) :
    exec i s = .fault .ud := by
  simp [exec_eq, State.guarded, (covered_iff s).1 hc, Nat.not_lt.2 hv, hu, takeException]

theorem exec_of_ts (i : Instr) (s : State) (hc : Covered s) (hv : i.vl ≤ s.env.maxvl.bits) (hu : s.udFor i = false)
    (ht : s.env.ts = true) : exec i s = .fault .nm := by
  simp [exec_eq, State.guarded, (covered_iff s).1 hc, Nat.not_lt.2 hv, hu, ht, takeException]

/-! ## What a fault of an instruction is -/

/-- An instruction that faults has a `#UD` condition, or CR0.TS = 1, or makes an access to which the fault applies. -/
theorem exec_fault (i : Instr) (s : State) (f : Fault) (h : exec i s = .fault f) :
    f = .ud ∨ (f = .nm ∧ s.env.ts = true)
      ∨ ∃ m, s.access i = some m ∧ f ∈ s.env.memFaults m.seg m.ea m.offs m.aligned := by
  rcases exec_cases i s with
    ⟨hr, -⟩ | ⟨hr, -⟩ | ⟨hr, -⟩ | ⟨hr, -, -, -, ht⟩ | ⟨m, g, -, ha, hr, hg, -⟩ | ⟨m, -, -, hr, -⟩ | ⟨-, -, val, hr⟩ <;>
    rw [h] at hr <;> cases hr
  · exact .inl rfl
  · exact .inr (.inl ⟨rfl, ht⟩)
  · exact .inr (.inr ⟨m, ha, hg⟩)

/-- `#NM` is no memory fault. -/
theorem Env.nm_not_mem_memFaults (e : Env) (sg : Seg) (ea : Word) (is : List Nat) (al : Bool) :
    .nm ∉ e.memFaults sg ea is al := by
  intro h
  rcases e.mem_memFaults sg ea is al _ h with ⟨hf, -⟩ | ⟨hf, -⟩ | ⟨_, -, -, _, -, hf⟩
  · cases sg <;> cases hf
  · cases hf
  · cases hf

theorem exec_eq_nm_iff (i : Instr) (s : State) (hc : Covered s) (hv : i.vl ≤ s.env.maxvl.bits) (hu : s.udFor i = false) :
    exec i s = .fault .nm ↔ s.env.ts = true := by
  refine ⟨fun h => ?_, exec_of_ts i s hc hv hu⟩
  rcases exec_fault i s .nm h with hud | ⟨-, ht⟩ | ⟨m, -, hm⟩
  · cases hud
  · exact ht
  · exact absurd hm (s.env.nm_not_mem_memFaults _ _ _ _)

/-! ## Which instructions access memory, and which must be aligned -/

theorem State.plainAccess_some (s : State) (ps : List Prefix) (vl len : Nat) (al : Bool) (src : Rm4) (m : MemAccess)
    (h : s.plainAccess ps vl len al src = some m) : src.isReg = false ∧ m.aligned = al := by
  cases src with
  | reg x n => cases h
  | mem a => cases h; exact ⟨rfl, rfl⟩

theorem State.maskedAccess_some (s : State) (w vl : Nat) (o : EvexOps) (m : MemAccess)
    (h : s.maskedAccess w vl o = some m) : o.src.isReg = false ∧ m.aligned = false := by
  unfold State.maskedAccess at h
  cases hsrc : o.src with
  | reg n => rw [hsrc] at h; cases h
  | mem bcst a => rw [hsrc] at h; cases h; exact ⟨rfl, rfl⟩

/-- Only a memory source is accessed, and only form 1's must be aligned (`20_memory.md` R65). -/
theorem State.access_some (s : State) (i : Instr) (m : MemAccess) (h : s.access i = some m) :
    i.regSource = false ∧ m.aligned = i.legacy := by
  cases i with
  | pmaxud o => exact s.plainAccess_some _ _ _ true _ m h
  | pmaxudRex w o => exact s.plainAccess_some _ _ _ true _ m h
  | vpmaxudVex128 o => exact s.plainAccess_some _ _ _ false _ m h
  | vpmaxudVex256 o => exact s.plainAccess_some _ _ _ false _ m h
  | vpmaxudEvex128 o => exact s.maskedAccess_some 32 128 o m h
  | vpmaxudEvex256 o => exact s.maskedAccess_some 32 256 o m h
  | vpmaxudEvex512 o => exact s.maskedAccess_some 32 512 o m h
  | vpmaxuqEvex128 o => exact s.maskedAccess_some 64 128 o m h
  | vpmaxuqEvex256 o => exact s.maskedAccess_some 64 256 o m h
  | vpmaxuqEvex512 o => exact s.maskedAccess_some 64 512 o m h

/-! ## Error codes -/

/-- Where every error code of Translate is one of a data read, so is the code of each byte that faults. -/
theorem Translate.codeOk_lookup (t : Translate) (h : t.codesOk = true) (a : Nat) : (t.lookup a).codeOk = true := by
  simp only [Translate.codesOk, Bool.and_eq_true, List.all_eq_true] at h
  obtain ⟨⟨hregions, hsup⟩, husr⟩ := h
  unfold Translate.lookup
  split
  · next r hfind =>
    obtain ⟨hrsup, hrusr⟩ := hregions r (List.mem_of_find?_eq_some hfind)
    have hr : (if t.cpl = 3 then r.usr else r.sup).codeOk = true := by split <;> assumption
    split
    · rfl
    · rfl
    · next c hc => exact hc ▸ hr
  · have hrest : (if t.cpl = 3 then t.restUsr else t.restSup).codeOk = true := by split <;> assumption
    split
    · rfl
    · rfl
    · next c hc => exact hc ▸ hrest

/-! ## The statements -/

/-- Settles O46: the mode is the first check of a step and of an instruction. -/
theorem otherModesRefused : Obligations.OtherModesRefused :=
  fun s hc => ⟨step_of_not_covered s hc, fun i => exec_of_not_covered i s hc⟩

/-- Settles O36: the `#UD` conditions are tested before CR0.TS, which is the only source of `#NM`. -/
theorem deviceNotAvailable : Obligations.DeviceNotAvailable :=
  fun i s hc hv => ⟨exec_of_udFor i s hc hv, exec_eq_nm_iff i s hc hv⟩

/-- Settles O39: the page faults are the only kind that applies, and the access check puts them before a device. -/
theorem pageFaultPassedThrough : Obligations.PageFaultPassedThrough := by
  rintro i s m hc hvl hud hts ha hal hseg ⟨k, hk, d, hd⟩
  have hne : s.env.memFaults m.seg m.ea m.offs m.aligned ≠ [] := by
    intro hnil
    obtain ⟨hbytes, -⟩ := (Env.memFaults_nil _ _ _ _ _).1 hnil
    exact (hbytes k hk).2 d hd
  obtain ⟨f, hf, hexec⟩ := exec_of_memFaults_ne_nil i s m (s.enabled_of_covered i hc hvl hud hts) ha hne
  rcases Env.mem_memFaults _ _ _ _ _ f hf with ⟨-, j, hj, hbad⟩ | ⟨-, hmust, hmis⟩ | ⟨j, hj, -, c, hlook, rfl⟩
  · rw [hseg j hj] at hbad; cases hbad
  · exact absurd (hal hmust) hmis
  · exact ⟨j, hj, c, hlook, hexec⟩

/-- Settles O40: past `#UD` and `#NM` only the faults that apply to the access are left, and only form 1's must be aligned. -/
theorem admittedMemoryFaults : Obligations.AdmittedMemoryFaults := by
  intro i s f h hud hnm
  rcases exec_fault i s f h with hf | ⟨hf, -⟩ | ⟨m, ha, hf⟩
  · exact absurd hf hud
  · exact absurd hf hnm
  · refine ⟨m, ha, ?_⟩
    rcases Env.mem_memFaults _ _ _ _ _ f hf with ⟨hfault, j, hj, hbad⟩ | ⟨hgp, hmust, hmis⟩ | hpage
    · exact .inl ⟨j, hj, hbad, hfault.trans (segFault_eq m.seg)⟩
    · obtain ⟨-, hlegacy⟩ := s.access_some i m ha
      exact .inr (.inl ⟨hlegacy ▸ hmust, hgp, hmis⟩)
    · exact .inr (.inr hpage)

/-- Settles O45: of all an instruction can answer three are refusals. -/
theorem refusalsOfInstructions : Obligations.RefusalsOfInstructions := by
  intro i s r h
  rcases exec_cases i s with
    ⟨hr, hm⟩ | ⟨hr, -, hv⟩ | ⟨hr, -⟩ | ⟨hr, -⟩ | ⟨m, f, -, -, hr, -⟩ | ⟨m, -, ha, hr, -, hdev⟩ | ⟨-, -, val, hr⟩ <;>
    rw [h] at hr <;> cases hr
  · exact .inl ⟨rfl, fun hc => by rw [(covered_iff s).1 hc] at hm; cases hm⟩
  · exact .inr (.inl ⟨rfl, hv⟩)
  · exact .inr (.inr ⟨rfl, m, ha, hdev⟩)

/-- Settles O41: a memory fault and the refusal of a device come from an access, and a register source makes none. -/
theorem registerSourceMeetsNoMemory : Obligations.RegisterSourceMeetsNoMemory := by
  intro i s hreg
  have no_access (m : MemAccess) : s.access i ≠ some m := by
    intro ha
    obtain ⟨hmem, -⟩ := s.access_some i m ha
    rw [hreg] at hmem; cases hmem
  have no_fault (f : Fault) (hud : f ≠ .ud) (hnm : f ≠ .nm) : exec i s ≠ .fault f := by
    intro h
    obtain ⟨m, ha, -⟩ := admittedMemoryFaults i s f h hud hnm
    exact no_access m ha
  refine ⟨no_fault .ss nofun nofun, no_fault .gp nofun nofun, fun c a => no_fault (.pf c a) nofun nofun, fun h => ?_⟩
  rcases refusalsOfInstructions i s .device h with ⟨hr, -⟩ | ⟨hr, -⟩ | ⟨-, m, ha, -⟩
  · cases hr
  · cases hr
  · exact no_access m ha

/-- Settles O42: the code is Translate's for an accessed byte, and the invariant bounds Translate's codes. -/
theorem pageFaultCodeOfARead : Obligations.PageFaultCodeOfARead := by
  intro i s c a hwf h
  obtain ⟨-, -, -, -, hcodes⟩ := s.wf_iff.1 hwf
  obtain ⟨m, -, ⟨-, -, -, hf⟩ | ⟨-, hf, -⟩ | ⟨j, -, -, d, hlook, hf⟩⟩ := admittedMemoryFaults i s _ h nofun nofun
  · split at hf <;> cases hf
  · cases hf
  · obtain ⟨rfl, -⟩ := Fault.pf.inj hf
    have hcode := s.env.xlate.codeOk_lookup hcodes (s.env.linear m.seg m.ea j)
    rw [hlook] at hcode
    simpa [Target.codeOk] using hcode

end Sys2Proof.Machine
end

section
/-! SUPPORT. Text stored at the pc is what the fetch reads there and what the next step runs; then the statement on the load. -/

namespace Sys2Proof.Machine

open Sys2Proof.Claims

/-! ## The text under the flat Translate (`10_state.md` R38, `20_memory.md` R74) -/

theorem Flat64.storeText {s : State} (h : Flat64 s) (i : Nat) (bs : List Byte) : Flat64 (s.storeText i bs) := by
  simpa [Flat64] using h

/-- In the lower half the text is in memory at its own addresses. -/
theorem Flat64.textAddr_eq {s : State} (h : Flat64 s) (i : Nat) (hlt : s.pc.toNat + i < 2 ^ 47) :
    s.textAddr i = some (s.pc.toNat + i) := by
  have ⟨hm, _, _, _, hshared⟩ := h
  have hrun : s.runOk i = true := (s.runOk_iff i).2 (.inr ⟨hm, .inl hlt⟩)
  have hlin : s.env.linear .cs s.pc i = s.pc.toNat + i := by
    have hwrap : s.pc.toNat + i < 2 ^ 64 := by omega
    simpa [Env.linear, Env.linearSize, Env.segBase, hm] using hwrap
  simp [State.textAddr, hrun, Flat64.lookup_eq s h, hlin, Env.sharedAt, hshared]

/-- Each byte of the stored text is in memory at its place, and later bytes are put at later addresses. -/
theorem Flat64.read_storeText {s : State} (h : Flat64 s) (hmem : Memory.wf s.mem = true) (bs : List Byte) (i : Nat)
    (hlt : s.pc.toNat + i + bs.length ≤ 2 ^ 47) (j : Nat) (hj : j < bs.length) :
    Memory.read (s.storeText i bs).mem (s.pc.toNat + i + j) = bs[j] := by
  induction bs generalizing i j with
  | nil => cases hj
  | cons b bs ih =>
    rw [List.length_cons] at hlt hj
    have hrest : Memory.wf (s.storeText (i + 1) bs).mem = true := s.storeText_wf bs hmem (i + 1)
    simp only [State.storeText, Flat64.textAddr_eq h i (by omega)]
    cases j with
    | zero => exact Memory.read_write_same _ _ _ hrest
    | succ j =>
      rw [Memory.read_write_other _ _ _ _ (by omega) hrest, List.getElem_cons_succ, ← ih (i + 1) (by omega) j (by omega)]
      congr 1
      omega

/-- The fetch reads the bytes that memory holds from the pc on. -/
theorem Flat64.fetchFrom_eq {s : State} (h : Flat64 s) (bs : List Byte) (i : Nat)
    (hlt : s.pc.toNat + i + bs.length ≤ 2 ^ 47)
    (hread : ∀ j (hj : j < bs.length), Memory.read s.mem (s.pc.toNat + i + j) = bs[j]) :
    s.fetchFrom bs.length i = bs := by
  induction bs generalizing i with
  | nil => rfl
  | cons b bs ih =>
    rw [List.length_cons] at hlt
    have hhead : Memory.read s.mem (s.pc.toNat + i) = b := hread 0 (Nat.succ_pos _)
    have htail : s.fetchFrom bs.length (i + 1) = bs := by
      refine ih (i + 1) (by omega) fun j hj => ?_
      rw [show s.pc.toNat + (i + 1) + j = s.pc.toNat + i + (j + 1) by omega]
      exact hread (j + 1) (Nat.succ_lt_succ hj)
    simp only [List.length_cons, State.fetchFrom, Flat64.textAddr_eq h i (by omega), hhead, htail]

/-- A text as long as the longest instruction, stored at the pc, is what the decoder sees. -/
theorem Flat64.fetch_storeText {s : State} (h : Flat64 s) (hmem : Memory.wf s.mem = true) (bs : List Byte)
    (hlen : bs.length = maxLen) (hlt : s.pc.toNat + maxLen ≤ 2 ^ 47) : (s.storeText 0 bs).fetch = bs := by
  have hfits : s.pc.toNat + 0 + bs.length ≤ 2 ^ 47 := by rw [hlen]; exact hlt
  unfold State.fetch
  rw [← hlen]
  refine Flat64.fetchFrom_eq (Flat64.storeText h 0 bs) bs 0 (by simpa using hfits) fun j hj => ?_
  rw [State.storeText_pc]
  exact Flat64.read_storeText h hmem bs 0 hfits j hj

/-- An instruction stored at the pc is the one the next step runs. -/
theorem Flat64.step_storeText {s : State} (h : Flat64 s) (hmem : Memory.wf s.mem = true) (bs : List Byte) (i : Instr)
    (hlen : bs.length = maxLen) (hlt : s.pc.toNat + maxLen < 2 ^ 47) (hd : decode .m64 bs = .ok i) :
    step (s.storeText 0 bs) = exec i (s.storeText 0 bs) := by
  have ⟨hm, _⟩ := Flat64.storeText h 0 bs
  obtain ⟨-, hilen, -⟩ := decodedLengthBounds .m64 bs i hd
  have hdecode : decode (s.storeText 0 bs).env.mode (s.storeText 0 bs).fetch = .ok i := by
    rw [hm, Flat64.fetch_storeText h hmem bs hlen (Nat.le_of_lt hlt), hd]
  refine stepRunsDecodedInstruction _ i (.inl hm) hdecode (((s.storeText 0 bs).runOk_iff i.ilen).2 (.inr ⟨hm, .inl ?_⟩))
  rw [State.storeText_pc]
  exact Nat.lt_of_le_of_lt (Nat.add_le_add_left hilen _) hlt

/-! ## The model's load (log 1) -/

theorem length_tableBytes (nbits w : Nat) : (tableBytes nbits w).length = maxLen := by simp [tableBytes]

theorem decode_of_decodeTableWord (nbits w : Nat) (i : Instr) (h : decodeTableWord nbits w = some i) :
    decode .m64 (tableBytes nbits w) = .ok i := by
  unfold decodeTableWord at h
  split at h
  next j hd => rw [hd, Option.some.inj h]
  next => cases h
  next => cases h

/-- The launch from reset leaves the machine in M64, with the Translate of reset and no other agent. -/
theorem flat64_launch_reset : Flat64 State.reset.launch := ⟨rfl, rfl, rfl, rfl, rfl⟩

/-- Settles O58: the load stores the word's bytes at the pc of the launched machine, FFF0H, far below the end of the pc's run. -/
theorem loadedWordRunsFirst : Obligations.LoadedWordRunsFirst := by
  intro nbits w i h
  exact Flat64.step_storeText flat64_launch_reset Memory.wf_nil _ i (length_tableBytes nbits w) (by decide)
    (decode_of_decodeTableWord nbits w i h)

end Sys2Proof.Machine
end

section
/-! SUPPORT. An instruction raises `#UD` exactly when one of its `#UD` conditions holds; then the conditions of each family,
written on the control bits (`60_exceptions.md` R192 to R194). -/

namespace Sys2Proof.Machine

open Sys2Proof.Claims

/-! ## The outcome `#UD` -/

/-- `#UD` is no memory fault. -/
theorem Env.ud_not_mem_memFaults (e : Env) (sg : Seg) (ea : Word) (is : List Nat) (al : Bool) :
    .ud ∉ e.memFaults sg ea is al := by
  intro h
  rcases e.mem_memFaults sg ea is al _ h with ⟨hf, -⟩ | ⟨hf, -⟩ | ⟨_, -, -, _, -, hf⟩
  · cases sg <;> cases hf
  · cases hf
  · cases hf

theorem exec_eq_ud_iff (i : Instr) (s : State) (hc : Covered s) (hv : i.vl ≤ s.env.maxvl.bits) :
    exec i s = .fault .ud ↔ s.udFor i = true := by
  refine ⟨fun h => ?_, exec_of_udFor i s hc hv⟩
  rcases exec_cases i s with
    ⟨hr, -⟩ | ⟨hr, -⟩ | ⟨hr, -, -, hu⟩ | ⟨hr, -⟩ | ⟨m, f, -, -, hr, hf, -⟩ | ⟨m, -, -, hr, -⟩ | ⟨-, -, val, hr⟩ <;>
    rw [h] at hr <;> cases hr
  · exact hu
  · exact absurd hf (s.env.ud_not_mem_memFaults _ _ _ _)

/-! ## The conditions, on the control bits of `10_state.md` R40 -/

section
variable (e : Env)

theorem Env.avxState_eq_false : e.avxState = false ↔ ¬ (e.xcr0.getLsbD 1 = true ∧ e.xcr0.getLsbD 2 = true) := by
  rw [Env.avxState, ← Bool.and_eq_true, Bool.not_eq_true]

theorem Env.avx512State_eq_false : e.avx512State = false ↔
    ¬ (e.xcr0.getLsbD 5 = true ∧ e.xcr0.getLsbD 6 = true ∧ e.xcr0.getLsbD 7 = true) := by
  rw [Env.avx512State, Bool.and_assoc, ← Bool.and_eq_true, ← Bool.and_eq_true, Bool.not_eq_true]

theorem Env.legacyUd_iff : e.legacyUd = true ↔
    e.cr0.getLsbD 2 = true ∨ e.cr4.getLsbD 9 = false ∨ e.features.sse41 = false := by
  simp only [Env.legacyUd, Env.em, Env.osfxsr, Bool.or_eq_true, Bool.not_eq_true', or_assoc]

theorem Env.vexUd_iff (feature : Bool) : e.vexUd feature = true ↔
    e.cr4.getLsbD 18 = false ∨ ¬ (e.xcr0.getLsbD 1 = true ∧ e.xcr0.getLsbD 2 = true) ∨ feature = false := by
  simp only [Env.vexUd, Env.osxsave, Bool.or_eq_true, Bool.not_eq_true', e.avxState_eq_false, or_assoc]

theorem Env.evexUd_iff (vl : Nat) : e.evexUd vl = true ↔
    e.cr4.getLsbD 18 = false
      ∨ ¬ (e.xcr0.getLsbD 5 = true ∧ e.xcr0.getLsbD 6 = true ∧ e.xcr0.getLsbD 7 = true)
      ∨ ¬ (e.xcr0.getLsbD 1 = true ∧ e.xcr0.getLsbD 2 = true)
      ∨ e.features.avx512f = false ∨ (vl < 512 ∧ e.features.avx512vl = false) := by
  simp only [Env.evexUd, Env.osxsave, Bool.or_eq_true, Bool.and_eq_true, Bool.not_eq_true', decide_eq_true_eq,
    e.avxState_eq_false, e.avx512State_eq_false, or_assoc]

end

/-! ## The families -/

/-- Every MAXVL admits the vector length of form 1 (`00_scope.md` R11). -/
theorem State.vl128_le_maxvl (s : State) : 128 ≤ s.env.maxvl.bits := by cases s.env.maxvl <;> decide

theorem LegacyForm.udForm {mk : LegacyOps → Instr} (hform : LegacyForm mk) : LegacyUdForm mk := by
  intro o s hc
  have hv : (mk o).vl ≤ s.env.maxvl.bits := hform.vl_eq o ▸ s.vl128_le_maxvl
  rw [exec_eq_ud_iff _ s hc hv, hform.udFor_eq, Env.legacyUd_iff]

theorem VexForm.udForm {vl : Nat} {feature : Features → Bool} {mk : VexOps → Instr} (hform : VexForm vl feature mk) :
    VexUdForm vl feature mk := by
  intro o s hc hv
  rw [exec_eq_ud_iff _ s hc (hform.vl_eq o ▸ hv), hform.udFor_eq, Env.vexUd_iff]

/-- Zeroing without a writemask is the one condition of the operands (`60_exceptions.md` R194). -/
theorem EvexForm.udForm {w vl : Nat} {mk : EvexOps → Instr} (hform : EvexForm w vl mk) : EvexUdForm vl mk := by
  intro o s hc hv
  rw [exec_eq_ud_iff _ s hc (hform.vl_eq o ▸ hv), hform.udFor_eq, Bool.or_eq_true, Env.evexUd_iff]
  simp only [Bool.and_eq_true, beq_iff_eq, or_assoc]

/-! ## The statements -/

/-- Settles O33: the two rows are of one family, and every MAXVL admits their vector length. -/
theorem pmaxudUndefinedExactly : Obligations.PmaxudUndefinedExactly :=
  ⟨LegacyForm.pmaxud.udForm, fun w => (LegacyForm.pmaxudRex w).udForm⟩

/-- Settles O34: each VEX form tests its own feature flag alone (log 28). -/
theorem vexUndefinedExactly : Obligations.VexUndefinedExactly :=
  ⟨VexForm.vpmaxud128.udForm, VexForm.vpmaxud256.udForm⟩

/-- Settles O35: the six EVEX forms are of one family, in which the vector length matters to AVX512VL only. -/
theorem evexUndefinedExactly : Obligations.EvexUndefinedExactly :=
  ⟨EvexForm.vpmaxud128.udForm, EvexForm.vpmaxud256.udForm, EvexForm.vpmaxud512.udForm,
    EvexForm.vpmaxuq128.udForm, EvexForm.vpmaxuq256.udForm, EvexForm.vpmaxuq512.udForm⟩

end Sys2Proof.Machine
end
